-- ==== Sys2Proof/Word.lean ====
section
/-! DEFINITION. The byte, the only word of the block (spec/00_scope.md R8). -/

namespace Sys2Proof

/-- A byte: 8 bits, bit 7 the most significant, read as an unsigned integer 0 to 255 (R8). -/
abbrev Byte := BitVec 8

end Sys2Proof
end

