-- ==== Sys2Proof/Config.lean ====
section
/-! DEFINITION. What an implementation fixes (the open parameters of R7), the kinds of answer the
environment gives (R10, R11, R24), and the free values: constants without a body, so that no proof can
see what they are. -/

namespace Sys2Proof

/-- The ten symbolic phases `PhyPhase()` can answer (R24; STOP-SENT is not one, C4). `other` is every
status the source does not name (U13). -/
inductive Phase where
  | idle | idleError | startSent | repStartSent
  | addrWAcked | addrRAcked | dataWAcked | dataRAcked | dataRNacked | other
  deriving DecidableEq, Repr, Inhabited

/-- What the Transport meets next in the host's direction: a byte the host sent, or its own read timeout
elapsing before one arrives (R10). -/
inductive HostEvent where
  | byte (b : Byte)
  | timeout
  deriving DecidableEq, Repr, Inhabited

/-- The implementation parameters that are OPEN and that a rule reads (R7), each with the constraint the
spec sets (D5; `POLL_DELAY_US` is a positive integer). They are fixed for a machine: no step writes them. -/
structure Params where
  bufCap : Nat
  pollDelayUs : Nat
  bufCap_ge : 32 ≤ bufCap
  pollDelay_pos : 0 < pollDelayUs
  deriving DecidableEq, Repr

namespace Config

/-- `POLL_DELAY_US` less one: the spec gives no value, only that it is positive (R7, D2). Free value,
assumption 2. -/
opaque pollDelayPred : Nat

/-- `POLL_DELAY_US` of the machine `State.reset` describes: any positive number. -/
def pollDelayUs : Nat := pollDelayPred + 1

/-- The default capacity of the Shared Scratch Buffer, "e.g. 64" (R7). DESIGN CHOICE of the default for
`State.reset`, assumption 1. -/
def defaultBufCap : Nat := 64

/-- The parameters of the machine `State.reset` describes. -/
def params : Params where
  bufCap := defaultBufCap
  pollDelayUs := pollDelayUs
  bufCap_ge := by decide
  pollDelay_pos := Nat.succ_pos _

/-- `PHASE_CODE`: the numeric value the PHY status register holds for each phase. OPEN and used by no rule
(R7, R24, U3), assumption 18. -/
opaque phaseCode : Phase → Nat

/-- The answers of the environment beyond those a state already lists (R28, U7, U10): one free value for
each read, by the number of reads of that kind already answered freely. Assumption 3. -/
opaque freeHost : Nat → HostEvent
/-- Free answers of `PhyFlag()`; see `freeHost`. -/
opaque freeFlag : Nat → Bool
/-- Free answers of `PhyPhase()`; see `freeHost`. -/
opaque freePhase : Nat → Phase
/-- Free answers of `PhyData()`; see `freeHost`. -/
opaque freeData : Nat → Byte
/-- Free bytes of `SpiRead(n)`; see `freeHost`. -/
opaque freeSpi : Nat → Byte
/-- The byte a buffer index holds that nothing has written since reset number `n`: "each byte any value" (R29,
U8), fresh at every reset. Assumption 6. -/
opaque freeBuf (n index : Nat) : Byte
/-- The bytes a failed `readData` leaves in the buffer: "any value: each byte a fresh draw" (U2).
Assumption 7. -/
opaque freeJunk : Nat → Byte

end Config

end Sys2Proof
end

