-- ==== Sys2Proof/Syntax.lean ====
section
/-! DEFINITION. The instructions of the block: one command for each row of spec/opcode_table.json (R46). -/

namespace Sys2Proof

/-- A decoded command. All 8 bits of the opcode byte are the opcode (R43) and decoding uses nothing else
(R74), so a defined command carries no operand: its parameter and payload bytes are read from the Transport
by its handler (R72, R75). `nosuch` carries the unknown opcode byte (R48). -/
inductive Instr where
  /-- Opcode 7, `SPI_INIT` (R85). -/
  | spiInit
  /-- Opcode 8, `SPI_DEINIT` (R86). -/
  | spiDeinit
  /-- Opcode 9, `SPI_SELECT` (R87). -/
  | spiSelect
  /-- Opcode 10, `SPI_RELEASE` (R88). -/
  | spiRelease
  /-- Opcode 11, `SPI_READ` (R89). -/
  | spiRead
  /-- Opcode 12, `SPI_WRITE` (R90). -/
  | spiWrite
  /-- Opcode 13, `SPI_TEST` (R91). -/
  | spiTest
  /-- Opcode 20, `I2C_INIT` (R92). -/
  | i2cInit
  /-- Opcode 21, `I2C_DEINIT` (R93). -/
  | i2cDeinit
  /-- Opcode 22, `I2C_READ` (R94). -/
  | i2cRead
  /-- Opcode 23, `I2C_WRITE` (R95). -/
  | i2cWrite
  /-- Opcode 24, `I2C_START` (R96). -/
  | i2cStart
  /-- Opcode 25, `I2C_STOP` (R97). -/
  | i2cStop
  /-- Opcode 28, `I2C_TEST` (R98). -/
  | i2cTest
  /-- `NOSUCH`: any byte outside the closed set (R48, R81). -/
  | nosuch (op : Byte)
  deriving DecidableEq, Repr

end Sys2Proof
end

