-- ==== Sys2Proof/WellFormed.lean ====
section
/-! DEFINITION. When a term of `Instr` is a command of the protocol: the default command may not carry an
opcode of the closed set (R46, R48). -/

namespace Sys2Proof

/-- The closed opcode set (R46, R48). -/
def closedOpcodes : List Byte := [7, 8, 9, 10, 11, 12, 13, 20, 21, 22, 23, 24, 25, 28]

/-- A command is well-formed unless it is `nosuch` of a defined opcode: "every byte value outside" the
closed set is an unknown opcode (R48). -/
def Instr.wf : Instr → Bool
  | .spiInit | .spiDeinit | .spiSelect | .spiRelease | .spiRead | .spiWrite | .spiTest => true
  | .i2cInit | .i2cDeinit | .i2cRead | .i2cWrite | .i2cStart | .i2cStop | .i2cTest => true
  | .nosuch op => !closedOpcodes.contains op

end Sys2Proof
end

