-- ==== Sys2Proof/Decode.lean ====
section
/-! DEFINITION. The decoder from bytes to commands (R46, R48, R74), the encoder, and the frame formats with
the bytes the host sends for a whole command (R43, R44, R49, R52). -/

namespace Sys2Proof

/-- Why a byte sequence gives no command or no whole frame. -/
inductive DecodeError where
  /-- There is no opcode byte. -/
  | noOpcode
  /-- The parameter bytes of the format are not all there (the block answers 98, R76). -/
  | shortParams
  /-- The payload or reply bytes of the frame are not all there (the block answers 98, R76). -/
  | shortTail
  deriving DecidableEq, Repr

/-- The opcode map (R46), and `nosuch` for the 242 other bytes (R48): total, on all 8 bits and nothing else
(R74). -/
def decode (b : Byte) : Instr :=
  match b.toNat with
  | 7 => .spiInit
  | 8 => .spiDeinit
  | 9 => .spiSelect
  | 10 => .spiRelease
  | 11 => .spiRead
  | 12 => .spiWrite
  | 13 => .spiTest
  | 20 => .i2cInit
  | 21 => .i2cDeinit
  | 22 => .i2cRead
  | 23 => .i2cWrite
  | 24 => .i2cStart
  | 25 => .i2cStop
  | 28 => .i2cTest
  | _ => .nosuch b

/-- The first command of a byte sequence and the bytes after its opcode. -/
def decodeBytes : List Byte → Except DecodeError (Instr × List Byte)
  | [] => .error .noOpcode
  | b :: rest => .ok (decode b, rest)

/-- The opcode byte of a command (R46); it is also the byte of its early and final echo (R47). -/
def Instr.opcode : Instr → Byte
  | .spiInit => 7
  | .spiDeinit => 8
  | .spiSelect => 9
  | .spiRelease => 10
  | .spiRead => 11
  | .spiWrite => 12
  | .spiTest => 13
  | .i2cInit => 20
  | .i2cDeinit => 21
  | .i2cRead => 22
  | .i2cWrite => 23
  | .i2cStart => 24
  | .i2cStop => 25
  | .i2cTest => 28
  | .nosuch op => op

/-- The words of a command: its one opcode byte (R43). -/
def encode (i : Instr) : List Byte := [i.opcode]

/-- The seven frame formats (R44). -/
inductive Format where
  | n | p1 | rd1 | rd2 | wr | t | x
  deriving DecidableEq, Repr

/-- The format of each command (R44, R46). -/
def Instr.format : Instr → Format
  | .spiInit | .i2cInit => .p1
  | .spiDeinit | .spiSelect | .spiRelease | .i2cDeinit | .i2cStart | .i2cStop => .n
  | .spiRead => .rd1
  | .i2cRead => .rd2
  | .spiWrite | .i2cWrite => .wr
  | .spiTest | .i2cTest => .t
  | .nosuch _ => .x

/-- How many parameter bytes a format has (R44, R49). -/
def Format.paramCount : Format → Nat
  | .n | .t | .x => 0
  | .p1 | .rd1 | .wr => 1
  | .rd2 => 2

/-- How many bytes the host sends after the parameters in a complete frame: the payload, whose length is
the length parameter, or the two reply bytes of a link test (R49). -/
def Format.tailCount (f : Format) (params : List Byte) : Nat :=
  match f with
  | .wr => (params.headD 0).toNat
  | .t => 2
  | .n | .p1 | .rd1 | .rd2 | .x => 0

/-- The host's side of one frame as R52 writes it: the command, its parameter bytes, its payload or reply
bytes. -/
structure HostFrame where
  instr : Instr
  params : List Byte
  tail : List Byte
  deriving DecidableEq, Repr

/-- A complete frame: a well-formed command, as many parameter bytes as its format has, and as many payload
or reply bytes as the format and the length parameter say (R49). -/
def HostFrame.wf (f : HostFrame) : Bool :=
  f.instr.wf && f.params.length == f.instr.format.paramCount
    && f.tail.length == f.instr.format.tailCount f.params

/-- The bytes the host sends for a command: "the opcode of the mnemonic, then each parameter as one byte,
then the payload or reply bytes" (R52). -/
def encodeFrame (f : HostFrame) : List Byte := encode f.instr ++ f.params ++ f.tail

/-- Read one complete frame off a host byte stream by position and count alone (R41, R49). -/
def parseFrame (bs : List Byte) : Except DecodeError (HostFrame × List Byte) :=
  match decodeBytes bs with
  | .error e => .error e
  | .ok (i, rest) =>
    let np := i.format.paramCount
    if rest.length < np then .error .shortParams
    else
      let ps := rest.take np
      let rest1 := rest.drop np
      let nt := i.format.tailCount ps
      if rest1.length < nt then .error .shortTail
      else .ok (⟨i, ps, rest1.take nt⟩, rest1.drop nt)

/-- The bytes of a table word, first byte least significant, with every bit above `nbits` zero: three bytes,
the longest frame head (format `RD2`, R44). -/
def layoutWord (nbits w : Nat) : List Byte :=
  let v := w % 2 ^ nbits
  [BitVec.ofNat 8 v, BitVec.ofNat 8 (v / 256), BitVec.ofNat 8 (v / 65536)]

/-- The command the decoder reads from the bytes of a table word. -/
def decodeTableWord (nbits w : Nat) : Option Instr :=
  match decodeBytes (layoutWord nbits w) with
  | .ok (i, _) => some i
  | .error _ => none

end Sys2Proof
end

