-- ==== Sys2Proof/Machine/State.lean ====
section
/-! DEFINITION. The state of the block, its environment's pending answers and its interface trace, the
reasons a step can stop, and the state after reset (spec/10_state.md). -/

namespace Sys2Proof.Machine

open Sys2Proof

/-- The dispatcher state, the block's "program counter" (R15). -/
inductive Pc where
  | awaitOpcode | readParams | earlyEcho | payloadIn | execute | payloadOut | respond
  deriving DecidableEq, Repr

/-- The Engine status values (R17, R56). -/
inductive Status where
  | ok | timeout | unexpectedState | notAcked | seqError | configError
  deriving DecidableEq, Repr

/-- The result of a command, consumed by the result encoder (R17). -/
inductive Result where
  | success | opFailed | inputTimeout | invalidInput | noSuchCommand
  deriving DecidableEq, Repr

/-- The I2C speed classes 0, 1, 2 (R18, R45): standard, fast, low. -/
inductive SpeedClass where
  | standard | fast | low
  deriving DecidableEq, Repr

/-- The working latches of R14 and R17(a). They are dead between commands (R13). -/
structure Latches where
  op : Byte
  len : Byte
  flag : Bool
  idx : Nat
  polls : Nat
  st : Status
  deriving DecidableEq, Repr

/-- The values the I2C Bus Configuration State has while the bus is open (R18): `i2c_class`, `i2c_clk_hz`,
`i2c_timeout_us`. -/
structure I2cConfig where
  cls : SpeedClass
  clkHz : Nat
  timeoutUs : Nat
  deriving DecidableEq, Repr

/-- The value the SPI Bus Configuration State has while the bus is open (R20): `spi_div`. -/
structure SpiConfig where
  div : Byte
  deriving DecidableEq, Repr

/-- One interface operation, with the environment's answer where it has one (R10, R11, R12). -/
inductive Event where
  | trRead (n : Nat) (got : List Byte)
  | trWrite (bytes : List Byte)
  | phyInit (hz : Nat)
  | phyOff
  | phyStart
  | phyStop
  | phyLoad (b : Byte)
  | phyTxGo
  | phyRxGo (ack : Bool)
  | phyFlag (answer : Bool)
  | phyPhase (answer : Phase)
  | phyData (answer : Byte)
  | spiInit (div : Byte)
  | spiDeinit
  | spiSelect
  | spiRelease
  | spiRead (got : List Byte)
  | spiWrite (bytes : List Byte)
  deriving DecidableEq, Repr

/-- An interface operation and the dispatcher state it was issued in (R15, R39). -/
abbrev Entry := Pc × Event

/-- The environment's answers to the reads of one kind: those already fixed, in order, and how many free
values have been drawn beyond them (R28; assumption 3). -/
structure Answers (α : Type) where
  queue : List α
  drawn : Nat
  deriving DecidableEq, Repr

/-- The environment (R28): pending answers of the Transport, the PHY and the SPI Helper; the count of free
bytes a failed `readData` has left in the buffer (U2); the count of external resets applied, by which the free
contents of the buffer after each are told apart (R29); and the reset input (R117): `some k` when the platform
applies it after `k` more interface operations, `none` while it does not (assumption 24). -/
structure Env where
  host : Answers HostEvent
  flags : Answers Bool
  phases : Answers Phase
  data : Answers Byte
  spi : Answers Byte
  junk : Nat
  resets : Nat
  resetIn : Option Nat
  deriving DecidableEq, Repr

/-- The bytes of the Shared Scratch Buffer written since reset (R21, R31): index and byte, indices strictly
rising. An index that is not listed holds a free value, see `State.bufAt` (R29; assumption 6). -/
abbrev Memory := List Host.Cell

/-- The state: the implementation parameters, everything R13 lists, the environment's answers (R28), and
the interface operations issued so far, oldest first (R39). -/
structure State where
  params : Params
  pc : Pc
  latches : Latches
  i2c : Option I2cConfig
  spi : Option SpiConfig
  txCur : Nat
  rxCur : Nat
  buf : Memory
  env : Env
  trace : List Entry
  deriving DecidableEq, Repr

/-- Where a rule of the model has no value to go on with. No command run from a state that meets
`Machine.Inv` reaches one. -/
inductive Fault where
  /-- Raised by a buffer access at or above `BUF_CAP`: "a modelling fault that no rule reaches" (R32).
  Safe. -/
  | bufRange
  /-- Raised by an Engine operation that reads the I2C configuration while it has no value (R29, U6); the
  commands refuse before they reach one. Safe. -/
  | noConfigValue
  /-- Raised by `step`, unless the reset input is applied at once, in a state that is not between commands; every command ends between commands (R16).
  Safe. -/
  | notAwaitingOpcode
  deriving DecidableEq, Repr

/-- Commands without a meaning. -/
inductive Refusal where
  /-- Raised by `exec` for an instruction the model gives no meaning yet. Safe. -/
  | notModelled (mnemonic : String)
  /-- Raised by opcodes 22 to 25 on a closed I2C bus: "undefined at the hardware level"; "a model gives such
  a command no meaning (it refuses)" (R121, U1). Safe. -/
  | i2cBusClosed
  /-- Raised by opcodes 9 to 12 on a closed SPI bus (R121, U1). Safe. -/
  | spiBusClosed
  deriving DecidableEq, Repr

/-- What a command answers. -/
abbrev Out := Host.Outcome State Fault Refusal

/-- `i2c_open` (R18). -/
def State.i2cOpen (s : State) : Bool := s.i2c.isSome
/-- `i2c_class`, or no value (R18). -/
def State.i2cClass (s : State) : Option SpeedClass := s.i2c.map (·.cls)
/-- `i2c_clk_hz`, or no value (R18). -/
def State.i2cClkHz (s : State) : Option Nat := s.i2c.map (·.clkHz)
/-- `i2c_timeout_us`, or no value (R18). -/
def State.i2cTimeoutUs (s : State) : Option Nat := s.i2c.map (·.timeoutUs)
/-- `spi_open` (R20). -/
def State.spiOpen (s : State) : Bool := s.spi.isSome
/-- `spi_div`, or no value (R20). -/
def State.spiDiv (s : State) : Option Byte := s.spi.map (·.div)

/-- The latches after reset: the spec gives them no value (R29). DESIGN CHOICE: zero, false and OK,
assumption 8. -/
def Latches.reset : Latches := ⟨0, 0, false, 0, 0, .ok⟩

/-- No answer fixed and none drawn. -/
def Answers.reset {α : Type} : Answers α := ⟨[], 0⟩

/-- The environment after power-on: nothing is known of what it will answer (R29, R28), and the reset input
is not applied. -/
def Env.reset : Env := ⟨.reset, .reset, .reset, .reset, .reset, 0, 0, none⟩

/-- The block right after the reset applied at power-on (R29, R117, R118). The external reset input applied to
a running block is `resetBlock`. -/
def State.reset : State where
  params := Config.params
  pc := .awaitOpcode
  latches := .reset
  i2c := none
  spi := none
  txCur := 0
  rxCur := 0
  buf := []
  env := .reset
  trace := []

end Sys2Proof.Machine
end

