-- ==== Sys2Proof/Machine/Operands.lean ====
section
/-! DEFINITION. How parameter bytes are decoded and bounded (R7, R45), and the block's only arithmetic: the
timeout window and the poll budget (R57, R58). -/

namespace Sys2Proof.Machine

open Sys2Proof

/-- The largest length an I2C read or write accepts (R7). -/
def i2cMaxLen : Nat := 32

/-- The accepted SPI clock divisors (R7, R45). -/
def spiDivSet : List Byte := [2, 4, 8, 16, 32, 64, 128]

/-- The speed class a parameter byte names, if it is 0, 1 or 2 (R45, D4). -/
def speedClass? (p : Byte) : Option SpeedClass :=
  match p.toNat with
  | 0 => some .standard
  | 1 => some .fast
  | 2 => some .low
  | _ => none

/-- The number of a speed class (R18, R45). -/
def SpeedClass.byte : SpeedClass → Byte
  | .standard => 0
  | .fast => 1
  | .low => 2

/-- The bus clock of a speed class in hertz, `SPEED_HZ` (R7, D4). -/
def speedHz : SpeedClass → Nat
  | .standard => 100000
  | .fast => 400000
  | .low => 10000

/-- The NACK-on-last flag: non-zero is true (R45, D13). -/
def nackFlag (p : Byte) : Bool := p != 0

/-- The link-test pair, in this order (R7, R51). -/
def sentinel : List Byte := [0xA5, 0x5A]

/-- Bit times covered by one timeout window (R7). -/
def bitsPerTransfer : Nat := 50

/-- Most internal-address bytes `requestFrom` sends (R7). -/
def iaddrMax : Nat := 3

/-- `ceil(a / b)` on positive naturals (R57). -/
def ceilDiv (a b : Nat) : Nat := (a + b - 1) / b

/-- `i2c_timeout_us` for a bus clock (R57). -/
def timeoutWindow (hz : Nat) : Nat := ceilDiv (bitsPerTransfer * 1000000) hz

/-- The poll budget: how many completion-flag reads one polling loop may make (R58). -/
def pollBudget (timeoutUs pollDelayUs : Nat) : Nat := ceilDiv timeoutUs pollDelayUs

/-- A 7-bit device address with its direction bit, `address * 2 + rw` (R67, R68; PRESUMED, from general
knowledge as the spec marks it, G1; assumption 22). -/
def addressByte (address : BitVec 7) (read : Bool) : Byte :=
  BitVec.ofNat 8 (address.toNat * 2 + (if read then 1 else 0))

/-- The `isz` internal-address bytes, most significant first: `(iaddr div 256^(isz - j)) mod 256` for `j` from
1 to `isz` (R33, R67). -/
def iaddrBytes (iaddr : BitVec 24) (isz : Nat) : List Byte :=
  (List.range isz).map fun j => BitVec.ofNat 8 (iaddr.toNat / 256 ^ (isz - (j + 1)))

end Sys2Proof.Machine
end

