-- ==== Sys2Proof/Machine/Flags.lean ====
section
/-! DEFINITION. Everything the block computes as a condition: which phases each operation accepts (R24), how
an Engine status becomes a command result (R79, R101), and how a result is encoded on the wire (R47). -/

namespace Sys2Proof.Machine

open Sys2Proof

/-- The phases `sendStart` accepts (R61). -/
def startAccepted (p : Phase) : Bool := p == .startSent || p == .repStartSent

/-- The phases the precondition of `readData` accepts (R65). -/
def readReady (p : Phase) : Bool := p == .addrRAcked || p == .dataRAcked

/-- The phases `readByte` accepts after a completion (R64). -/
def byteAccepted (p : Phase) : Bool := p == .dataRAcked || p == .dataRNacked

/-- The acknowledged phases of `writeData`; `ADDR_R_ACKED` is not one (R66, D11). -/
def writeAcked (p : Phase) : Bool := p == .addrWAcked || p == .dataWAcked

/-- The command result an Engine status stands for (R79, R101). -/
def Result.ofStatus : Status → Result
  | .ok => .success
  | .timeout | .unexpectedState | .notAcked | .seqError => .opFailed
  | .configError => .invalidInput

/-- The terminating byte of a frame: the echoed opcode, or 97, 98, 99, 100 (R7, R47). -/
def encodeResult (op : Byte) : Result → Byte
  | .success => op
  | .opFailed => 97
  | .inputTimeout => 98
  | .invalidInput => 99
  | .noSuchCommand => 100

end Sys2Proof.Machine
end

