-- ==== Sys2Proof/Machine/Ops.lean ====
section
/-! DEFINITION. The named operations over the state: the buffer (R31, R32), the latches (R14), the interface
operations (R10, R11, R12), the six payload transfers (R42), the opcode fetch (R73), the frame's early echo,
its end and the error entry (R50, R79, R105). -/

namespace Sys2Proof.Machine

open Sys2Proof

/-! ### The environment's answers -/

namespace Answers

/-- The next answer and what is left: a listed answer while there is one, then a free value. -/
def next {α : Type} (free : Nat → α) (a : Answers α) : α × Answers α :=
  match a.queue with
  | x :: rest => (x, ⟨rest, a.drawn⟩)
  | [] => (free a.drawn, ⟨[], a.drawn + 1⟩)

/-- The answer to the read made after `k` others. -/
def peek {α : Type} (free : Nat → α) (a : Answers α) (k : Nat) : α :=
  match a.queue[k]? with
  | some x => x
  | none => free (a.drawn + (k - a.queue.length))

/-- What is left after `k` reads. -/
def skip {α : Type} (a : Answers α) (k : Nat) : Answers α :=
  ⟨a.queue.drop k, a.drawn + (k - a.queue.length)⟩

end Answers

/-! ### The Shared Scratch Buffer -/

namespace Memory

/-- The canonical form: indices strictly rising. -/
abbrev wf (m : Memory) : Prop := (m.map Prod.fst).Pairwise (· < ·)

/-- The byte last written to an index since reset, if any was. -/
def read : Memory → Nat → Option Byte
  | [], _ => none
  | (b, w) :: m, a => if a = b then some w else read m a

/-- Store one byte, keeping the canonical form. -/
def write : Memory → Nat → Byte → Memory
  | [], a, v => [(a, v)]
  | (b, w) :: m, a, v =>
    if a < b then (a, v) :: (b, w) :: m
    else if a = b then (a, v) :: m
    else (b, w) :: write m a v

/-- Store the bytes of a sequence from an index on, in ascending order (R32). -/
def writeRun : Memory → Nat → List Byte → Memory
  | m, _, [] => m
  | m, a, v :: vs => writeRun (write m a v) (a + 1) vs

end Memory

namespace State

/-! ### Setting one element -/

def setPc (p : Pc) (s : State) : State := { s with pc := p }
def setOp (b : Byte) (s : State) : State := { s with latches := { s.latches with op := b } }
def setLen (b : Byte) (s : State) : State := { s with latches := { s.latches with len := b } }
def setFlag (b : Bool) (s : State) : State := { s with latches := { s.latches with flag := b } }
def setIdx (n : Nat) (s : State) : State := { s with latches := { s.latches with idx := n } }
def setPolls (n : Nat) (s : State) : State := { s with latches := { s.latches with polls := n } }
def setSt (x : Status) (s : State) : State := { s with latches := { s.latches with st := x } }
def setI2c (c : Option I2cConfig) (s : State) : State := { s with i2c := c }
def setSpi (c : Option SpiConfig) (s : State) : State := { s with spi := c }
def setTxCur (n : Nat) (s : State) : State := { s with txCur := n }
def setRxCur (n : Nat) (s : State) : State := { s with rxCur := n }
def setBuf (m : Memory) (s : State) : State := { s with buf := m }
def setHost (a : Answers HostEvent) (s : State) : State := { s with env := { s.env with host := a } }
def setFlags (a : Answers Bool) (s : State) : State := { s with env := { s.env with flags := a } }
def setPhases (a : Answers Phase) (s : State) : State := { s with env := { s.env with phases := a } }
def setData (a : Answers Byte) (s : State) : State := { s with env := { s.env with data := a } }
def setSpiIn (a : Answers Byte) (s : State) : State := { s with env := { s.env with spi := a } }
def setResetIn (k : Option Nat) (s : State) : State := { s with env := { s.env with resetIn := k } }
def setJunk (n : Nat) (s : State) : State := { s with env := { s.env with junk := n } }

/-- Record an interface operation with the dispatcher state it is issued in (R39). -/
def emit (e : Event) (s : State) : State := { s with trace := s.trace ++ [(s.pc, e)] }

end State

open State

/-! ### Transport (R10) -/

/-- Read up to `n` bytes: the bytes that arrive before a read timeout elapses. A read of 0 bytes asks
nothing of the environment. -/
def hostRun : Nat → Answers HostEvent → List Byte × Answers HostEvent
  | 0, a => ([], a)
  | n + 1, a =>
    match a.next Config.freeHost with
    | (.byte b, a') => ((b :: (hostRun n a').1), (hostRun n a').2)
    | (.timeout, a') => ([], a')

/-- `TrRead(n)`: the bytes that arrived, consumed (R10). -/
def trRead (n : Nat) (s : State) : List Byte × State :=
  let r := hostRun n s.env.host
  (r.1, (s.setHost r.2).emit (.trRead n r.1))

/-- `TrWrite(s)`: always completes (R10, D27; assumption 14). -/
def trWrite (bytes : List Byte) (s : State) : State := s.emit (.trWrite bytes)

/-! ### PHY (R11) -/

def phyInit (hz : Nat) (s : State) : State := s.emit (.phyInit hz)
def phyOff (s : State) : State := s.emit .phyOff
def phyStart (s : State) : State := s.emit .phyStart
def phyStop (s : State) : State := s.emit .phyStop
def phyLoad (b : Byte) (s : State) : State := s.emit (.phyLoad b)
def phyTxGo (s : State) : State := s.emit .phyTxGo
def phyRxGo (ack : Bool) (s : State) : State := s.emit (.phyRxGo ack)

/-- `PhyFlag()`: a fresh read of the completion flag (R24, R26). -/
def phyFlag (s : State) : Bool × State :=
  let r := s.env.flags.next Config.freeFlag
  (r.1, (s.setFlags r.2).emit (.phyFlag r.1))

/-- `PhyPhase()`: a fresh read of the phase (R24, R26). -/
def phyPhase (s : State) : Phase × State :=
  let r := s.env.phases.next Config.freePhase
  (r.1, (s.setPhases r.2).emit (.phyPhase r.1))

/-- `PhyData()`: the byte last received (R25). -/
def phyData (s : State) : Byte × State :=
  let r := s.env.data.next Config.freeData
  (r.1, (s.setData r.2).emit (.phyData r.1))

/-! ### SPI Helper (R12) -/

def spiInit (div : Byte) (s : State) : State := s.emit (.spiInit div)
def spiDeinit (s : State) : State := s.emit .spiDeinit
def spiSelect (s : State) : State := s.emit .spiSelect
def spiRelease (s : State) : State := s.emit .spiRelease
def spiWrite (bytes : List Byte) (s : State) : State := s.emit (.spiWrite bytes)

/-- `n` bytes received on the SPI bus. -/
def spiRun : Nat → Answers Byte → List Byte × Answers Byte
  | 0, a => ([], a)
  | n + 1, a =>
    let r := a.next Config.freeSpi
    (r.1 :: (spiRun n r.2).1, (spiRun n r.2).2)

/-- `SpiRead(n)`: `n` exchanges, the received bytes the environment's answer (R12). -/
def spiRead (n : Nat) (s : State) : List Byte × State :=
  let r := spiRun n s.env.spi
  (r.1, (s.setSpiIn r.2).emit (.spiRead r.1))

/-! ### Buffer access (R32) and the six payload transfers (R42) -/

/-- `MemWrite(addr, |v|, v)` (R32). -/
def memWrite (addr : Nat) (v : List Byte) (s : State) : Except Fault State :=
  if addr + v.length ≤ s.params.bufCap then .ok (s.setBuf (s.buf.writeRun addr v))
  else .error .bufRange

/-- The byte a buffer index holds: the one last written, or a free value if nothing has written it since the
last reset (R21, R29; assumption 6). -/
def State.bufAt (s : State) (i : Nat) : Byte :=
  match s.buf.read i with
  | some v => v
  | none => Config.freeBuf s.env.resets i

/-- `MemRead(addr, n)`: the bytes of the run in ascending order (R32). -/
def memRead (addr n : Nat) (s : State) : Except Fault (List Byte) :=
  if addr + n ≤ s.params.bufCap then .ok ((List.range n).map fun k => s.bufAt (addr + k))
  else .error .bufRange

/-- `buf[idx]`, one byte (R35). -/
def bufLoad (idx : Nat) (s : State) : Except Fault Byte :=
  if idx < s.params.bufCap then .ok (s.bufAt idx) else .error .bufRange

/-- `buf[idx] <- b`, one byte (R35). -/
def bufStore (idx : Nat) (b : Byte) (s : State) : Except Fault State := memWrite idx [b] s

/-- Bytes from the Transport or the SPI bus into the buffer from index 0 (R42). -/
def payloadToBuf (v : List Byte) (s : State) : Except Fault State :=
  (memWrite 0 v s).map (setIdx v.length)

/-- The first `n` bytes of the buffer to the Transport (R42). -/
def bufToHost (n : Nat) (s : State) : Except Fault State :=
  (memRead 0 n s).map fun v => trWrite v (s.setIdx n)

/-- The first `n` bytes of the buffer to the SPI bus (R42). -/
def bufToSpi (n : Nat) (s : State) : Except Fault State :=
  (memRead 0 n s).map fun v => spiWrite v (s.setIdx n)

/-- `n` bytes of no known value, and the state that has drawn them (U2; assumption 7). -/
def junkBytes (n : Nat) (s : State) : List Byte :=
  (List.range n).map fun i => Config.freeJunk (s.env.junk + i)

/-- Leave `buf[0..n-1]` with unspecified contents: what a failed `readData` does to its destination (R65,
U2). -/
def scramble (n : Nat) (s : State) : Except Fault State :=
  memWrite 0 (junkBytes n s) (s.setJunk (s.env.junk + n))

/-! ### Frame elements (R50, R73, R79, R105) -/

/-- The opcode fetch: `TrRead(1)` at `AWAIT_OPCODE`, the byte into `op`; no byte, no command (R73). -/
def fetchOpcode (s : State) : Option Byte × State :=
  match trRead 1 s with
  | ([b], s1) => (some b, s1.setOp b)
  | (_, s1) => (none, s1)

/-- The early echo (R50, R75). -/
def earlyEcho (op : Byte) (s : State) : State := trWrite [op] (s.setPc .earlyEcho)

/-- End the frame: write the one terminating byte and await the next opcode (R79, R80). -/
def respond (op : Byte) (r : Result) (s : State) : State :=
  (trWrite [encodeResult op r] (s.setPc .respond)).setPc .awaitOpcode

/-- `respond_ok(op)`: the final success echo (R9, R79). -/
def respondOk (op : Byte) (s : State) : State := respond op .success s

/-- Error entry, `raise E`: the code byte is written, `pc` goes to `AWAIT_OPCODE`, the command ends; nothing
is saved (R9, R105). There is no return from it: the next fetch follows (R107). -/
def raise (op : Byte) (e : Result) (s : State) : State := respond op e s

/-- End a command with the state of an operation, or stop where the operation had no value to go on with. -/
def finish (r : Except Fault State) (k : State → Out) : Out :=
  match r with
  | .error f => .fault f
  | .ok s => k s

/-- One parameter byte at `READ_PARAMS`; a short read raises `InputTimeout` (R75, R76). -/
def takeParam (op : Byte) (s : State) (k : Byte → State → Out) : Out :=
  match trRead 1 (s.setPc .readParams) with
  | ([p], s1) => k p s1
  | (_, s1) => .next (raise op .inputTimeout s1)

/-- Two parameter bytes in one read at `READ_PARAMS` (format `RD2`, R75, R76). -/
def takeParams2 (op : Byte) (s : State) (k : Byte → Byte → State → Out) : Out :=
  match trRead 2 (s.setPc .readParams) with
  | ([p, q], s1) => k p q s1
  | (_, s1) => .next (raise op .inputTimeout s1)

/-- Length validation: a declared length over the bound raises `InvalidInput` before the early echo and
before any bus operation (R77). The comparison is unsigned on the byte. -/
def checkLen (op : Byte) (bound : Nat) (s : State) (k : State → Out) : Out :=
  if bound < s.latches.len.toNat then .next (raise op .invalidInput s) else k s

/-- The declared payload at `PAYLOAD_IN`, into the buffer; a short read raises `InputTimeout` and stores
nothing (R42, R75, R76). -/
def takePayload (op : Byte) (n : Nat) (s : State) (k : State → Out) : Out :=
  let r := trRead n (s.setPc .payloadIn)
  if r.1.length < n then .next (raise op .inputTimeout r.2)
  else finish (payloadToBuf r.1 r.2) k

/-! ### The external reset (R117, R118) -/

/-- The environment once an interface operation has taken its answer: the host bytes and, after a short read,
the read timeout; one answer of the PHY; the bytes of the SPI exchange (R10, R11, R12). -/
def Env.took (e : Env) : Event → Env
  | .trRead n got => { e with host := e.host.skip (got.length + if got.length < n then 1 else 0) }
  | .phyFlag _ => { e with flags := e.flags.skip 1 }
  | .phyPhase _ => { e with phases := e.phases.skip 1 }
  | .phyData _ => { e with data := e.data.skip 1 }
  | .spiRead got => { e with spi := e.spi.skip got.length }
  | .trWrite _ | .phyInit _ | .phyOff | .phyStart | .phyStop | .phyLoad _ | .phyTxGo | .phyRxGo _ => e
  | .spiInit _ | .spiDeinit | .spiSelect | .spiRelease | .spiWrite _ => e

/-- The external reset applied to a running block (R117): every element of R13 as after power-on, the buffer's
contents free anew, no interface operation (R118). The parameters, the host bytes waiting in the Transport and
the rest of the environment stay (R28). -/
def resetBlock (s : State) : State :=
  { s with
    pc := .awaitOpcode
    latches := .reset
    i2c := none
    spi := none
    txCur := 0
    rxCur := 0
    buf := []
    env := { s.env with resets := s.env.resets + 1, resetIn := none } }

/-- The external reset applied when a command that began in `s` has issued just these operations; `junk` counts
the free bytes used up so far (assumption 24). -/
def resetAfter (ops : List Entry) (junk : Nat) (s : State) : State :=
  resetBlock { s with
    trace := s.trace ++ ops
    env := { (ops.map Prod.snd).foldl Env.took s.env with junk := junk } }

/-! ### Open buses -/

/-- A command of the I2C bus has a meaning only while the bus is open (R121, U1; assumption 9). -/
def onOpenI2c (s : State) (k : Out) : Out :=
  if s.i2cOpen then k else .refused .i2cBusClosed

/-- A command of the SPI bus has a meaning only while the bus is open (R121, U1; assumption 9). -/
def onOpenSpi (s : State) (k : Out) : Out :=
  if s.spiOpen then k else .refused .spiBusClosed

end Sys2Proof.Machine
end

