-- ==== Sys2Proof/Machine/Engine.lean ====
section
/-! DEFINITION. The operations of the I2C Master Engine (spec/40_i2c_engine.md). Each leaves its status in
the latch `st`; an operation that reads the I2C configuration while the bus is closed has no value to go on
with and faults (R29, U6). -/

namespace Sys2Proof.Machine

open Sys2Proof State

/-- What the polling loop answers (R58). -/
inductive Poll where
  | done | expired
  deriving DecidableEq, Repr

/-- The polling loop with `n` flag reads left: test, then delay; `polls` counts the delays (R58, D3). -/
def pollLoop : Nat → State → Poll × State
  | 0, s => (.expired, s)
  | n + 1, s =>
    match phyFlag s with
    | (true, s1) => (.done, s1)
    | (false, s1) => pollLoop n (s1.setPolls (s1.latches.polls + 1))

/-- `PollFlag()` (R58). -/
def pollFlag (s : State) : Except Fault (Poll × State) :=
  match s.i2c with
  | none => .error .noConfigValue
  | some c => .ok (pollLoop (pollBudget c.timeoutUs s.params.pollDelayUs) (s.setPolls 0))

/-- `configure(speedClass)` (R59). -/
def configure (c : Byte) (s : State) : State :=
  match speedClass? c with
  | none => s.setSt .configError
  | some k =>
    let s1 := phyInit (speedHz k) (s.setI2c (some ⟨k, speedHz k, timeoutWindow (speedHz k)⟩))
    ((s1.setTxCur 0).setRxCur 0).setSt .ok

/-- `shutdown()` (R60). -/
def shutdown (s : State) : State := (phyOff s).setI2c none

/-- The self-healing step: `configure` with the class of the last successful one (R62, D28). -/
def recoverBus (s : State) : Except Fault State :=
  match s.i2c with
  | none => .error .noConfigValue
  | some c => .ok (configure c.cls.byte s)

/-- `sendStart()` after the recovery test: assert START, poll, test the phase (R61). -/
def startAndPoll (s : State) : Except Fault State :=
  match pollFlag (phyStart s) with
  | .error f => .error f
  | .ok (.expired, s1) => .ok (s1.setSt .timeout)
  | .ok (.done, s1) =>
    let r := phyPhase s1
    .ok (r.2.setSt (if startAccepted r.1 then .ok else .unexpectedState))

/-- `sendStart()` (R61, R62). -/
def sendStart (s : State) : Except Fault State :=
  let r := phyPhase s
  if r.1 = .idleError then
    match recoverBus r.2 with
    | .error f => .error f
    | .ok s1 => startAndPoll s1
  else startAndPoll r.2

/-- `sendStop()`: no poll, no test, always OK (R63). -/
def sendStop (s : State) : State := (phyStop s).setSt .ok

/-- `readByte(nack)` (R64): the byte if one was accepted; `st` says what became of it. -/
def readByte (nack : Bool) (s : State) : Except Fault (Option Byte × State) :=
  match pollFlag (phyRxGo (!nack) s) with
  | .error f => .error f
  | .ok (.expired, s1) => .ok (none, s1.setSt .timeout)
  | .ok (.done, s1) =>
    let r := phyPhase s1
    if byteAccepted r.1 then
      let d := phyData r.2
      .ok (some d.1, d.2.setSt .ok)
    else .ok (none, r.2.setSt .unexpectedState)

/-- The byte loop of `readData` with `n` bytes left, the next one at index `idx` (R65). -/
def readLoop (nackLast : Bool) : Nat → Nat → State → Except Fault State
  | 0, _, s => .ok (s.setSt .ok)
  | n + 1, idx, s =>
    match readByte (n == 0 && nackLast) (s.setIdx idx) with
    | .error f => .error f
    | .ok (none, s1) => .ok s1
    | .ok (some b, s1) =>
      match bufStore idx b s1 with
      | .error f => .error f
      | .ok s2 => readLoop nackLast n (idx + 1) s2

/-- `readData(count, nackLast)` (R65): the precondition once, then the bytes; after any failure
`buf[0..count-1]` has unspecified contents (U2). -/
def readData (count : Nat) (nackLast : Bool) (s : State) : Except Fault State :=
  let r := phyPhase s
  if readReady r.1 then
    match readLoop nackLast count 0 r.2 with
    | .error f => .error f
    | .ok s1 => if s1.latches.st = .ok then .ok s1 else scramble count s1
  else scramble count (r.2.setSt .seqError)

/-- Send one byte already chosen: load, trigger, poll; `true` and the phase read when it completed (R66,
R68). -/
def sendByte (b : Byte) (s : State) : Except Fault (Option Phase × State) :=
  match pollFlag (phyTxGo (phyLoad b s)) with
  | .error f => .error f
  | .ok (.expired, s1) => .ok (none, s1.setSt .timeout)
  | .ok (.done, s1) =>
    let r := phyPhase s1
    .ok (some r.1, r.2)

/-- The byte loop of `writeData` with `n` bytes left, the next one at index `idx` (R66). -/
def writeLoop : Nat → Nat → State → Except Fault State
  | 0, _, s => .ok (s.setSt .ok)
  | n + 1, idx, s =>
    match bufLoad idx s with
    | .error f => .error f
    | .ok b =>
      match sendByte b (s.setIdx idx) with
      | .error f => .error f
      | .ok (none, s1) => .ok s1
      | .ok (some p, s1) =>
        if writeAcked p then writeLoop n (idx + 1) s1 else .ok (s1.setSt .notAcked)

/-- `writeData(count)` (R66). -/
def writeData (count : Nat) (s : State) : Except Fault State := writeLoop count 0 s

/-- `sendAddressRead(address)` (R68). -/
def sendAddressRead (address : BitVec 7) (s : State) : Except Fault State :=
  match sendByte (addressByte address true) s with
  | .error f => .error f
  | .ok (none, s1) => .ok s1
  | .ok (some p, s1) => .ok (s1.setSt (if p = .addrRAcked then .ok else .notAcked))

/-- The byte loop of `requestFrom` with `m` bytes left, the next one at index `idx`: the count of bytes
retrieved; the final byte is always NACKed (R67). -/
def requestLoop : Nat → Nat → State → Except Fault (Nat × State)
  | 0, idx, s => .ok (idx, s)
  | m + 1, idx, s =>
    match readByte (m == 0) (s.setIdx idx) with
    | .error f => .error f
    | .ok (none, s1) => .ok (idx, s1)
    | .ok (some b, s1) =>
      match bufStore idx b s1 with
      | .error f => .error f
      | .ok s2 => requestLoop m (idx + 1) s2

/-- The write phase of `requestFrom` for `isize` internal-address bytes (R67); `st` says how it ended. -/
def requestWritePhase (address : BitVec 7) (iaddr : BitVec 24) (isize : Nat) (s : State) :
    Except Fault State :=
  let isz := min isize iaddrMax
  match sendStart s with
  | .error f => .error f
  | .ok s1 =>
    if s1.latches.st = .ok then
      match memWrite 0 (addressByte address false :: iaddrBytes iaddr isz) s1 with
      | .error f => .error f
      | .ok s2 => writeData (isz + 1) (s2.setTxCur (isz + 1))
    else .ok s1

/-- The read phase of `requestFrom` (R67): START, address step, the bytes, and the optional STOP only after
all of them arrived. -/
def requestReadPhase (address : BitVec 7) (q : Nat) (sendStopAfter : Bool) (s : State) :
    Except Fault (Nat × State) :=
  match sendStart s with
  | .error f => .error f
  | .ok s1 =>
    if s1.latches.st = .ok then
      match sendAddressRead address s1 with
      | .error f => .error f
      | .ok s2 =>
        if s2.latches.st = .ok then
          match requestLoop q 0 s2 with
          | .error f => .error f
          | .ok (n, s3) =>
            let s4 := s3.setRxCur n
            .ok (n, if n = q && sendStopAfter then sendStop s4 else s4)
        else .ok (0, s2)
    else .ok (0, s1)

/-- `requestFrom(address, quantity, iaddr, isize, sendStopAfter)` (R67): the count of bytes retrieved, its only
result. DESIGN CHOICE: the latch `st` then holds the status of the last operation run inside it (assumption 8). -/
def requestFrom (address : BitVec 7) (quantity : Nat) (iaddr : BitVec 24) (isize : Nat)
    (sendStopAfter : Bool) (s : State) : Except Fault (Nat × State) :=
  let q := min quantity s.params.bufCap
  if isize = 0 then requestReadPhase address q sendStopAfter s
  else
    match requestWritePhase address iaddr isize s with
    | .error f => .error f
    | .ok s1 =>
      if s1.latches.st = .ok then requestReadPhase address q sendStopAfter s1 else .ok (0, s1)

end Sys2Proof.Machine
end

