-- ==== Sys2Proof/Machine/Common.lean ====
section
/-! DEFINITION. The Dispatcher's own handlers: the link-test procedure shared by opcodes 13 and 28 (R82) and
the handler of unknown opcodes (R81). -/

namespace Sys2Proof.Machine

open Sys2Proof State

/-- `LinkTest(op)`: the sentinels out, two reply bytes in, both read before either is compared (R82, D26).
The `pc` values are the model's choice (assumption 11). -/
def linkTest (op : Byte) (s : State) : Out :=
  match trRead 2 ((trWrite sentinel (s.setPc .payloadOut)).setPc .payloadIn) with
  | ([t0, t1], s1) =>
    if [t0, t1] = sentinel then .next (respondOk op s1) else .next (raise op .invalidInput s1)
  | (_, s1) => .next (raise op .inputTimeout s1)

/-- `NOSUCH` (R81): the response 100 and no other effect. -/
def execNosuch (op : Byte) (s : State) : Out := .next (raise op .noSuchCommand s)

end Sys2Proof.Machine
end

