-- ==== Sys2Proof/Machine/I2c.lean ====
section
/-! DEFINITION. The I2C-domain commands, opcodes 20 to 25 and 28 (spec/43_i2c_commands.md). -/

namespace Sys2Proof.Machine

open Sys2Proof State

/-- The end of a command that ran an Engine operation: the result its status stands for (R79, R101). -/
def respondStatus (op : Byte) (s : State) : State :=
  respond op (Result.ofStatus s.latches.st) s

/-- `I2C_INIT` (R92): a rejected class changes nothing (D16). -/
def execI2cInit (s : State) : Out :=
  let op := Instr.i2cInit.opcode
  takeParam op s fun p s1 =>
    match speedClass? p with
    | none => .next (raise op .invalidInput s1)
    | some _ => .next (respondOk op (configure p (s1.setPc .execute)))

/-- `I2C_DEINIT` (R93): also on a closed bus (D17). -/
def execI2cDeinit (s : State) : Out :=
  .next (respondOk Instr.i2cDeinit.opcode (shutdown (s.setPc .execute)))

/-- `I2C_READ` (R94): after a passed validation the `len` payload bytes are written whatever `st` is
(D12). -/
def execI2cRead (s : State) : Out :=
  let op := Instr.i2cRead.opcode
  onOpenI2c s <| takeParams2 op s fun n nack s1 =>
    checkLen op i2cMaxLen ((s1.setLen n).setFlag (nackFlag nack)) fun s2 =>
      finish (readData s2.latches.len.toNat s2.latches.flag ((earlyEcho op s2).setPc .execute))
        fun s3 =>
          finish (bufToHost s3.latches.len.toNat (s3.setPc .payloadOut)) fun s4 =>
            .next (respondStatus op s4)

/-- `I2C_WRITE` (R95). -/
def execI2cWrite (s : State) : Out :=
  let op := Instr.i2cWrite.opcode
  onOpenI2c s <| takeParam op s fun n s1 =>
    checkLen op i2cMaxLen (s1.setLen n) fun s2 =>
      takePayload op s2.latches.len.toNat (earlyEcho op s2) fun s3 =>
        finish (writeData s3.latches.len.toNat (s3.setPc .execute)) fun s4 =>
          .next (respondStatus op s4)

/-- `I2C_START` (R96). -/
def execI2cStart (s : State) : Out :=
  onOpenI2c s <| finish (sendStart (s.setPc .execute)) fun s1 =>
    .next (respondStatus Instr.i2cStart.opcode s1)

/-- `I2C_STOP` (R97). -/
def execI2cStop (s : State) : Out :=
  onOpenI2c s (.next (respondOk Instr.i2cStop.opcode (sendStop (s.setPc .execute))))

/-- `I2C_TEST` (R98). -/
def execI2cTest (s : State) : Out := linkTest Instr.i2cTest.opcode s

end Sys2Proof.Machine
end

