-- ==== Sys2Proof/Machine/Spi.lean ====
section
/-! DEFINITION. The SPI-domain commands, opcodes 7 to 13 (spec/42_spi_commands.md). -/

namespace Sys2Proof.Machine

open Sys2Proof State

/-- `SPI_INIT` (R85). -/
def execSpiInit (s : State) : Out :=
  let op := Instr.spiInit.opcode
  takeParam op s fun p s1 =>
    if spiDivSet.contains p then
      .next (respondOk op ((spiInit p (s1.setPc .execute)).setSpi (some ⟨p⟩)))
    else .next (raise op .invalidInput s1)

/-- `SPI_DEINIT` (R86): also on a closed bus (D17). -/
def execSpiDeinit (s : State) : Out :=
  .next (respondOk Instr.spiDeinit.opcode ((spiDeinit (s.setPc .execute)).setSpi none))

/-- `SPI_SELECT` (R87). -/
def execSpiSelect (s : State) : Out :=
  onOpenSpi s (.next (respondOk Instr.spiSelect.opcode (spiSelect (s.setPc .execute))))

/-- `SPI_RELEASE` (R88). -/
def execSpiRelease (s : State) : Out :=
  onOpenSpi s (.next (respondOk Instr.spiRelease.opcode (spiRelease (s.setPc .execute))))

/-- `SPI_READ` (R89): after the early echo it cannot fail. -/
def execSpiRead (s : State) : Out :=
  let op := Instr.spiRead.opcode
  onOpenSpi s <| takeParam op s fun n s1 =>
    checkLen op s1.params.bufCap (s1.setLen n) fun s2 =>
      let r := spiRead s2.latches.len.toNat ((earlyEcho op s2).setPc .execute)
      finish (payloadToBuf r.1 r.2) fun s3 =>
        finish (bufToHost s3.latches.len.toNat (s3.setPc .payloadOut)) fun s4 =>
          .next (respondOk op s4)

/-- `SPI_WRITE` (R90). -/
def execSpiWrite (s : State) : Out :=
  let op := Instr.spiWrite.opcode
  onOpenSpi s <| takeParam op s fun n s1 =>
    checkLen op s1.params.bufCap (s1.setLen n) fun s2 =>
      takePayload op s2.latches.len.toNat (earlyEcho op s2) fun s3 =>
        finish (bufToSpi s3.latches.len.toNat (s3.setPc .execute)) fun s4 =>
          .next (respondOk op s4)

/-- `SPI_TEST` (R91). -/
def execSpiTest (s : State) : Out := linkTest Instr.spiTest.opcode s

end Sys2Proof.Machine
end

