-- ==== Sys2Proof/Machine/Dispatch.lean ====
section
/-! DEFINITION. The dispatch of a decoded command to its handler (R74): one arm per constructor. -/

namespace Sys2Proof.Machine

open Sys2Proof

def exec (i : Instr) (s : State) : Host.Outcome State Fault Refusal :=
  match i with
  | .spiInit => Sys2Proof.Machine.execSpiInit s
  | .spiDeinit => Sys2Proof.Machine.execSpiDeinit s
  | .spiSelect => Sys2Proof.Machine.execSpiSelect s
  | .spiRelease => Sys2Proof.Machine.execSpiRelease s
  | .spiRead => Sys2Proof.Machine.execSpiRead s
  | .spiWrite => Sys2Proof.Machine.execSpiWrite s
  | .spiTest => Sys2Proof.Machine.execSpiTest s
  | .i2cInit => Sys2Proof.Machine.execI2cInit s
  | .i2cDeinit => Sys2Proof.Machine.execI2cDeinit s
  | .i2cRead => Sys2Proof.Machine.execI2cRead s
  | .i2cWrite => Sys2Proof.Machine.execI2cWrite s
  | .i2cStart => Sys2Proof.Machine.execI2cStart s
  | .i2cStop => Sys2Proof.Machine.execI2cStop s
  | .i2cTest => Sys2Proof.Machine.execI2cTest s
  | .nosuch op => Sys2Proof.Machine.execNosuch op s

end Sys2Proof.Machine
end

