-- ==== Sys2Proof/Machine/Run.lean ====
section
/-! DEFINITION. What one step runs: one command, and one command that the external reset may cut short. -/

namespace Sys2Proof.Machine

open Sys2Proof State

/-- Fetch at `AWAIT_OPCODE`; no byte, no command and no response (R73); else decode and run the handler to
its end (R72, R74). -/
def runCommand (s : State) : Out :=
  if s.pc = .awaitOpcode then
    match fetchOpcode s with
    | (none, s1) => .next s1
    | (some b, s1) => exec (decode b) s1
  else .fault .notAwaitingOpcode

/-- One command with the reset input applied after `j` more operations: if the command issues more than `j`,
the reset cuts it short after those; else the command ends and the rest is still to come (R117; assumption
24). -/
def runCommandUnderReset (j : Nat) (s : State) : Out :=
  match runCommand (s.setResetIn none) with
  | .fault f => .fault f
  | .refused r => .refused r
  | .next t =>
    let ops := t.trace.drop s.trace.length
    if j < ops.length then .next (resetAfter (ops.take j) t.env.junk s)
    else .next (t.setResetIn (some (j - ops.length)))

end Sys2Proof.Machine
end

