-- ==== Sys2Proof/Machine/Step.lean ====
section
/-! DEFINITION. One step of the block: one opcode fetch and the whole command it starts (R6, R72, R73), or the
external reset (R117). -/

namespace Sys2Proof.Machine

open Sys2Proof

/-- One command (R6, R72; assumption 10), unless the reset input is applied at once (R117) or may cut the
command short (assumption 24). -/
def step (s : State) : Host.Outcome State Fault Refusal :=
  match s.env.resetIn with
  | none => runCommand s
  | some 0 => .next (resetBlock s)
  | some (j + 1) => runCommandUnderReset (j + 1) s

/-- The same state about to fetch the bytes of a table word: between commands, with those bytes first in the
Transport's queue and the reset input not applied. It stands for the host sending them (assumption 16). -/
def State.withFetchWord (s : State) (nbits w : Nat) : State :=
  { s with
    pc := .awaitOpcode
    env := { s.env with
      resetIn := none
      host := { s.env.host with
        queue := (layoutWord nbits w).map HostEvent.byte ++ s.env.host.queue } } }

end Sys2Proof.Machine
end

