-- ==== Sys2Proof/Safety.lean ====
section
/-! DEFINITION. The terms claims are stated in: what the environment will answer next, what a frame did to
the interfaces, and the invariant of every run. -/

namespace Sys2Proof.Machine

open Sys2Proof

namespace State

/-! ### What the environment answers next (R28) -/

/-- What the Transport meets in the host's direction after `k` other answers. -/
abbrev hostAt (s : State) (k : Nat) : HostEvent := s.env.host.peek Config.freeHost k
/-- The answer to the `PhyFlag()` issued after `k` others. -/
abbrev flagAt (s : State) (k : Nat) : Bool := s.env.flags.peek Config.freeFlag k
/-- The answer to the `PhyPhase()` issued after `k` others. -/
abbrev phaseAt (s : State) (k : Nat) : Phase := s.env.phases.peek Config.freePhase k
/-- The answer to the `PhyData()` issued after `k` others. -/
abbrev dataAt (s : State) (k : Nat) : Byte := s.env.data.peek Config.freeData k
/-- The byte received in the SPI exchange made after `k` others. -/
abbrev spiAt (s : State) (k : Nat) : Byte := s.env.spi.peek Config.freeSpi k

/-- The next bytes of the host arrive, each before a read timeout. -/
abbrev hostSends (s : State) (bs : List Byte) : Prop :=
  ∀ k, (h : k < bs.length) → s.hostAt k = .byte bs[k]

/-- The host sends these bytes and then falls silent until a read times out. -/
abbrev hostStops (s : State) (bs : List Byte) : Prop :=
  s.hostSends bs ∧ s.hostAt bs.length = .timeout

/-- From read `start` on, the completion flag answers false `k` times and then true. -/
abbrev flagDone (s : State) (start k : Nat) : Prop :=
  s.flagAt (start + k) = true ∧ ∀ j < k, s.flagAt (start + j) = false

/-- From read `start` on, the completion flag answers false `b` times. -/
abbrev flagExpires (s : State) (start b : Nat) : Prop := ∀ j < b, s.flagAt (start + j) = false

/-- The poll budget of a configuration in this machine (R58). -/
abbrev budget (s : State) (c : I2cConfig) : Nat := pollBudget c.timeoutUs s.params.pollDelayUs

/-! ### States a frame leads to -/

/-- The state with `k` host answers taken and `evs` added to the trace, waiting for the next opcode, and
everything else as it was. -/
abbrev after (s : State) (k : Nat) (evs : List Entry) : State :=
  { s with
    pc := .awaitOpcode
    env := { s.env with host := s.env.host.skip k }
    trace := s.trace ++ evs }

/-- The state with `nf` flag, `np` phase and `nd` data answers of the PHY taken. -/
abbrev phyTook (s : State) (nf np nd : Nat) : State :=
  { s with
    env := { s.env with
      flags := s.env.flags.skip nf
      phases := s.env.phases.skip np
      data := s.env.data.skip nd } }

end State

/-- The trace of a polling loop that is done at its flag read number `k` (R58). -/
abbrev pollDoneTrace (p : Pc) (k : Nat) : List Entry :=
  List.replicate k (p, .phyFlag false) ++ [(p, .phyFlag true)]

/-- The trace of a polling loop that expires after `b` flag reads (R58). -/
abbrev pollExpiredTrace (p : Pc) (b : Nat) : List Entry := List.replicate b (p, .phyFlag false)

/-- How many flag reads the first `j` bytes of a run take, when the flag answers false `w i` times before
byte `i` is seen to complete. -/
abbrev flagsBefore (w : Nat → Nat) (j : Nat) : Nat := ((List.range j).map fun i => w i + 1).sum

/-- The trace of byte `j` of a run of `count` received bytes that is accepted: requested with ACK unless it is
the last and NACK-on-last is asked for, polled, its phase and its value read (R64, R65). The state gives the
answers; the phase of byte `j` is the phase answer number `j + ph`. -/
def byteReadTrace (s : State) (p : Pc) (nackLast : Bool) (count ph : Nat) (w : Nat → Nat) (j : Nat) :
    List Entry :=
  (p, .phyRxGo (!(decide (j + 1 = count) && nackLast))) ::
    (pollDoneTrace p (w j) ++ [(p, .phyPhase (s.phaseAt (j + ph))), (p, .phyData (s.dataAt j))])

/-- The trace of the first `m` bytes of such a run. -/
def bytesReadTrace (s : State) (p : Pc) (nackLast : Bool) (count ph : Nat) (w : Nat → Nat) (m : Nat) :
    List Entry :=
  (List.range m).flatMap (byteReadTrace s p nackLast count ph w)

/-- The trace of byte `j` of a run of sent bytes: loaded, triggered, polled, its phase read (R66). The phase
of byte `j` is the phase answer number `j + ph`. -/
def byteSentTrace (s : State) (p : Pc) (bs : List Byte) (ph : Nat) (w : Nat → Nat) (j : Nat) :
    List Entry :=
  (p, .phyLoad (bs.getD j 0)) :: (p, .phyTxGo) ::
    (pollDoneTrace p (w j) ++ [(p, .phyPhase (s.phaseAt (j + ph)))])

/-- The trace of the first `m` bytes of such a run. -/
def bytesSentTrace (s : State) (p : Pc) (bs : List Byte) (ph : Nat) (w : Nat → Nat) (m : Nat) :
    List Entry :=
  (List.range m).flatMap (byteSentTrace s p bs ph w)

/-! ### What a stretch of the trace did -/

/-- A PHY operation (R11). -/
def Event.isPhy : Event → Bool
  | .phyInit _ | .phyOff | .phyStart | .phyStop | .phyLoad _ | .phyTxGo | .phyRxGo _ => true
  | .phyFlag _ | .phyPhase _ | .phyData _ => true
  | .trRead _ _ | .trWrite _ | .spiInit _ | .spiDeinit | .spiSelect | .spiRelease => false
  | .spiRead _ | .spiWrite _ => false

/-- An SPI Helper operation (R12). -/
def Event.isSpi : Event → Bool
  | .spiInit _ | .spiDeinit | .spiSelect | .spiRelease | .spiRead _ | .spiWrite _ => true
  | .trRead _ _ | .trWrite _ | .phyInit _ | .phyOff | .phyStart | .phyStop | .phyLoad _ => false
  | .phyTxGo | .phyRxGo _ | .phyFlag _ | .phyPhase _ | .phyData _ => false

/-- A read of the completion flag. -/
def Event.isFlagRead : Event → Bool
  | .phyFlag _ => true
  | .trRead _ _ | .trWrite _ | .phyInit _ | .phyOff | .phyStart | .phyStop | .phyLoad _ => false
  | .phyTxGo | .phyRxGo _ | .phyPhase _ | .phyData _ => false
  | .spiInit _ | .spiDeinit | .spiSelect | .spiRelease | .spiRead _ | .spiWrite _ => false

/-- A read of the data register. -/
def Event.isDataRead : Event → Bool
  | .phyData _ => true
  | .trRead _ _ | .trWrite _ | .phyInit _ | .phyOff | .phyStart | .phyStop | .phyLoad _ => false
  | .phyTxGo | .phyRxGo _ | .phyFlag _ | .phyPhase _ => false
  | .spiInit _ | .spiDeinit | .spiSelect | .spiRelease | .spiRead _ | .spiWrite _ => false

/-- The bytes an operation sends to the host. -/
def Event.toHost : Event → List Byte
  | .trWrite bytes => bytes
  | .trRead _ _ | .phyInit _ | .phyOff | .phyStart | .phyStop | .phyLoad _ | .phyTxGo => []
  | .phyRxGo _ | .phyFlag _ | .phyPhase _ | .phyData _ => []
  | .spiInit _ | .spiDeinit | .spiSelect | .spiRelease | .spiRead _ | .spiWrite _ => []

/-- All bytes a stretch of the trace sends to the host, in order. -/
def hostBytes (tr : List Entry) : List Byte := tr.flatMap fun e => e.2.toHost

/-- How many times a stretch of the trace reads the completion flag. -/
def flagReads (tr : List Entry) : Nat := tr.countP fun e => e.2.isFlagRead

/-- How many times a stretch of the trace reads the data register. -/
def dataReads (tr : List Entry) : Nat := tr.countP fun e => e.2.isDataRead

/-! ### The external hardware as the trace leaves it (R28) -/

/-- What one operation does to the clock of the I2C peripheral: set, off, or nothing (R11). -/
def Event.busClock (before : Option Nat) : Event → Option Nat
  | .phyInit hz => some hz
  | .phyOff => none
  | .trRead _ _ | .trWrite _ | .phyStart | .phyStop | .phyLoad _ | .phyTxGo | .phyRxGo _ => before
  | .phyFlag _ | .phyPhase _ | .phyData _ => before
  | .spiInit _ | .spiDeinit | .spiSelect | .spiRelease | .spiRead _ | .spiWrite _ => before

/-- The clock the I2C peripheral was last set to, or `none` while it is disabled. -/
def busClock (tr : List Entry) : Option Nat := tr.foldl (fun c e => e.2.busClock c) none

/-- What one operation does to the divisor of the SPI Helper (R12). -/
def Event.spiClock (before : Option Byte) : Event → Option Byte
  | .spiInit div => some div
  | .spiDeinit => none
  | .trRead _ _ | .trWrite _ | .phyInit _ | .phyOff | .phyStart | .phyStop | .phyLoad _ => before
  | .phyTxGo | .phyRxGo _ | .phyFlag _ | .phyPhase _ | .phyData _ => before
  | .spiSelect | .spiRelease | .spiRead _ | .spiWrite _ => before

/-- The divisor the SPI Helper was last set to, or `none` while it is not initialised. -/
def spiClock (tr : List Entry) : Option Byte := tr.foldl (fun c e => e.2.spiClock c) none

/-- What one operation does to the select line: asserted, released, or nothing (R12). Whether `SpiInit` or
`SpiDeinit` moves it the spec does not say; DESIGN CHOICE: neither does (assumption 19). -/
def Event.select (before : Option Bool) : Event → Option Bool
  | .spiSelect => some true
  | .spiRelease => some false
  | .trRead _ _ | .trWrite _ | .phyInit _ | .phyOff | .phyStart | .phyStop | .phyLoad _ => before
  | .phyTxGo | .phyRxGo _ | .phyFlag _ | .phyPhase _ | .phyData _ => before
  | .spiInit _ | .spiDeinit | .spiRead _ | .spiWrite _ => before

/-- Whether the select line was last asserted or released, or `none` while no command has moved it (R28;
assumption 19). -/
def selectLine (tr : List Entry) : Option Bool := tr.foldl (fun c e => e.2.select c) none

/-! ### Outcomes -/

/-- Two states that differ at most in the working latches. -/
def sameButLatches (s t : State) : Prop := t = { s with latches := t.latches }

/-- Two answers that differ at most in the working latches of the next state. -/
def agreeButLatches : Out → Out → Prop
  | .next s, .next t => Machine.sameButLatches s t
  | .fault f, .fault g => f = g
  | .refused r, .refused q => r = q
  | .next _, .fault _ | .next _, .refused _ | .fault _, .next _ | .fault _, .refused _ => False
  | .refused _, .next _ | .refused _, .fault _ => False

/-! ### The invariant -/

/-- A configuration that a successful `configure` can have left (R18, R57, R59). -/
abbrev I2cConfig.legal (c : I2cConfig) : Bool :=
  c.clkHz == speedHz c.cls && c.timeoutUs == timeoutWindow c.clkHz

/-- What the spec says of the values of the state at any time: the buffer's listed indices are its own and
in canonical form (R21, R31), an open bus has a legal configuration (R18, R20), and the cursors and the byte
index stay within the buffer (R14, R19). -/
structure Consistent (s : State) : Prop where
  buf_wf : s.buf.wf
  buf_range : ∀ c ∈ s.buf, c.1 < s.params.bufCap
  i2c_legal : s.i2c.all I2cConfig.legal = true
  spi_legal : s.spi.all (fun c => spiDivSet.contains c.div) = true
  tx_le : s.txCur ≤ s.params.bufCap
  rx_le : s.rxCur ≤ s.params.bufCap
  idx_le : s.latches.idx ≤ s.params.bufCap

/-- The invariant of the steps: consistent, and between commands (R16). -/
structure Inv (s : State) : Prop where
  consistent : Consistent s
  awaiting : s.pc = .awaitOpcode

/-- What the block holds of the external hardware is what it last told it (R18, R20, R59, R60, R85, R86). -/
structure Mirrors (s : State) : Prop where
  i2c : s.i2cClkHz = busClock s.trace
  spi : s.spiDiv = spiClock s.trace

end Sys2Proof.Machine
end

