-- ==== Sys2Proof/Certificates/Slice0/Obligations.lean ====
section
/-! DEFINITION. The statements about the model, one definition each (OBLIGATIONS.json says which rule of the
spec each formalises). The rules R<n> are those of spec/. -/

open Sys2Proof Sys2Proof.Machine

/-! ### Encoding -/

/-- R46: each opcode of the closed set decodes to its command, with its format; every other byte decodes to
`NOSUCH`, format `X`. -/
def Obligations.OpcodeMapDecodes : Prop :=
  (∀ x ∈ [((7 : Byte), Instr.spiInit, Format.p1), (8, .spiDeinit, .n), (9, .spiSelect, .n),
      (10, .spiRelease, .n), (11, .spiRead, .rd1), (12, .spiWrite, .wr), (13, .spiTest, .t),
      (20, .i2cInit, .p1), (21, .i2cDeinit, .n), (22, .i2cRead, .rd2), (23, .i2cWrite, .wr),
      (24, .i2cStart, .n), (25, .i2cStop, .n), (28, .i2cTest, .t)],
    decode x.1 = x.2.1 ∧ x.2.1.format = x.2.2) ∧
  ∀ b : Byte, b ∉ [(7 : Byte), 8, 9, 10, 11, 12, 13, 20, 21, 22, 23, 24, 25, 28] →
    decode b = .nosuch b ∧ (decode b).format = .x

/-- Table words written out from R46 decode to their commands (sanity). -/
def Obligations.WrittenWordsDecode : Prop :=
  decodeTableWord 8 0x07 = some .spiInit ∧ decodeTableWord 8 0x0C = some .spiWrite ∧
  decodeTableWord 8 0x16 = some .i2cRead ∧ decodeTableWord 8 0x1C = some .i2cTest ∧
  decodeTableWord 8 0x1A = some (.nosuch 0x1A)

/-- R43, R46, R48: decoding the encoding of a well-formed command gives it back with the bytes after it, and
every byte is the encoding of the well-formed command it decodes to. -/
def Obligations.DecodeEncodeRoundTrip : Prop :=
  (∀ (i : Instr) (rest : List Byte), i.wf = true →
    decodeBytes (encode i ++ rest) = .ok (i, rest)) ∧
  ∀ b : Byte, (decode b).wf = true ∧ encode (decode b) = [b]

/-- R44, R49, R52: a complete frame, of every command with every parameter, payload and reply byte, is read
back from the bytes the host sends for it, whatever follows. -/
def Obligations.FrameParseInvertsEncode : Prop :=
  ∀ (f : HostFrame) (rest : List Byte), f.wf = true →
    parseFrame (encodeFrame f ++ rest) = .ok (f, rest)

/-- R44, R49: whatever frame is read off a byte stream is complete and is exactly the bytes that were
there. -/
def Obligations.FrameParseReadsOnlyEncodings : Prop :=
  ∀ (bs rest : List Byte) (f : HostFrame), parseFrame bs = .ok (f, rest) →
    f.wf = true ∧ bs = encodeFrame f ++ rest

/-- R49: how many bytes the host sends for a complete frame of each format. -/
def Obligations.FrameHostByteCounts : Prop :=
  ∀ f : HostFrame, f.wf = true → (encodeFrame f).length =
    match f.instr.format with
    | .n | .x => 1
    | .p1 | .rd1 => 2
    | .rd2 | .t => 3
    | .wr => 2 + (f.params.headD 0).toNat

/-- R47: the terminating byte of each result; no error code is an opcode of the closed set, so for such an
opcode the byte echoes it exactly on success. -/
def Obligations.ResultEncodingUnambiguous : Prop :=
  (∀ op : Byte, encodeResult op .success = op ∧ encodeResult op .opFailed = 97 ∧
    encodeResult op .inputTimeout = 98 ∧ encodeResult op .invalidInput = 99 ∧
    encodeResult op .noSuchCommand = 100) ∧
  ∀ (op : Byte) (r r' : Result), op ∈ closedOpcodes →
    (encodeResult op r = encodeResult op r' ↔ r = r')

/-! ### Reset and the main loop -/

/-- R29, R118: the state after reset, as far as the spec gives it values. Nothing of the buffer has been
written, so every byte of it is a free value (assumption 6; `MemWriteThenReadGivesBytes` says how it reads). -/
def Obligations.ResetStateValues : Prop :=
  State.reset.pc = .awaitOpcode ∧ State.reset.i2cOpen = false ∧ State.reset.spiOpen = false ∧
  State.reset.i2cClass = none ∧ State.reset.i2cClkHz = none ∧ State.reset.i2cTimeoutUs = none ∧
  State.reset.spiDiv = none ∧ State.reset.txCur = 0 ∧ State.reset.rxCur = 0 ∧
  State.reset.trace = [] ∧ ∀ a, State.reset.buf.read a = none

/-- R118: the first interface operation after reset is the `TrRead(1)` of the opcode fetch, whatever the host
sends: it is the first entry of the trace after any first step that has a next state. -/
def Obligations.FirstOperationAfterResetIsFetch : Prop :=
  ∀ (host : Answers HostEvent) (t : State),
    step { State.reset with env := { State.reset.env with host := host } } = .next t →
      ∃ got rest, t.trace = (Pc.awaitOpcode, Event.trRead 1 got) :: rest

/-- R72, R73, R74: between commands, a step that gets a byte latches it as `op` and runs exactly the command
it decodes to, with the one `TrRead(1)` recorded; a step that gets none does nothing else and writes no
response. The reset input is not applied; where it is: `ExternalResetOutcome`. -/
def Obligations.StepRunsDecodedCommand : Prop :=
  ∀ s : State, s.pc = .awaitOpcode → s.env.resetIn = none →
    (∀ i : Instr, i.wf = true → s.hostAt 0 = .byte i.opcode →
      step s = exec i
        { s.after 1 [(.awaitOpcode, .trRead 1 [i.opcode])] with
          latches := { s.latches with op := i.opcode } }) ∧
    (∀ b : Byte, s.hostAt 0 = .byte b →
      step s = exec (decode b)
        { s.after 1 [(.awaitOpcode, .trRead 1 [b])] with latches := { s.latches with op := b } }) ∧
    (s.hostAt 0 = .timeout → step s = .next (s.after 1 [(.awaitOpcode, .trRead 1 [])]))

/-- R29, R117, R118 (decision D20): the external reset input, applied at once in any state, also one that is
not between commands, leaves the state of R29, issues no interface operation and keeps the parameters, the host
bytes waiting and the environment's other answers; the latches have no stated value. Applied after `j + 1` more
operations, it cuts the command short after those, the answers they took being gone, or, if the command
issues no more, is still to come after the command. That an operation is either issued whole or not at all is
the model's choice (assumption 24), and so is which free bytes are used up (assumption 7). -/
def Obligations.ExternalResetOutcome : Prop :=
  ∀ s : State,
    let after (ops : List Entry) (junk : Nat) (l : Latches) : State :=
      { params := s.params, pc := .awaitOpcode, latches := l, i2c := none, spi := none, txCur := 0
        rxCur := 0, buf := []
        env := { (ops.map Prod.snd).foldl Env.took s.env with
          junk := junk, resets := s.env.resets + 1, resetIn := none }
        trace := s.trace ++ ops }
    (s.env.resetIn = some 0 → ∃ l, step s = .next (after [] s.env.junk l)) ∧
    ∀ (j : Nat) (t : State) (ops : List Entry), s.env.resetIn = some (j + 1) →
      step { s with env := { s.env with resetIn := none } } = .next t → t.trace = s.trace ++ ops →
      (j + 1 < ops.length → ∃ l, step s = .next (after (ops.take (j + 1)) t.env.junk l)) ∧
      (ops.length ≤ j + 1 →
        step s = .next { t with env := { t.env with resetIn := some (j + 1 - ops.length) } })

/-- R10, R11, R12, R39: whatever a command takes from the environment stands in the trace: the answers left
after it are those left by the operations it added, in order, and nothing else of the environment changes but
the count of free bytes (assumption 7). -/
def Obligations.TraceAccountsForEveryAnswer : Prop :=
  ∀ (i : Instr) (s t : State), exec i s = .next t →
    ∃ new, t.trace = s.trace ++ new ∧
      t.env = { (new.map Prod.snd).foldl Env.took s.env with junk := t.env.junk }

/-! ### Interface and buffer operations -/

/-- R10: `TrRead(n)` answers the next `n` host bytes and takes exactly those, or, when the host falls silent
after fewer, those it sent; a read of 0 bytes answers nothing at once. -/
def Obligations.TransportReadTakesArrivals : Prop :=
  ∀ (s : State) (n : Nat) (bs : List Byte),
    (s.hostSends bs → bs.length = n →
      trRead n s = (bs, { s with
        env := { s.env with host := s.env.host.skip n }
        trace := s.trace ++ [(s.pc, .trRead n bs)] })) ∧
    (s.hostStops bs → bs.length < n →
      trRead n s = (bs, { s with
        env := { s.env with host := s.env.host.skip (bs.length + 1) }
        trace := s.trace ++ [(s.pc, .trRead n bs)] }))

/-- R32: a `MemWrite` in range stores exactly its bytes in ascending order, changes no other element of the
buffer and nothing else, and a `MemRead` of the same run gives them back. A `MemRead` in range answers in every
state, also of bytes nothing has written, the bytes the indices hold in ascending order; out of range both are
the modelling fault R32 lets a model choose (assumption 21). -/
def Obligations.MemWriteThenReadGivesBytes : Prop :=
  ∀ (s : State) (addr : Nat) (v : List Byte),
    (addr + v.length ≤ s.params.bufCap → ∃ t, memWrite addr v s = .ok t ∧
      t = { s with buf := t.buf } ∧
      (∀ k, (h : k < v.length) → t.buf.read (addr + k) = some v[k]) ∧
      (∀ a, (a < addr ∨ addr + v.length ≤ a) → t.buf.read a = s.buf.read a) ∧
      memRead addr v.length t = .ok v) ∧
    (s.params.bufCap < addr + v.length → memWrite addr v s = .error .bufRange) ∧
    (∀ n, addr + n ≤ s.params.bufCap →
      memRead addr n s = .ok ((List.range n).map fun k => s.bufAt (addr + k))) ∧
    (∀ n, s.params.bufCap < addr + n → memRead addr n s = .error .bufRange) ∧
    ∀ i b, s.buf.read i = some b → s.bufAt i = b

/-- R105: an error entry writes the one code byte, returns to `AWAIT_OPCODE` and changes nothing else. -/
def Obligations.ErrorEntryWritesCodeOnly : Prop :=
  ∀ (s : State) (op code : Byte) (e : Result),
    (e, code) ∈ [(Result.opFailed, (97 : Byte)), (.inputTimeout, 98), (.invalidInput, 99),
      (.noSuchCommand, 100)] →
    raise op e s =
      { s with pc := .awaitOpcode, trace := s.trace ++ [(.respond, .trWrite [code])] }

/-! ### Commands of the Dispatcher and the SPI domain -/

/-- R48, R81: every byte outside the closed set is answered with the one byte 100: nothing more is read, no
bus is touched and no state changes. -/
def Obligations.UnknownOpcodeAnswersNoSuch : Prop :=
  ∀ (s : State) (b : Byte),
    b ∉ [(7 : Byte), 8, 9, 10, 11, 12, 13, 20, 21, 22, 23, 24, 25, 28] →
    decode b = .nosuch b ∧
    exec (.nosuch b) s = .next (s.after 0 [(.respond, .trWrite [100])])

/-- R82, R91, R98: a link test writes the sentinels, reads two bytes, and answers its own opcode exactly if
they are the sentinels in order, 99 if they are two other bytes, 98 if fewer arrive; it changes nothing else,
whether or not a bus is open. The dispatcher states of its first two operations are the model's choice
(assumption 11) and are left open. -/
def Obligations.LinkTestAnswers : Prop :=
  ∀ (s : State) (i : Instr), i = .spiTest ∨ i = .i2cTest →
    (s.hostSends [0xA5, 0x5A] → ∃ tr, exec i s = .next (s.after 2 tr) ∧
      tr.map Prod.snd =
        [.trWrite [0xA5, 0x5A], .trRead 2 [0xA5, 0x5A], .trWrite [i.opcode]]) ∧
    (∀ a b : Byte, s.hostSends [a, b] → ¬(a = 0xA5 ∧ b = 0x5A) →
      ∃ tr, exec i s = .next (s.after 2 tr) ∧
        tr.map Prod.snd = [.trWrite [0xA5, 0x5A], .trRead 2 [a, b], .trWrite [99]]) ∧
    (∀ a : Byte, s.hostStops [a] → ∃ tr, exec i s = .next (s.after 2 tr) ∧
      tr.map Prod.snd = [.trWrite [0xA5, 0x5A], .trRead 2 [a], .trWrite [98]]) ∧
    (s.hostStops [] → ∃ tr, exec i s = .next (s.after 1 tr) ∧
      tr.map Prod.snd = [.trWrite [0xA5, 0x5A], .trRead 2 [], .trWrite [98]])

/-- R85: `SPI_INIT` with an accepted divisor initialises the helper, opens the bus with that divisor and
echoes 7; with any other it answers 99 and changes nothing; with no parameter byte it answers 98. -/
def Obligations.SpiInitOutcome : Prop :=
  ∀ s : State,
    (∀ p : Byte, s.hostAt 0 = .byte p → p ∈ [(2 : Byte), 4, 8, 16, 32, 64, 128] →
      exec .spiInit s = .next
        { s.after 1 [(.readParams, .trRead 1 [p]), (.execute, .spiInit p),
            (.respond, .trWrite [7])] with
          spi := some ⟨p⟩ }) ∧
    (∀ p : Byte, s.hostAt 0 = .byte p → p ∉ [(2 : Byte), 4, 8, 16, 32, 64, 128] →
      exec .spiInit s =
        .next (s.after 1 [(.readParams, .trRead 1 [p]), (.respond, .trWrite [99])])) ∧
    (s.hostAt 0 = .timeout →
      exec .spiInit s =
        .next (s.after 1 [(.readParams, .trRead 1 []), (.respond, .trWrite [98])]))

/-- R86: `SPI_DEINIT` shuts the helper down, leaves the bus closed without a divisor and echoes 8, whether
or not the bus was open. -/
def Obligations.SpiDeinitOutcome : Prop :=
  ∀ s : State, exec .spiDeinit s = .next
    { s.after 0 [(.execute, .spiDeinit), (.respond, .trWrite [8])] with spi := none }

/-- R87: on an open bus `SPI_SELECT` asserts the line, echoes 9 and writes no block state. (On a closed bus:
`RefusedExactlyOnClosedBus`.) -/
def Obligations.SpiSelectOutcome : Prop :=
  ∀ s : State, s.spiOpen = true → exec .spiSelect s =
    .next (s.after 0 [(.execute, .spiSelect), (.respond, .trWrite [9])])

/-- R88: on an open bus `SPI_RELEASE` releases the line, echoes 10 and writes no block state. (On a closed
bus: `RefusedExactlyOnClosedBus`.) -/
def Obligations.SpiReleaseOutcome : Prop :=
  ∀ s : State, s.spiOpen = true → exec .spiRelease s =
    .next (s.after 0 [(.execute, .spiRelease), (.respond, .trWrite [10])])

/-- R89: `SPI_READ` on an open bus with a length within the capacity: early echo, that many bytes from the
SPI bus into the buffer from index 0 and to the host, final echo; a longer length is 99, no length is 98,
neither touching the bus. Only the latches `len` and `idx` and the buffer run change. That the latch `len` still
holds the length is assumption 8; the retained value of `idx` is the model's choice too (assumption 8) and is
left open. -/
def Obligations.SpiReadOutcome : Prop :=
  ∀ s : State,
    (∀ n : Byte, s.spiOpen = true → s.hostAt 0 = .byte n → n.toNat ≤ s.params.bufCap →
      ∃ data : List Byte, data = (List.range n.toNat).map s.spiAt ∧
      ∃ t k, exec .spiRead s = .next t ∧
        t = { s.after 1 [(.readParams, .trRead 1 [n]), (.earlyEcho, .trWrite [11]),
                (.execute, .spiRead data), (.payloadOut, .trWrite data),
                (.respond, .trWrite [11])] with
              latches := { s.latches with len := n, idx := k }
              buf := t.buf
              env := { s.env with host := s.env.host.skip 1, spi := s.env.spi.skip n.toNat } } ∧
        (∀ j, (h : j < data.length) → t.buf.read j = some data[j]) ∧
        ∀ a, n.toNat ≤ a → t.buf.read a = s.buf.read a) ∧
    (∀ n : Byte, s.spiOpen = true → s.hostAt 0 = .byte n → s.params.bufCap < n.toNat →
      exec .spiRead s = .next
        { s.after 1 [(.readParams, .trRead 1 [n]), (.respond, .trWrite [99])] with
          latches := { s.latches with len := n } }) ∧
    (s.spiOpen = true → s.hostAt 0 = .timeout →
      exec .spiRead s =
        .next (s.after 1 [(.readParams, .trRead 1 []), (.respond, .trWrite [98])]))

/-- R90: `SPI_WRITE` on an open bus with a length within the capacity: early echo, exactly that many payload
bytes into the buffer from index 0 and to the SPI bus, final echo; a short payload answers 98 after the early
echo and stores and sends nothing; a longer length is 99, no length is 98. That the latch `len` still holds the
length is assumption 8; the retained value of `idx` is the model's choice too (assumption 8) and is left
open. -/
def Obligations.SpiWriteOutcome : Prop :=
  ∀ s : State,
    (∀ (n : Byte) (bs : List Byte), s.spiOpen = true → s.hostSends (n :: bs) →
      bs.length = n.toNat → n.toNat ≤ s.params.bufCap →
      ∃ t k, exec .spiWrite s = .next t ∧
        t = { s.after (1 + n.toNat) [(.readParams, .trRead 1 [n]), (.earlyEcho, .trWrite [12]),
                (.payloadIn, .trRead n.toNat bs), (.execute, .spiWrite bs),
                (.respond, .trWrite [12])] with
              latches := { s.latches with len := n, idx := k }
              buf := t.buf } ∧
        (∀ j, (h : j < bs.length) → t.buf.read j = some bs[j]) ∧
        ∀ a, n.toNat ≤ a → t.buf.read a = s.buf.read a) ∧
    (∀ (n : Byte) (bs : List Byte), s.spiOpen = true → s.hostStops (n :: bs) →
      bs.length < n.toNat → n.toNat ≤ s.params.bufCap →
      exec .spiWrite s = .next
        { s.after (2 + bs.length) [(.readParams, .trRead 1 [n]), (.earlyEcho, .trWrite [12]),
            (.payloadIn, .trRead n.toNat bs), (.respond, .trWrite [98])] with
          latches := { s.latches with len := n } }) ∧
    (∀ n : Byte, s.spiOpen = true → s.hostAt 0 = .byte n → s.params.bufCap < n.toNat →
      exec .spiWrite s = .next
        { s.after 1 [(.readParams, .trRead 1 [n]), (.respond, .trWrite [99])] with
          latches := { s.latches with len := n } }) ∧
    (s.spiOpen = true → s.hostAt 0 = .timeout →
      exec .spiWrite s =
        .next (s.after 1 [(.readParams, .trRead 1 []), (.respond, .trWrite [98])]))

/-! ### Commands of the I2C domain -/

/-- R92, R59 with decisions D4 (which class number is which clock; assumption 13) and D16: `I2C_INIT` with
class 0, 1 or 2 sets the clock of that class, opens the bus with its class, clock and timeout window, empties
the cursors and echoes 20, whether or not the bus was open; any other class answers 99 and changes nothing; no
class byte answers 98. That the latch `st` still holds OK is assumption 8. -/
def Obligations.I2cInitOutcome : Prop :=
  ∀ s : State,
    (∀ (p : Byte) (c : I2cConfig), s.hostAt 0 = .byte p →
      (p, c) ∈ [((0 : Byte), I2cConfig.mk .standard 100000 500), (1, ⟨.fast, 400000, 125⟩),
        (2, ⟨.low, 10000, 5000⟩)] →
      exec .i2cInit s = .next
        { s.after 1 [(.readParams, .trRead 1 [p]), (.execute, .phyInit c.clkHz),
            (.respond, .trWrite [20])] with
          i2c := some c, txCur := 0, rxCur := 0, latches := { s.latches with st := .ok } }) ∧
    (∀ p : Byte, s.hostAt 0 = .byte p → p ∉ [(0 : Byte), 1, 2] →
      exec .i2cInit s =
        .next (s.after 1 [(.readParams, .trRead 1 [p]), (.respond, .trWrite [99])])) ∧
    (s.hostAt 0 = .timeout →
      exec .i2cInit s =
        .next (s.after 1 [(.readParams, .trRead 1 []), (.respond, .trWrite [98])]))

/-- R93, R60: `I2C_DEINIT` disables the bus hardware, leaves the bus closed without class, clock or timeout
window, sends no STOP and echoes 21, whether or not the bus was open. -/
def Obligations.I2cDeinitOutcome : Prop :=
  ∀ s : State, exec .i2cDeinit s = .next
    { s.after 0 [(.execute, .phyOff), (.respond, .trWrite [21])] with i2c := none }

/-- R97, R63: on an open bus `I2C_STOP` requests a STOP, polls and tests nothing, is OK and always echoes
25. That the latch `st` still holds OK is assumption 8. (On a closed bus: `RefusedExactlyOnClosedBus`.) -/
def Obligations.I2cStopOutcome : Prop :=
  ∀ s : State, s.i2cOpen = true → exec .i2cStop s = .next
    { s.after 0 [(.execute, .phyStop), (.respond, .trWrite [25])] with
      latches := { s.latches with st := .ok } }

/-- R96, R61, R62: `I2C_START` on an open bus, for every answer of the PHY. The phase is read; only if it is
idle-with-error the bus is configured again with its own class and clock; START is requested; the flag is
polled. If it is done at a read within the budget, the phase read next decides between echo 24 and 97; if it
is not, the answer is 97 and no phase is read. Nothing else changes but `st`, `polls` and, after a recovery,
the cursors. That the latches `st` and `polls` still hold the Engine status and the count when the command has
ended is the model's choice (assumption 8): R17 and R102 let nothing of the error survive. -/
def Obligations.I2cStartOutcome : Prop :=
  ∀ (s : State) (c : I2cConfig), s.i2c = some c → c.legal = true →
    let wedged := s.phaseAt 0 = Phase.idleError
    let started (ending : List Entry) : List Entry :=
      (Pc.execute, Event.phyPhase (s.phaseAt 0)) ::
        ((if wedged then [(Pc.execute, Event.phyInit c.clkHz)] else []) ++
          (Pc.execute, Event.phyStart) :: ending)
    let u : State := { s with
      txCur := if wedged then 0 else s.txCur
      rxCur := if wedged then 0 else s.rxCur }
    (∀ k, k < s.budget c → s.flagDone 0 k →
      exec .i2cStart s = .next
        { (u.phyTook (k + 1) 2 0).after 0 (started (pollDoneTrace .execute k ++
            [(.execute, .phyPhase (s.phaseAt 1)),
             (.respond, .trWrite
              [if s.phaseAt 1 = .startSent ∨ s.phaseAt 1 = .repStartSent then 24 else 97])])) with
          latches := { s.latches with
            polls := k
            st := if s.phaseAt 1 = .startSent ∨ s.phaseAt 1 = .repStartSent then .ok
              else .unexpectedState } }) ∧
    (s.flagExpires 0 (s.budget c) →
      exec .i2cStart s = .next
        { (u.phyTook (s.budget c) 1 0).after 0 (started (pollExpiredTrace .execute (s.budget c) ++
            [(.respond, .trWrite [97])])) with
          latches := { s.latches with polls := s.budget c, st := .timeout } })

/-- R61 (Q7): on an open bus the answer to `I2C_START` is 24 exactly if the flag is seen set within the budget
and the phase read then is START-SENT or repeated-START. -/
def Obligations.I2cStartEchoesIffStarted : Prop :=
  ∀ (s : State) (c : I2cConfig), s.i2c = some c → c.legal = true →
    ((∃ t, exec .i2cStart s = .next t ∧ t.trace.getLast? = some (.respond, .trWrite [24])) ↔
      (∃ k, k < s.budget c ∧ s.flagDone 0 k) ∧
        (s.phaseAt 1 = .startSent ∨ s.phaseAt 1 = .repStartSent))

/-- R94: what `I2C_READ` rejects: 98 when fewer than two parameter bytes arrive, also after exactly one; 99
when the length is over 32, after both; the bus is not touched. That the latches still hold the parameters is
assumption 8. -/
def Obligations.I2cReadRejections : Prop :=
  ∀ s : State,
    (s.i2cOpen = true → s.hostStops [] →
      exec .i2cRead s =
        .next (s.after 1 [(.readParams, .trRead 2 []), (.respond, .trWrite [98])])) ∧
    (∀ n : Byte, s.i2cOpen = true → s.hostStops [n] →
      exec .i2cRead s =
        .next (s.after 2 [(.readParams, .trRead 2 [n]), (.respond, .trWrite [98])])) ∧
    (∀ n nack : Byte, s.i2cOpen = true → s.hostSends [n, nack] → 32 < n.toNat →
      exec .i2cRead s = .next
        { s.after 2 [(.readParams, .trRead 2 [n, nack]), (.respond, .trWrite [99])] with
          latches := { s.latches with len := n, flag := nack != 0 } })

/-- R94, R65, R64: a successful `I2C_READ`: the phase is one of the two read-acknowledged ones, and each byte
completes within the budget in an accepted phase. Byte `j` is requested with ACK unless it is the last and
NACK-on-last was asked for (any non-zero flag byte); it is the data register's answer, stored at index `j` and
sent to the host; the frame ends with the echo 22. `w j` is how many false flag reads precede byte `j`'s
completion. That the latches still hold `len`, `flag` and the status is assumption 8. -/
def Obligations.I2cReadSucceeds : Prop :=
  ∀ (s : State) (c : I2cConfig) (n nack : Byte) (w : Nat → Nat),
    s.i2c = some c → s.hostSends [n, nack] → n.toNat ≤ 32 →
    (s.phaseAt 0 = .addrRAcked ∨ s.phaseAt 0 = .dataRAcked) →
    (∀ j < n.toNat, w j < s.budget c ∧
      s.flagDone (flagsBefore w j) (w j) ∧
      (s.phaseAt (j + 1) = .dataRAcked ∨ s.phaseAt (j + 1) = .dataRNacked)) →
    ∃ t l, exec .i2cRead s = .next t ∧
      t = { (s.phyTook (flagsBefore w n.toNat) (n.toNat + 1) n.toNat).after 2
              ((.readParams, .trRead 2 [n, nack]) :: (.earlyEcho, .trWrite [22]) ::
                (.execute, .phyPhase (s.phaseAt 0)) ::
                (bytesReadTrace s .execute (nack != 0) n.toNat 1 w n.toNat ++
                  [(.payloadOut, .trWrite ((List.range n.toNat).map s.dataAt)),
                   (.respond, .trWrite [22])])) with
            latches := l, buf := t.buf } ∧
      l.op = s.latches.op ∧ l.len = n ∧ l.flag = (nack != 0) ∧ l.st = .ok ∧
      (∀ j < n.toNat, t.buf.read j = some (s.dataAt j)) ∧
      ∀ a, n.toNat ≤ a → t.buf.read a = s.buf.read a

/-- R65, R94, R125: in any other phase `I2C_READ` reads the phase and does nothing else on the bus; it writes
the early echo, as many payload bytes as the length says, of no stated value, and 97. The latch `st` still
holds the Engine status (assumption 8), a protocol sequence error. -/
def Obligations.I2cReadOutOfSequence : Prop :=
  ∀ (s : State) (n nack : Byte),
    s.i2cOpen = true → s.hostSends [n, nack] → n.toNat ≤ 32 →
    ¬(s.phaseAt 0 = .addrRAcked ∨ s.phaseAt 0 = .dataRAcked) →
    ∃ t l data, exec .i2cRead s = .next t ∧ data.length = n.toNat ∧
      t = { (s.phyTook 0 1 0).after 2
              [(.readParams, .trRead 2 [n, nack]), (.earlyEcho, .trWrite [22]),
               (.execute, .phyPhase (s.phaseAt 0)), (.payloadOut, .trWrite data),
               (.respond, .trWrite [97])] with
            latches := l
            buf := t.buf
            env := { s.env with
              host := s.env.host.skip 2
              phases := s.env.phases.skip 1
              junk := t.env.junk } } ∧
      l.op = s.latches.op ∧ l.len = n ∧ l.flag = (nack != 0) ∧ l.st = .seqError ∧
      ∀ a, n.toNat ≤ a → t.buf.read a = s.buf.read a

/-- R65, R94 (S3): when the first `m` bytes of an `I2C_READ` arrive and byte `m` completes in a phase that is
not accepted, or is not seen to complete within the budget, the rest is not requested: the payload of the
declared length is written, of no stated value, and the frame ends with 97, without a STOP. The latch `st`
still holds the Engine status (assumption 8). -/
def Obligations.I2cReadFailsAtByte : Prop :=
  ∀ (s : State) (c : I2cConfig) (n nack : Byte) (w : Nat → Nat) (m : Nat),
    s.i2c = some c → s.hostSends [n, nack] → n.toNat ≤ 32 → m < n.toNat →
    (s.phaseAt 0 = .addrRAcked ∨ s.phaseAt 0 = .dataRAcked) →
    (∀ j < m, w j < s.budget c ∧
      s.flagDone (flagsBefore w j) (w j) ∧
      (s.phaseAt (j + 1) = .dataRAcked ∨ s.phaseAt (j + 1) = .dataRNacked)) →
    let before := flagsBefore w m
    let asked (ending : List Entry) : List Entry :=
      (.readParams, .trRead 2 [n, nack]) :: (.earlyEcho, .trWrite [22]) ::
        (.execute, .phyPhase (s.phaseAt 0)) ::
        (bytesReadTrace s .execute (nack != 0) n.toNat 1 w m ++
          (.execute, .phyRxGo (!(decide (m + 1 = n.toNat) && nack != 0))) :: ending)
    (∀ k, k < s.budget c → s.flagDone before k →
      ¬(s.phaseAt (m + 1) = .dataRAcked ∨ s.phaseAt (m + 1) = .dataRNacked) →
      ∃ t l data, exec .i2cRead s = .next t ∧ data.length = n.toNat ∧
        t = { (s.phyTook (before + k + 1) (m + 2) m).after 2
                (asked (pollDoneTrace .execute k ++
                  [(.execute, .phyPhase (s.phaseAt (m + 1))), (.payloadOut, .trWrite data),
                   (.respond, .trWrite [97])])) with
              latches := l, buf := t.buf, env := t.env } ∧
        t.env = { (s.phyTook (before + k + 1) (m + 2) m).env with
          host := s.env.host.skip 2, junk := t.env.junk } ∧
        l.op = s.latches.op ∧ l.len = n ∧ l.flag = (nack != 0) ∧ l.st = .unexpectedState ∧
        ∀ a, n.toNat ≤ a → t.buf.read a = s.buf.read a) ∧
    (s.flagExpires before (s.budget c) →
      ∃ t l data, exec .i2cRead s = .next t ∧ data.length = n.toNat ∧
        t = { (s.phyTook (before + s.budget c) (m + 1) m).after 2
                (asked (pollExpiredTrace .execute (s.budget c) ++
                  [(.payloadOut, .trWrite data), (.respond, .trWrite [97])])) with
              latches := l, buf := t.buf, env := t.env } ∧
        t.env = { (s.phyTook (before + s.budget c) (m + 1) m).env with
          host := s.env.host.skip 2, junk := t.env.junk } ∧
        l.op = s.latches.op ∧ l.len = n ∧ l.flag = (nack != 0) ∧ l.st = .timeout ∧
        ∀ a, n.toNat ≤ a → t.buf.read a = s.buf.read a)

/-- R94 (D12), R65: on an open bus, once its parameters are accepted `I2C_READ` completes for every answer of
the PHY with `2 + len` bytes to the host: the early echo, `len` payload bytes, then 22 or 97; after 22 the
payload is what the buffer holds. Buffer bytes from `len` on, both configurations and the cursors are
unchanged. That the latches still hold `len` and `flag` is assumption 8. -/
def Obligations.I2cReadAlwaysFramesPayload : Prop :=
  ∀ (s : State) (n nack : Byte),
    s.i2cOpen = true → s.hostSends [n, nack] → n.toNat ≤ 32 →
    ∃ t new data r, exec .i2cRead s = .next t ∧ t.trace = s.trace ++ new ∧
      data.length = n.toNat ∧ hostBytes new = [22] ++ data ++ [r] ∧ (r = 22 ∨ r = 97) ∧
      (r = 22 → ∀ j, (h : j < data.length) → t.buf.read j = some data[j]) ∧
      (∀ a, n.toNat ≤ a → t.buf.read a = s.buf.read a) ∧
      t.params = s.params ∧ t.pc = .awaitOpcode ∧ t.i2c = s.i2c ∧ t.spi = s.spi ∧
      t.txCur = s.txCur ∧ t.rxCur = s.rxCur ∧
      t.env.host = s.env.host.skip 2 ∧ t.env.spi = s.env.spi ∧
      t.latches.op = s.latches.op ∧ t.latches.len = n ∧ t.latches.flag = (nack != 0)

/-- R95: what `I2C_WRITE` rejects: 98 without a length or, after the early echo, on a short payload; 99 when
the length is over 32; in each case with zero bus writes and the buffer unchanged. That the latch `len` still
holds the length is assumption 8. -/
def Obligations.I2cWriteRejections : Prop :=
  ∀ s : State,
    (s.i2cOpen = true → s.hostAt 0 = .timeout →
      exec .i2cWrite s =
        .next (s.after 1 [(.readParams, .trRead 1 []), (.respond, .trWrite [98])])) ∧
    (∀ n : Byte, s.i2cOpen = true → s.hostAt 0 = .byte n → 32 < n.toNat →
      exec .i2cWrite s = .next
        { s.after 1 [(.readParams, .trRead 1 [n]), (.respond, .trWrite [99])] with
          latches := { s.latches with len := n } }) ∧
    (∀ (n : Byte) (bs : List Byte), s.i2cOpen = true → s.hostStops (n :: bs) →
      bs.length < n.toNat → n.toNat ≤ 32 →
      exec .i2cWrite s = .next
        { s.after (2 + bs.length) [(.readParams, .trRead 1 [n]), (.earlyEcho, .trWrite [23]),
            (.payloadIn, .trRead n.toNat bs), (.respond, .trWrite [98])] with
          latches := { s.latches with len := n } })

/-- R95, R66: a successful `I2C_WRITE`: each payload byte in order is loaded and triggered, completes within
the budget and is acknowledged; the frame ends with the echo 23 and the buffer holds the payload. That the
latches still hold `len` and the status is assumption 8. -/
def Obligations.I2cWriteSucceeds : Prop :=
  ∀ (s : State) (c : I2cConfig) (n : Byte) (bs : List Byte) (w : Nat → Nat),
    s.i2c = some c → s.hostSends (n :: bs) → bs.length = n.toNat → n.toNat ≤ 32 →
    (∀ j < n.toNat, w j < s.budget c ∧
      s.flagDone (flagsBefore w j) (w j) ∧
      (s.phaseAt j = .addrWAcked ∨ s.phaseAt j = .dataWAcked)) →
    ∃ t l, exec .i2cWrite s = .next t ∧
      t = { (s.phyTook (flagsBefore w n.toNat) n.toNat 0).after (1 + n.toNat)
              ((.readParams, .trRead 1 [n]) :: (.earlyEcho, .trWrite [23]) ::
                (.payloadIn, .trRead n.toNat bs) ::
                (bytesSentTrace s .execute bs 0 w n.toNat ++ [(.respond, .trWrite [23])])) with
            latches := l, buf := t.buf } ∧
      l.op = s.latches.op ∧ l.len = n ∧ l.flag = s.latches.flag ∧ l.st = .ok ∧
      (∀ j, (h : j < bs.length) → t.buf.read j = some bs[j]) ∧
      ∀ a, n.toNat ≤ a → t.buf.read a = s.buf.read a

/-- R95, R66, R126: the first byte `m` of an `I2C_WRITE` that is not acknowledged in one of the two accepted
phases (an acknowledged address byte with the read bit, phase `ADDR_R_ACKED`, among them), or whose completion
is not seen within the budget, ends the command with 97: the bytes up to it were sent, none after it is
loaded, no STOP is sent and the buffer holds the whole payload. The latch `st` still holds the Engine status
(assumption 8). -/
def Obligations.I2cWriteFailsAtByte : Prop :=
  ∀ (s : State) (c : I2cConfig) (n : Byte) (bs : List Byte) (w : Nat → Nat) (m : Nat),
    s.i2c = some c → s.hostSends (n :: bs) → bs.length = n.toNat → n.toNat ≤ 32 → m < n.toNat →
    (∀ j < m, w j < s.budget c ∧
      s.flagDone (flagsBefore w j) (w j) ∧
      (s.phaseAt j = .addrWAcked ∨ s.phaseAt j = .dataWAcked)) →
    let before := flagsBefore w m
    let sent (ending : List Entry) : List Entry :=
      (.readParams, .trRead 1 [n]) :: (.earlyEcho, .trWrite [23]) ::
        (.payloadIn, .trRead n.toNat bs) ::
        (bytesSentTrace s .execute bs 0 w m ++
          (.execute, .phyLoad (bs.getD m 0)) :: (.execute, .phyTxGo) :: ending)
    (∀ k, k < s.budget c → s.flagDone before k →
      ¬(s.phaseAt m = .addrWAcked ∨ s.phaseAt m = .dataWAcked) →
      ∃ t l, exec .i2cWrite s = .next t ∧
        t = { (s.phyTook (before + k + 1) (m + 1) 0).after (1 + n.toNat)
                (sent (pollDoneTrace .execute k ++
                  [(.execute, .phyPhase (s.phaseAt m)), (.respond, .trWrite [97])])) with
              latches := l, buf := t.buf } ∧
        l.op = s.latches.op ∧ l.len = n ∧ l.flag = s.latches.flag ∧ l.st = .notAcked ∧
        (∀ j, (h : j < bs.length) → t.buf.read j = some bs[j]) ∧
        ∀ a, n.toNat ≤ a → t.buf.read a = s.buf.read a) ∧
    (s.flagExpires before (s.budget c) →
      ∃ t l, exec .i2cWrite s = .next t ∧
        t = { (s.phyTook (before + s.budget c) m 0).after (1 + n.toNat)
                (sent (pollExpiredTrace .execute (s.budget c) ++ [(.respond, .trWrite [97])])) with
              latches := l, buf := t.buf } ∧
        l.op = s.latches.op ∧ l.len = n ∧ l.flag = s.latches.flag ∧ l.st = .timeout ∧
        (∀ j, (h : j < bs.length) → t.buf.read j = some bs[j]) ∧
        ∀ a, n.toNat ≤ a → t.buf.read a = s.buf.read a)

/-! ### Engine operations -/

/-- R57: the timeout window is 50 bit times of the bus clock in microseconds, rounded up; its three values. -/
def Obligations.TimeoutWindowIsCeiling : Prop :=
  (∀ hz, 0 < hz → 50 * 1000000 ≤ timeoutWindow hz * hz ∧ timeoutWindow hz * hz < 50 * 1000000 + hz) ∧
  timeoutWindow (speedHz .standard) = 500 ∧ timeoutWindow (speedHz .fast) = 125 ∧
  timeoutWindow (speedHz .low) = 5000

/-- R58: the polling loop on an open bus, for every answer of the PHY: it is done at the first true answer if
that is among the first `budget` reads, and expires after exactly `budget` false reads otherwise, the budget
being the timeout window over the polling delay, rounded up; it reads nothing else and changes nothing but
`polls`. -/
def Obligations.PollFlagOutcome : Prop :=
  ∀ (s : State) (c : I2cConfig), s.i2c = some c →
    (c.timeoutUs ≤ s.budget c * s.params.pollDelayUs ∧
      s.budget c * s.params.pollDelayUs < c.timeoutUs + s.params.pollDelayUs) ∧
    (∀ k, k < s.budget c → s.flagDone 0 k →
      pollFlag s = .ok (.done, { s.phyTook (k + 1) 0 0 with
        latches := { s.latches with polls := k }
        trace := s.trace ++ pollDoneTrace s.pc k })) ∧
    (s.flagExpires 0 (s.budget c) →
      pollFlag s = .ok (.expired, { s.phyTook (s.budget c) 0 0 with
        latches := { s.latches with polls := s.budget c }
        trace := s.trace ++ pollExpiredTrace s.pc (s.budget c) }))

/-- R59 with decision D4, which pairs the class numbers 0, 1, 2 with 100, 400 and 10 kHz (R7, R45; assumption
13): `configure` with class 0, 1 or 2 sets clock, timeout window and class, initialises the PHY once,
empties the cursors and is OK, whatever the state was, so that a second call with the same class changes no
state element; any other class is `CONFIG_ERROR` with no state change and no PHY operation. -/
def Obligations.ConfigureOutcome : Prop :=
  ∀ s : State,
    (∀ (p : Byte) (c : I2cConfig),
      (p, c) ∈ [((0 : Byte), I2cConfig.mk .standard 100000 500), (1, ⟨.fast, 400000, 125⟩),
        (2, ⟨.low, 10000, 5000⟩)] →
      configure p s = { s with
        i2c := some c, txCur := 0, rxCur := 0
        latches := { s.latches with st := .ok }
        trace := s.trace ++ [(s.pc, .phyInit c.clkHz)] } ∧
      configure p (configure p s) =
        { configure p s with
          trace := s.trace ++ [(s.pc, .phyInit c.clkHz), (s.pc, .phyInit c.clkHz)] }) ∧
    (∀ p : Byte, p ∉ [(0 : Byte), 1, 2] →
      configure p s = { s with latches := { s.latches with st := .configError } })

/-- R60: `shutdown` disables the PHY, closes the bus and takes its three values away; nothing else changes,
the cursors among the rest, also when the bus was closed already. -/
def Obligations.ShutdownOutcome : Prop :=
  ∀ s : State, (shutdown s).i2cOpen = false ∧ (shutdown s).i2cClass = none ∧
    (shutdown s).i2cClkHz = none ∧ (shutdown s).i2cTimeoutUs = none ∧
    shutdown s = { s with i2c := none, trace := s.trace ++ [(s.pc, .phyOff)] } ∧
    shutdown (shutdown s) = { shutdown s with
      trace := s.trace ++ [(s.pc, .phyOff), (s.pc, .phyOff)] }

/-- R64: `readByte` on an open bus, for every answer of the PHY: it releases the flag with ACK or NACK, polls,
and, if the flag is seen set, reads the phase; only in one of the two data-read phases it reads the data
register, once, and accepts the byte. -/
def Obligations.ReadByteOutcome : Prop :=
  ∀ (s : State) (c : I2cConfig) (nack : Bool), s.i2c = some c →
    (∀ k, k < s.budget c → s.flagDone 0 k →
      (s.phaseAt 0 = .dataRAcked ∨ s.phaseAt 0 = .dataRNacked) →
      readByte nack s = .ok (some (s.dataAt 0), { s.phyTook (k + 1) 1 1 with
        latches := { s.latches with polls := k, st := .ok }
        trace := s.trace ++ (s.pc, .phyRxGo (!nack)) :: (pollDoneTrace s.pc k ++
          [(s.pc, .phyPhase (s.phaseAt 0)), (s.pc, .phyData (s.dataAt 0))]) })) ∧
    (∀ k, k < s.budget c → s.flagDone 0 k →
      ¬(s.phaseAt 0 = .dataRAcked ∨ s.phaseAt 0 = .dataRNacked) →
      readByte nack s = .ok (none, { s.phyTook (k + 1) 1 0 with
        latches := { s.latches with polls := k, st := .unexpectedState }
        trace := s.trace ++ (s.pc, .phyRxGo (!nack)) :: (pollDoneTrace s.pc k ++
          [(s.pc, .phyPhase (s.phaseAt 0))]) })) ∧
    (s.flagExpires 0 (s.budget c) →
      readByte nack s = .ok (none, { s.phyTook (s.budget c) 0 0 with
        latches := { s.latches with polls := s.budget c, st := .timeout }
        trace := s.trace ++ (s.pc, .phyRxGo (!nack)) :: pollExpiredTrace s.pc (s.budget c) }))

/-- R68: the address step loads `address * 2 + 1`, triggers, polls, and is OK only in the phase
`ADDR_R_ACKED`; it does not use the buffer. -/
def Obligations.SendAddressReadOutcome : Prop :=
  ∀ (s : State) (c : I2cConfig) (address : BitVec 7), s.i2c = some c →
    let b : Byte := BitVec.ofNat 8 (address.toNat * 2 + 1)
    let sent (ending : List Entry) : List Entry :=
      (s.pc, .phyLoad b) :: (s.pc, .phyTxGo) :: ending
    (∀ k, k < s.budget c → s.flagDone 0 k →
      sendAddressRead address s = .ok { s.phyTook (k + 1) 1 0 with
        latches := { s.latches with
          polls := k, st := if s.phaseAt 0 = .addrRAcked then .ok else .notAcked }
        trace := s.trace ++ sent (pollDoneTrace s.pc k ++ [(s.pc, .phyPhase (s.phaseAt 0))]) }) ∧
    (s.flagExpires 0 (s.budget c) →
      sendAddressRead address s = .ok { s.phyTook (s.budget c) 0 0 with
        latches := { s.latches with polls := s.budget c, st := .timeout }
        trace := s.trace ++ sent (pollExpiredTrace s.pc (s.budget c)) })

/-- R67 (S4): with no internal address and every answer favourable, `requestFrom` clamps the quantity to the
buffer capacity and returns exactly that many bytes: START, address with the read bit, the bytes with NACK on
the last only, and the optional STOP. The layout of the address byte and the operand widths are presumed
(assumption 22, G1). -/
def Obligations.RequestFromClampsQuantity : Prop :=
  ∀ (s : State) (c : I2cConfig) (address : BitVec 7) (quantity : Nat) (iaddr : BitVec 24)
    (stop : Bool), s.i2c = some c → 0 < c.timeoutUs →
    let q := min quantity s.params.bufCap
    s.phaseAt 0 ≠ .idleError →
    (s.phaseAt 1 = .startSent ∨ s.phaseAt 1 = .repStartSent) → s.phaseAt 2 = .addrRAcked →
    (∀ j < q, s.phaseAt (j + 3) = .dataRAcked ∨ s.phaseAt (j + 3) = .dataRNacked) →
    (∀ j < q + 2, s.flagAt j = true) →
    ∃ t l, requestFrom address quantity iaddr 0 stop s = .ok (q, t) ∧
      t = { s.phyTook (q + 2) (q + 3) q with
        latches := l, buf := t.buf, rxCur := q
        trace := s.trace ++ (s.pc, .phyPhase (s.phaseAt 0)) :: (s.pc, .phyStart) ::
          (s.pc, .phyFlag true) :: (s.pc, .phyPhase (s.phaseAt 1)) ::
          (s.pc, .phyLoad (BitVec.ofNat 8 (address.toNat * 2 + 1))) :: (s.pc, .phyTxGo) ::
          (s.pc, .phyFlag true) :: (s.pc, .phyPhase .addrRAcked) ::
          (bytesReadTrace s s.pc true q 3 (fun _ => 0) q ++
            (if stop then [(s.pc, .phyStop)] else [])) } ∧
      (∀ j < q, t.buf.read j = some (s.dataAt j)) ∧
      ∀ a, q ≤ a → t.buf.read a = s.buf.read a

/-- R67: on an open, legal bus `requestFrom` never stops and never returns more than the clamped quantity,
for every operand and every answer of the PHY; the count is of bytes that were retrieved, and a short count
comes without a STOP. -/
def Obligations.RequestFromCountsRetrieved : Prop :=
  ∀ (s : State) (c : I2cConfig) (address : BitVec 7) (quantity : Nat) (iaddr : BitVec 24)
    (isize : Nat) (stop : Bool), s.i2c = some c → c.legal = true →
    ∃ n t new, requestFrom address quantity iaddr isize stop s = .ok (n, t) ∧
      t.trace = s.trace ++ new ∧ n ≤ min quantity s.params.bufCap ∧
      n = dataReads new ∧
      (n < min quantity s.params.bufCap → (s.pc, .phyStop) ∉ new) ∧
      t.i2c = s.i2c ∧ t.spi = s.spi ∧ t.params = s.params ∧ t.pc = s.pc

/-- R67 (V7): the write phase with every answer favourable sends the device address with the write bit and
then the low `min isize 3` internal-address bytes, most significant first, after one START and without a
STOP. The layout of the address byte and the operand widths are presumed (assumption 22, G1). -/
def Obligations.RequestFromWritePhaseBytes : Prop :=
  ∀ (s : State) (c : I2cConfig) (address : BitVec 7) (iaddr : BitVec 24) (isize : Nat),
    s.i2c = some c → 0 < c.timeoutUs → 0 < isize →
    let isz := min isize 3
    let bytes : List Byte := BitVec.ofNat 8 (address.toNat * 2) ::
      (List.range isz).map fun j => BitVec.ofNat 8 (iaddr.toNat / 256 ^ (isz - (j + 1)) % 256)
    s.phaseAt 0 ≠ .idleError →
    (s.phaseAt 1 = .startSent ∨ s.phaseAt 1 = .repStartSent) →
    (∀ j < isz + 1, s.phaseAt (j + 2) = .addrWAcked ∨ s.phaseAt (j + 2) = .dataWAcked) →
    (∀ j < isz + 2, s.flagAt j = true) →
    ∃ t l, requestWritePhase address iaddr isize s = .ok t ∧ l.st = .ok ∧
      t = { s.phyTook (isz + 2) (isz + 3) 0 with
        latches := l, buf := t.buf, txCur := isz + 1
        trace := s.trace ++ (s.pc, .phyPhase (s.phaseAt 0)) :: (s.pc, .phyStart) ::
          (s.pc, .phyFlag true) :: (s.pc, .phyPhase (s.phaseAt 1)) ::
          bytesSentTrace s s.pc bytes 2 (fun _ => 0) (isz + 1) } ∧
      (∀ j, (h : j < bytes.length) → t.buf.read j = some bytes[j]) ∧
      ∀ a, isz + 1 ≤ a → t.buf.read a = s.buf.read a

/-! ### The whole machine -/

/-- R14, R16, R18, R19, R20, R21, R22: from every state that meets the invariant, every step gives one that
meets it: between commands, the buffer in canonical form and within its capacity, legal configurations,
cursors within the buffer. -/
def Obligations.EveryStepKeepsInv : Prop :=
  ∀ s t : State, Inv s → step s = .next t → Inv t

/-- The state after reset meets the invariant. -/
def Obligations.ResetMeetsInv : Prop := Inv State.reset

/-- R18, R20, R59, R60, R85, R86: the block's record of the I2C clock and the SPI divisor is what it last told
the hardware: it holds after power-on, and every step without the reset input keeps it. (An external reset
closes a bus without telling the hardware, R118.) -/
def Obligations.ConfigurationMirrorsHardware : Prop :=
  Mirrors State.reset ∧
    ∀ s t : State, Mirrors s → Consistent s → s.env.resetIn = none → step s = .next t → Mirrors t

/-- R22, R109: nothing is fatal: from a state that meets the invariant no step ends in a fault; no buffer
access is out of range, and no configuration value is read that is not there. -/
def Obligations.NoStepFaults : Prop :=
  ∀ (s : State) (f : Fault), Inv s → step s ≠ .fault f

/-- R84, R119, R120, R121: the refusals, all of them: the I2C bus commands on a closed I2C bus and the SPI
bus commands on a closed SPI bus; no other command is ever refused. -/
def Obligations.RefusedExactlyOnClosedBus : Prop :=
  ∀ (i : Instr) (s : State) (r : Refusal), exec i s = .refused r ↔
    (i ∈ [Instr.i2cRead, .i2cWrite, .i2cStart, .i2cStop] ∧ s.i2cOpen = false ∧ r = .i2cBusClosed) ∨
    (i ∈ [Instr.spiSelect, .spiRelease, .spiRead, .spiWrite] ∧ s.spiOpen = false ∧
      r = .spiBusClosed)

/-- R80, R100, Q1: whatever a command does, what it adds to the trace ends with exactly one terminating
byte, written at `RESPOND`, and that byte is one of those R100 lists for the command; nothing recorded before
is lost, and the block is at `AWAIT_OPCODE` again. That the first two operations of a link test are not issued at
`RESPOND` is the model's choice (assumption 11). -/
def Obligations.OneTerminatingBytePerCommand : Prop :=
  ∀ (i : Instr) (s t : State), exec i s = .next t →
    t.pc = .awaitOpcode ∧ t.params = s.params ∧
    ∃ body r, t.trace = s.trace ++ body ++ [(.respond, .trWrite [r])] ∧
      (∀ e ∈ body, e.1 ≠ Pc.respond) ∧
      r ∈ match i with
        | .spiInit => [(7 : Byte), 98, 99]
        | .spiDeinit => [8]
        | .spiSelect => [9]
        | .spiRelease => [10]
        | .spiRead => [11, 98, 99]
        | .spiWrite => [12, 98, 99]
        | .spiTest => [13, 98, 99]
        | .i2cInit => [20, 98, 99]
        | .i2cDeinit => [21]
        | .i2cRead => [22, 97, 98, 99]
        | .i2cWrite => [23, 97, 98, 99]
        | .i2cStart => [24, 97]
        | .i2cStop => [25]
        | .i2cTest => [28, 98, 99]
        | .nosuch _ => [100]

/-- R76, R77, R78, R81, R106, Q2: a frame that ends in 98, 99 or 100 has touched no bus and leaves the
buffer, both configurations and the cursors unchanged. -/
def Obligations.RejectedFramesTouchNoBus : Prop :=
  ∀ (i : Instr) (s t : State) (r : Byte), exec i s = .next t → r ∈ [(98 : Byte), 99, 100] →
    i.wf = true → t.trace.getLast? = some (.respond, .trWrite [r]) →
    t.buf = s.buf ∧ t.i2c = s.i2c ∧ t.spi = s.spi ∧ t.txCur = s.txCur ∧ t.rxCur = s.rxCur ∧
    ∃ new, t.trace = s.trace ++ new ∧ ∀ e ∈ new, e.2.isPhy = false ∧ e.2.isSpi = false

/-- R50: in the formats with an early echo, the parameters are read first; then either the frame ends at
once with 98 or 99, or the early echo is the very next operation, before any payload and any bus
operation. -/
def Obligations.EarlyEchoBeforePayloadAndBus : Prop :=
  ∀ (i : Instr) (s t : State),
    i.format = .rd1 ∨ i.format = .rd2 ∨ i.format = .wr → exec i s = .next t →
    ∃ got rest, t.trace =
        s.trace ++ (Pc.readParams, Event.trRead i.format.paramCount got) :: rest ∧
      ((∃ r, r ∈ [(98 : Byte), 99] ∧ rest = [(.respond, .trWrite [r])]) ∨
        ∃ more, rest = (.earlyEcho, .trWrite [i.opcode]) :: more)

/-- R71, R131, Q3: how often a command reads the completion flag: `I2C_START` at most one budget, `I2C_READ`
and `I2C_WRITE` at most 32 budgets; the others never. -/
def Obligations.FlagReadsBounded : Prop :=
  ∀ (i : Instr) (s t : State), Consistent s → exec i s = .next t →
    ∃ new, t.trace = s.trace ++ new ∧
      match i with
      | .i2cStart => ∀ c, s.i2c = some c → flagReads new ≤ s.budget c
      | .i2cRead | .i2cWrite => ∀ c, s.i2c = some c → flagReads new ≤ 32 * s.budget c
      | .spiInit | .spiDeinit | .spiSelect | .spiRelease | .spiRead | .spiWrite | .spiTest
      | .i2cInit | .i2cDeinit | .i2cStop | .i2cTest | .nosuch _ => flagReads new = 0

/-- R59, R60, R62, R69, Q4: the bus hardware is disabled by `I2C_DEINIT` alone and initialised by `I2C_INIT`
and by `I2C_START` after it read idle-with-error alone; no failing command disables it or sends a STOP. -/
def Obligations.PhyInitAndOffOnlyWhereStated : Prop :=
  ∀ (i : Instr) (s t : State), exec i s = .next t →
    ∃ new, t.trace = s.trace ++ new ∧
      (∀ e ∈ new, e.2 = .phyOff → i = .i2cDeinit) ∧
      (∀ e ∈ new, e.2 = .phyStop → i = .i2cStop) ∧
      (∀ e ∈ new, ∀ hz, e.2 = .phyInit hz →
        i = .i2cInit ∨ (i = .i2cStart ∧ s.phaseAt 0 = .idleError))

/-- R16, R30, Q8: the I2C configuration changes only through `I2C_INIT` and `I2C_DEINIT`, the SPI
configuration only through `SPI_INIT` and `SPI_DEINIT`; the bus is open after such a command only if it was
an `INIT` that answered its opcode, or was open before and was rejected. -/
def Obligations.ConfigurationChangesOnlyByInitAndDeinit : Prop :=
  ∀ (i : Instr) (s t : State), Consistent s → exec i s = .next t →
    (t.i2c ≠ s.i2c →
      (i = .i2cInit ∧ t.i2cOpen = true ∧ t.trace.getLast? = some (.respond, .trWrite [20])) ∨
      (i = .i2cDeinit ∧ t.i2cOpen = false)) ∧
    (t.spi ≠ s.spi →
      (i = .spiInit ∧ t.spiOpen = true ∧ t.trace.getLast? = some (.respond, .trWrite [7])) ∨
      (i = .spiDeinit ∧ t.spiOpen = false))

/-- R12, R28, R87, R88: the select line is asserted by `SPI_SELECT` and released by `SPI_RELEASE`, and no
other command moves it. -/
def Obligations.SelectLineMovedOnlyBySelectAndRelease : Prop :=
  ∀ (i : Instr) (s t : State), exec i s = .next t →
    selectLine t.trace = if i = .spiSelect then some true else if i = .spiRelease then some false
      else selectLine s.trace

/-- R120: the two buses are independent: an SPI-domain command issues no PHY operation and leaves the I2C
configuration and the cursors alone; an I2C-domain command issues no SPI operation and leaves the SPI
configuration alone. -/
def Obligations.BusDomainsIndependent : Prop :=
  ∀ (i : Instr) (s t : State), exec i s = .next t →
    ∃ new, t.trace = s.trace ++ new ∧
      (i ∈ [Instr.spiInit, .spiDeinit, .spiSelect, .spiRelease, .spiRead, .spiWrite, .spiTest] →
        t.i2c = s.i2c ∧ t.txCur = s.txCur ∧ t.rxCur = s.rxCur ∧ ∀ e ∈ new, e.2.isPhy = false) ∧
      (i ∈ [Instr.i2cInit, .i2cDeinit, .i2cRead, .i2cWrite, .i2cStart, .i2cStop, .i2cTest] →
        t.spi = s.spi ∧ ∀ e ∈ new, e.2.isSpi = false)

/-- R13, R17, R102: the latches are dead between commands: two steps from states that differ at most in the
latches do the same and lead to states that differ at most in the latches, so no error, status or parameter
of one command is seen by a later one. -/
def Obligations.LatchesDeadBetweenCommands : Prop :=
  ∀ (s : State) (l : Latches),
    agreeButLatches (step s) (step { s with latches := l })

/-- R22, R42: no command depends on what an earlier one left in the buffer: from states that differ at most in
the buffer a step does the same at every interface and leads to states that differ at most in the buffer. R22
exempts the payload of a failed `I2C_READ`; that it too does not depend on the old contents is the model's
choice, which makes it free bytes (assumption 7, U2). -/
def Obligations.BufferContentsDeadBetweenCommands : Prop :=
  ∀ (s : State) (m : Memory),
    match step s, step { s with buf := m } with
    | .next t, .next u => ∃ m', u = { t with buf := m' }
    | .fault f, .fault g => f = g
    | .refused r, .refused q => r = q
    | _, _ => False
end

