-- ==== Sys2Proof/Laws/Answers.lean ====
section
/-! SUPPORT. The environment's answers: a read takes the answer that `peek` names, and what is left is what
`skip` names; runs of host bytes and of SPI bytes. -/

namespace Sys2Proof.Machine

open Sys2Proof

namespace Answers

variable {α : Type} (free : Nat → α) (a : Answers α)

@[simp] theorem skip_zero : a.skip 0 = a := by
  cases a; simp [skip]

@[simp] theorem skip_skip (m n : Nat) : (a.skip m).skip n = a.skip (m + n) := by
  simp only [skip, List.drop_drop, List.length_drop, Answers.mk.injEq, true_and]
  omega

@[simp] theorem peek_skip (m k : Nat) : (a.skip m).peek free k = a.peek free (m + k) := by
  simp only [peek, skip, List.getElem?_drop, List.length_drop]
  cases h : a.queue[m + k]? with
  | some x => rfl
  | none =>
    have := List.getElem?_eq_none_iff.mp h
    simp only
    congr 1
    omega

/-- A read takes the answer `peek` names and leaves what `skip` names. -/
theorem next_eq : a.next free = (a.peek free 0, a.skip 1) := by
  obtain ⟨q, d⟩ := a
  cases q <;> simp [next, peek, skip]

end Answers

/-- The host bytes of `bs` arrive: a read of that many bytes answers them. -/
theorem hostRun_sends (bs : List Byte) (a : Answers HostEvent)
    (h : ∀ k, (hk : k < bs.length) → a.peek Config.freeHost k = .byte bs[k]) :
    hostRun bs.length a = (bs, a.skip bs.length) := by
  induction bs generalizing a with
  | nil => simp [hostRun]
  | cons b bs ih =>
    have h0 := h 0 (by simp)
    have hr := ih (a.skip 1) fun k hk => by
      have := h (k + 1) (by simpa using hk)
      simpa [Nat.add_comm] using this
    simp only [List.getElem_cons_zero] at h0
    simp only [List.length_cons, hostRun, Answers.next_eq, h0, hr, Answers.skip_skip]
    rw [Nat.add_comm 1]

/-- The host falls silent after `bs`: a longer read answers just them. -/
theorem hostRun_stops (bs : List Byte) (a : Answers HostEvent) (n : Nat) (hn : bs.length < n)
    (h : ∀ k, (hk : k < bs.length) → a.peek Config.freeHost k = .byte bs[k])
    (ht : a.peek Config.freeHost bs.length = .timeout) :
    hostRun n a = (bs, a.skip (bs.length + 1)) := by
  induction bs generalizing a n with
  | nil =>
    obtain ⟨n, rfl⟩ : ∃ m, n = m + 1 := ⟨n - 1, by simp at hn; omega⟩
    simp only [List.length_nil] at ht
    simp [hostRun, Answers.next_eq, ht]
  | cons b bs ih =>
    obtain ⟨n, rfl⟩ : ∃ m, n = m + 1 := ⟨n - 1, by simp at hn; omega⟩
    have h0 := h 0 (by simp)
    have hr := ih (a.skip 1) n (by simpa using hn)
      (fun k hk => by
        have := h (k + 1) (by simpa using hk)
        simpa [Nat.add_comm] using this)
      (by simpa [Nat.add_comm] using ht)
    simp only [List.getElem_cons_zero] at h0
    simp only [hostRun, Answers.next_eq, h0, hr, Answers.skip_skip, List.length_cons]
    rw [Nat.add_comm 1, Nat.add_right_comm]

/-- Whatever the environment does, `n` bytes arrive or fewer do and then a read times out. -/
theorem host_arrivals (n : Nat) (a : Answers HostEvent) :
    ∃ bs : List Byte, (∀ k, (hk : k < bs.length) → a.peek Config.freeHost k = .byte bs[k]) ∧
      (bs.length = n ∨ bs.length < n ∧ a.peek Config.freeHost bs.length = .timeout) := by
  induction n generalizing a with
  | zero => exact ⟨[], by simp, .inl rfl⟩
  | succ n ih =>
    cases h0 : a.peek Config.freeHost 0 with
    | timeout => exact ⟨[], by simp, .inr ⟨by simp, h0⟩⟩
    | byte b =>
      obtain ⟨bs, hb, hc⟩ := ih (a.skip 1)
      refine ⟨b :: bs, ?_, ?_⟩
      · intro k hk
        cases k with
        | zero => simpa using h0
        | succ k => simpa [Nat.add_comm] using hb k (by simpa using hk)
      · rcases hc with hc | ⟨hl, ht⟩
        · exact .inl (by simp [hc])
        · exact .inr ⟨by simpa using hl, by simpa [Nat.add_comm] using ht⟩

/-- What a host read answers, whatever the environment does: the bytes that arrive, all or those before the
host fell silent. -/
theorem hostRun_cases (n : Nat) (a : Answers HostEvent) :
    ∃ bs : List Byte, (∀ k, (hk : k < bs.length) → a.peek Config.freeHost k = .byte bs[k]) ∧
      (bs.length = n ∧ hostRun n a = (bs, a.skip n) ∨
        bs.length < n ∧ a.peek Config.freeHost bs.length = .timeout ∧
          hostRun n a = (bs, a.skip (bs.length + 1))) := by
  obtain ⟨bs, hb, hc⟩ := host_arrivals n a
  refine ⟨bs, hb, ?_⟩
  rcases hc with hc | ⟨hl, ht⟩
  · exact .inl ⟨hc, hc ▸ hostRun_sends bs a hb⟩
  · exact .inr ⟨hl, ht, hostRun_stops bs a n hl hb ht⟩

/-- What an SPI run answers. -/
theorem spiRun_eq (n : Nat) (a : Answers Byte) :
    spiRun n a = ((List.range n).map (a.peek Config.freeSpi), a.skip n) := by
  induction n generalizing a with
  | zero => simp [spiRun]
  | succ n ih =>
    simp only [spiRun, Answers.next_eq, ih, Answers.skip_skip, List.range_succ_eq_map,
      List.map_cons, List.map_map, Nat.add_comm 1]
    refine Prod.ext ?_ rfl
    simp only [List.cons.injEq, true_and]
    refine List.map_congr_left fun k _ => ?_
    simp [Nat.add_comm]

end Sys2Proof.Machine
end

