-- ==== Sys2Proof/Laws/Memory.lean ====
section
/-! SUPPORT. The buffer: a read after a write gives the byte written and every other index is left alone;
every operation keeps the canonical form and adds no index but those written. -/

namespace Sys2Proof.Machine.Memory

open Sys2Proof

theorem read_write_self (m : Memory) (a : Nat) (v : Byte) : (write m a v).read a = some v := by
  induction m with
  | nil => simp [write, read]
  | cons c m ih =>
    obtain ⟨b, w⟩ := c
    simp only [write]
    split
    · simp [read]
    · split
      · simp [read]
      · simp_all [read]

theorem read_write_ne (m : Memory) {a i : Nat} (v : Byte) (h : i ≠ a) :
    (write m a v).read i = m.read i := by
  induction m with
  | nil => simp [write, read, h]
  | cons c m ih =>
    obtain ⟨b, w⟩ := c
    simp only [write]
    split
    · simp [read, h]
    · split
      · next hab => subst hab; simp [read, h]
      · simp [read, ih]

theorem read_write (m : Memory) (a i : Nat) (v : Byte) :
    (write m a v).read i = if i = a then some v else m.read i := by
  split
  · next h => rw [h, read_write_self]
  · next h => exact read_write_ne m v h

/-- Outside the run written, every index reads as before. -/
theorem read_writeRun_outside (vs : List Byte) (m : Memory) {a i : Nat}
    (h : i < a ∨ a + vs.length ≤ i) : (writeRun m a vs).read i = m.read i := by
  induction vs generalizing m a with
  | nil => rfl
  | cons v vs ih =>
    simp only [List.length_cons] at h
    rw [writeRun, ih _ (by omega), read_write_ne _ _ (by omega)]

/-- Inside the run written, every index reads as the byte written there. -/
theorem read_writeRun_inside (vs : List Byte) (m : Memory) (a k : Nat) (h : k < vs.length) :
    (writeRun m a vs).read (a + k) = some vs[k] := by
  induction vs generalizing m a k with
  | nil => simp at h
  | cons v vs ih =>
    rw [writeRun]
    cases k with
    | zero =>
      rw [read_writeRun_outside _ _ (by omega)]
      simp [read_write_self]
    | succ k =>
      have := ih (write m a v) (a + 1) k (by simpa using h)
      rw [Nat.add_right_comm] at this
      simpa [Nat.add_assoc] using this

/-- The indices a write leaves listed. -/
theorem mem_fst_write {m : Memory} {a i : Nat} {v : Byte} :
    i ∈ (write m a v).map Prod.fst ↔ i = a ∨ i ∈ m.map Prod.fst := by
  induction m with
  | nil => simp [write]
  | cons c m ih =>
    obtain ⟨b, w⟩ := c
    simp only [write]
    split
    · simp
    · split
      · next h => simp [h]
      · simp only [List.map_cons, List.mem_cons, ih]; tauto

theorem mem_fst_writeRun {vs : List Byte} {m : Memory} {a i : Nat} :
    i ∈ (writeRun m a vs).map Prod.fst ↔
      (a ≤ i ∧ i < a + vs.length) ∨ i ∈ m.map Prod.fst := by
  induction vs generalizing m a with
  | nil => simp only [writeRun, List.length_nil]; constructor <;> intro h <;> [exact .inr h; (rcases h with h | h; omega; exact h)]
  | cons v vs ih =>
    simp only [writeRun, ih, mem_fst_write, List.length_cons]
    constructor
    · rintro (h | rfl | h)
      · left; omega
      · left; omega
      · exact .inr h
    · rintro (h | h)
      · by_cases hi : i = a
        · exact .inr (.inl hi)
        · left; omega
      · exact .inr (.inr h)

/-- A write keeps the canonical form. -/
theorem wf_write {m : Memory} (h : m.wf) (a : Nat) (v : Byte) : (write m a v).wf := by
  induction m with
  | nil => simp [write, wf]
  | cons c m ih =>
    obtain ⟨b, w⟩ := c
    have hb : ∀ i ∈ m.map Prod.fst, b < i := by simpa [wf] using (List.pairwise_cons.mp h).1
    have hm : wf m := (List.pairwise_cons.mp h).2
    simp only [write]
    split
    · next hab =>
      refine List.pairwise_cons.mpr ⟨?_, h⟩
      intro i hi
      rcases List.mem_cons.mp hi with rfl | hi
      · exact hab
      · exact Nat.lt_trans hab (hb i hi)
    · split
      · next hab => subst hab; exact List.pairwise_cons.mpr ⟨hb, hm⟩
      · refine List.pairwise_cons.mpr ⟨?_, ih hm⟩
        intro i hi
        rcases mem_fst_write.mp hi with rfl | hi
        · show b < i; omega
        · exact hb i hi

theorem wf_writeRun {m : Memory} (h : m.wf) (a : Nat) (vs : List Byte) : (writeRun m a vs).wf := by
  induction vs generalizing m a with
  | nil => exact h
  | cons v vs ih => exact ih (wf_write h a v) (a + 1)

/-- The buffer after reset has the canonical form. -/
theorem wf_reset : State.reset.buf.wf := by simp [State.reset, wf]

end Sys2Proof.Machine.Memory
end

