-- ==== Sys2Proof/Laws/State.lean ====
section
/-! SUPPORT. One lemma per field per update of the state, each true by rfl: the updates of Machine/Ops.lean
never need to be unfolded. -/

namespace Sys2Proof.Machine.State

open Sys2Proof

variable (s : State)

/-! ### setPc -/

@[simp] theorem setPc_params (p : Pc) : (s.setPc p).params = s.params := rfl
@[simp] theorem setPc_pc (p : Pc) : (s.setPc p).pc = p := rfl
@[simp] theorem setPc_latches (p : Pc) : (s.setPc p).latches = s.latches := rfl
@[simp] theorem setPc_i2c (p : Pc) : (s.setPc p).i2c = s.i2c := rfl
@[simp] theorem setPc_spi (p : Pc) : (s.setPc p).spi = s.spi := rfl
@[simp] theorem setPc_txCur (p : Pc) : (s.setPc p).txCur = s.txCur := rfl
@[simp] theorem setPc_rxCur (p : Pc) : (s.setPc p).rxCur = s.rxCur := rfl
@[simp] theorem setPc_buf (p : Pc) : (s.setPc p).buf = s.buf := rfl
@[simp] theorem setPc_env (p : Pc) : (s.setPc p).env = s.env := rfl
@[simp] theorem setPc_trace (p : Pc) : (s.setPc p).trace = s.trace := rfl

/-! ### setOp -/

@[simp] theorem setOp_params (b : Byte) : (s.setOp b).params = s.params := rfl
@[simp] theorem setOp_pc (b : Byte) : (s.setOp b).pc = s.pc := rfl
@[simp] theorem setOp_latches (b : Byte) : (s.setOp b).latches = { s.latches with op := b } := rfl
@[simp] theorem setOp_i2c (b : Byte) : (s.setOp b).i2c = s.i2c := rfl
@[simp] theorem setOp_spi (b : Byte) : (s.setOp b).spi = s.spi := rfl
@[simp] theorem setOp_txCur (b : Byte) : (s.setOp b).txCur = s.txCur := rfl
@[simp] theorem setOp_rxCur (b : Byte) : (s.setOp b).rxCur = s.rxCur := rfl
@[simp] theorem setOp_buf (b : Byte) : (s.setOp b).buf = s.buf := rfl
@[simp] theorem setOp_env (b : Byte) : (s.setOp b).env = s.env := rfl
@[simp] theorem setOp_trace (b : Byte) : (s.setOp b).trace = s.trace := rfl

/-! ### setLen -/

@[simp] theorem setLen_params (b : Byte) : (s.setLen b).params = s.params := rfl
@[simp] theorem setLen_pc (b : Byte) : (s.setLen b).pc = s.pc := rfl
@[simp] theorem setLen_latches (b : Byte) : (s.setLen b).latches = { s.latches with len := b } := rfl
@[simp] theorem setLen_i2c (b : Byte) : (s.setLen b).i2c = s.i2c := rfl
@[simp] theorem setLen_spi (b : Byte) : (s.setLen b).spi = s.spi := rfl
@[simp] theorem setLen_txCur (b : Byte) : (s.setLen b).txCur = s.txCur := rfl
@[simp] theorem setLen_rxCur (b : Byte) : (s.setLen b).rxCur = s.rxCur := rfl
@[simp] theorem setLen_buf (b : Byte) : (s.setLen b).buf = s.buf := rfl
@[simp] theorem setLen_env (b : Byte) : (s.setLen b).env = s.env := rfl
@[simp] theorem setLen_trace (b : Byte) : (s.setLen b).trace = s.trace := rfl

/-! ### setFlag -/

@[simp] theorem setFlag_params (b : Bool) : (s.setFlag b).params = s.params := rfl
@[simp] theorem setFlag_pc (b : Bool) : (s.setFlag b).pc = s.pc := rfl
@[simp] theorem setFlag_latches (b : Bool) : (s.setFlag b).latches = { s.latches with flag := b } := rfl
@[simp] theorem setFlag_i2c (b : Bool) : (s.setFlag b).i2c = s.i2c := rfl
@[simp] theorem setFlag_spi (b : Bool) : (s.setFlag b).spi = s.spi := rfl
@[simp] theorem setFlag_txCur (b : Bool) : (s.setFlag b).txCur = s.txCur := rfl
@[simp] theorem setFlag_rxCur (b : Bool) : (s.setFlag b).rxCur = s.rxCur := rfl
@[simp] theorem setFlag_buf (b : Bool) : (s.setFlag b).buf = s.buf := rfl
@[simp] theorem setFlag_env (b : Bool) : (s.setFlag b).env = s.env := rfl
@[simp] theorem setFlag_trace (b : Bool) : (s.setFlag b).trace = s.trace := rfl

/-! ### setIdx -/

@[simp] theorem setIdx_params (n : Nat) : (s.setIdx n).params = s.params := rfl
@[simp] theorem setIdx_pc (n : Nat) : (s.setIdx n).pc = s.pc := rfl
@[simp] theorem setIdx_latches (n : Nat) : (s.setIdx n).latches = { s.latches with idx := n } := rfl
@[simp] theorem setIdx_i2c (n : Nat) : (s.setIdx n).i2c = s.i2c := rfl
@[simp] theorem setIdx_spi (n : Nat) : (s.setIdx n).spi = s.spi := rfl
@[simp] theorem setIdx_txCur (n : Nat) : (s.setIdx n).txCur = s.txCur := rfl
@[simp] theorem setIdx_rxCur (n : Nat) : (s.setIdx n).rxCur = s.rxCur := rfl
@[simp] theorem setIdx_buf (n : Nat) : (s.setIdx n).buf = s.buf := rfl
@[simp] theorem setIdx_env (n : Nat) : (s.setIdx n).env = s.env := rfl
@[simp] theorem setIdx_trace (n : Nat) : (s.setIdx n).trace = s.trace := rfl

/-! ### setPolls -/

@[simp] theorem setPolls_params (n : Nat) : (s.setPolls n).params = s.params := rfl
@[simp] theorem setPolls_pc (n : Nat) : (s.setPolls n).pc = s.pc := rfl
@[simp] theorem setPolls_latches (n : Nat) : (s.setPolls n).latches = { s.latches with polls := n } := rfl
@[simp] theorem setPolls_i2c (n : Nat) : (s.setPolls n).i2c = s.i2c := rfl
@[simp] theorem setPolls_spi (n : Nat) : (s.setPolls n).spi = s.spi := rfl
@[simp] theorem setPolls_txCur (n : Nat) : (s.setPolls n).txCur = s.txCur := rfl
@[simp] theorem setPolls_rxCur (n : Nat) : (s.setPolls n).rxCur = s.rxCur := rfl
@[simp] theorem setPolls_buf (n : Nat) : (s.setPolls n).buf = s.buf := rfl
@[simp] theorem setPolls_env (n : Nat) : (s.setPolls n).env = s.env := rfl
@[simp] theorem setPolls_trace (n : Nat) : (s.setPolls n).trace = s.trace := rfl

/-! ### setSt -/

@[simp] theorem setSt_params (x : Status) : (s.setSt x).params = s.params := rfl
@[simp] theorem setSt_pc (x : Status) : (s.setSt x).pc = s.pc := rfl
@[simp] theorem setSt_latches (x : Status) : (s.setSt x).latches = { s.latches with st := x } := rfl
@[simp] theorem setSt_i2c (x : Status) : (s.setSt x).i2c = s.i2c := rfl
@[simp] theorem setSt_spi (x : Status) : (s.setSt x).spi = s.spi := rfl
@[simp] theorem setSt_txCur (x : Status) : (s.setSt x).txCur = s.txCur := rfl
@[simp] theorem setSt_rxCur (x : Status) : (s.setSt x).rxCur = s.rxCur := rfl
@[simp] theorem setSt_buf (x : Status) : (s.setSt x).buf = s.buf := rfl
@[simp] theorem setSt_env (x : Status) : (s.setSt x).env = s.env := rfl
@[simp] theorem setSt_trace (x : Status) : (s.setSt x).trace = s.trace := rfl

/-! ### setI2c -/

@[simp] theorem setI2c_params (c : Option I2cConfig) : (s.setI2c c).params = s.params := rfl
@[simp] theorem setI2c_pc (c : Option I2cConfig) : (s.setI2c c).pc = s.pc := rfl
@[simp] theorem setI2c_latches (c : Option I2cConfig) : (s.setI2c c).latches = s.latches := rfl
@[simp] theorem setI2c_i2c (c : Option I2cConfig) : (s.setI2c c).i2c = c := rfl
@[simp] theorem setI2c_spi (c : Option I2cConfig) : (s.setI2c c).spi = s.spi := rfl
@[simp] theorem setI2c_txCur (c : Option I2cConfig) : (s.setI2c c).txCur = s.txCur := rfl
@[simp] theorem setI2c_rxCur (c : Option I2cConfig) : (s.setI2c c).rxCur = s.rxCur := rfl
@[simp] theorem setI2c_buf (c : Option I2cConfig) : (s.setI2c c).buf = s.buf := rfl
@[simp] theorem setI2c_env (c : Option I2cConfig) : (s.setI2c c).env = s.env := rfl
@[simp] theorem setI2c_trace (c : Option I2cConfig) : (s.setI2c c).trace = s.trace := rfl

/-! ### setSpi -/

@[simp] theorem setSpi_params (c : Option SpiConfig) : (s.setSpi c).params = s.params := rfl
@[simp] theorem setSpi_pc (c : Option SpiConfig) : (s.setSpi c).pc = s.pc := rfl
@[simp] theorem setSpi_latches (c : Option SpiConfig) : (s.setSpi c).latches = s.latches := rfl
@[simp] theorem setSpi_i2c (c : Option SpiConfig) : (s.setSpi c).i2c = s.i2c := rfl
@[simp] theorem setSpi_spi (c : Option SpiConfig) : (s.setSpi c).spi = c := rfl
@[simp] theorem setSpi_txCur (c : Option SpiConfig) : (s.setSpi c).txCur = s.txCur := rfl
@[simp] theorem setSpi_rxCur (c : Option SpiConfig) : (s.setSpi c).rxCur = s.rxCur := rfl
@[simp] theorem setSpi_buf (c : Option SpiConfig) : (s.setSpi c).buf = s.buf := rfl
@[simp] theorem setSpi_env (c : Option SpiConfig) : (s.setSpi c).env = s.env := rfl
@[simp] theorem setSpi_trace (c : Option SpiConfig) : (s.setSpi c).trace = s.trace := rfl

/-! ### setTxCur -/

@[simp] theorem setTxCur_params (n : Nat) : (s.setTxCur n).params = s.params := rfl
@[simp] theorem setTxCur_pc (n : Nat) : (s.setTxCur n).pc = s.pc := rfl
@[simp] theorem setTxCur_latches (n : Nat) : (s.setTxCur n).latches = s.latches := rfl
@[simp] theorem setTxCur_i2c (n : Nat) : (s.setTxCur n).i2c = s.i2c := rfl
@[simp] theorem setTxCur_spi (n : Nat) : (s.setTxCur n).spi = s.spi := rfl
@[simp] theorem setTxCur_txCur (n : Nat) : (s.setTxCur n).txCur = n := rfl
@[simp] theorem setTxCur_rxCur (n : Nat) : (s.setTxCur n).rxCur = s.rxCur := rfl
@[simp] theorem setTxCur_buf (n : Nat) : (s.setTxCur n).buf = s.buf := rfl
@[simp] theorem setTxCur_env (n : Nat) : (s.setTxCur n).env = s.env := rfl
@[simp] theorem setTxCur_trace (n : Nat) : (s.setTxCur n).trace = s.trace := rfl

/-! ### setRxCur -/

@[simp] theorem setRxCur_params (n : Nat) : (s.setRxCur n).params = s.params := rfl
@[simp] theorem setRxCur_pc (n : Nat) : (s.setRxCur n).pc = s.pc := rfl
@[simp] theorem setRxCur_latches (n : Nat) : (s.setRxCur n).latches = s.latches := rfl
@[simp] theorem setRxCur_i2c (n : Nat) : (s.setRxCur n).i2c = s.i2c := rfl
@[simp] theorem setRxCur_spi (n : Nat) : (s.setRxCur n).spi = s.spi := rfl
@[simp] theorem setRxCur_txCur (n : Nat) : (s.setRxCur n).txCur = s.txCur := rfl
@[simp] theorem setRxCur_rxCur (n : Nat) : (s.setRxCur n).rxCur = n := rfl
@[simp] theorem setRxCur_buf (n : Nat) : (s.setRxCur n).buf = s.buf := rfl
@[simp] theorem setRxCur_env (n : Nat) : (s.setRxCur n).env = s.env := rfl
@[simp] theorem setRxCur_trace (n : Nat) : (s.setRxCur n).trace = s.trace := rfl

/-! ### setBuf -/

@[simp] theorem setBuf_params (m : Memory) : (s.setBuf m).params = s.params := rfl
@[simp] theorem setBuf_pc (m : Memory) : (s.setBuf m).pc = s.pc := rfl
@[simp] theorem setBuf_latches (m : Memory) : (s.setBuf m).latches = s.latches := rfl
@[simp] theorem setBuf_i2c (m : Memory) : (s.setBuf m).i2c = s.i2c := rfl
@[simp] theorem setBuf_spi (m : Memory) : (s.setBuf m).spi = s.spi := rfl
@[simp] theorem setBuf_txCur (m : Memory) : (s.setBuf m).txCur = s.txCur := rfl
@[simp] theorem setBuf_rxCur (m : Memory) : (s.setBuf m).rxCur = s.rxCur := rfl
@[simp] theorem setBuf_buf (m : Memory) : (s.setBuf m).buf = m := rfl
@[simp] theorem setBuf_env (m : Memory) : (s.setBuf m).env = s.env := rfl
@[simp] theorem setBuf_trace (m : Memory) : (s.setBuf m).trace = s.trace := rfl

/-! ### setHost -/

@[simp] theorem setHost_params (a : Answers HostEvent) : (s.setHost a).params = s.params := rfl
@[simp] theorem setHost_pc (a : Answers HostEvent) : (s.setHost a).pc = s.pc := rfl
@[simp] theorem setHost_latches (a : Answers HostEvent) : (s.setHost a).latches = s.latches := rfl
@[simp] theorem setHost_i2c (a : Answers HostEvent) : (s.setHost a).i2c = s.i2c := rfl
@[simp] theorem setHost_spi (a : Answers HostEvent) : (s.setHost a).spi = s.spi := rfl
@[simp] theorem setHost_txCur (a : Answers HostEvent) : (s.setHost a).txCur = s.txCur := rfl
@[simp] theorem setHost_rxCur (a : Answers HostEvent) : (s.setHost a).rxCur = s.rxCur := rfl
@[simp] theorem setHost_buf (a : Answers HostEvent) : (s.setHost a).buf = s.buf := rfl
@[simp] theorem setHost_env (a : Answers HostEvent) : (s.setHost a).env = { s.env with host := a } := rfl
@[simp] theorem setHost_trace (a : Answers HostEvent) : (s.setHost a).trace = s.trace := rfl

/-! ### setFlags -/

@[simp] theorem setFlags_params (a : Answers Bool) : (s.setFlags a).params = s.params := rfl
@[simp] theorem setFlags_pc (a : Answers Bool) : (s.setFlags a).pc = s.pc := rfl
@[simp] theorem setFlags_latches (a : Answers Bool) : (s.setFlags a).latches = s.latches := rfl
@[simp] theorem setFlags_i2c (a : Answers Bool) : (s.setFlags a).i2c = s.i2c := rfl
@[simp] theorem setFlags_spi (a : Answers Bool) : (s.setFlags a).spi = s.spi := rfl
@[simp] theorem setFlags_txCur (a : Answers Bool) : (s.setFlags a).txCur = s.txCur := rfl
@[simp] theorem setFlags_rxCur (a : Answers Bool) : (s.setFlags a).rxCur = s.rxCur := rfl
@[simp] theorem setFlags_buf (a : Answers Bool) : (s.setFlags a).buf = s.buf := rfl
@[simp] theorem setFlags_env (a : Answers Bool) : (s.setFlags a).env = { s.env with flags := a } := rfl
@[simp] theorem setFlags_trace (a : Answers Bool) : (s.setFlags a).trace = s.trace := rfl

/-! ### setPhases -/

@[simp] theorem setPhases_params (a : Answers Phase) : (s.setPhases a).params = s.params := rfl
@[simp] theorem setPhases_pc (a : Answers Phase) : (s.setPhases a).pc = s.pc := rfl
@[simp] theorem setPhases_latches (a : Answers Phase) : (s.setPhases a).latches = s.latches := rfl
@[simp] theorem setPhases_i2c (a : Answers Phase) : (s.setPhases a).i2c = s.i2c := rfl
@[simp] theorem setPhases_spi (a : Answers Phase) : (s.setPhases a).spi = s.spi := rfl
@[simp] theorem setPhases_txCur (a : Answers Phase) : (s.setPhases a).txCur = s.txCur := rfl
@[simp] theorem setPhases_rxCur (a : Answers Phase) : (s.setPhases a).rxCur = s.rxCur := rfl
@[simp] theorem setPhases_buf (a : Answers Phase) : (s.setPhases a).buf = s.buf := rfl
@[simp] theorem setPhases_env (a : Answers Phase) : (s.setPhases a).env = { s.env with phases := a } := rfl
@[simp] theorem setPhases_trace (a : Answers Phase) : (s.setPhases a).trace = s.trace := rfl

/-! ### setData -/

@[simp] theorem setData_params (a : Answers Byte) : (s.setData a).params = s.params := rfl
@[simp] theorem setData_pc (a : Answers Byte) : (s.setData a).pc = s.pc := rfl
@[simp] theorem setData_latches (a : Answers Byte) : (s.setData a).latches = s.latches := rfl
@[simp] theorem setData_i2c (a : Answers Byte) : (s.setData a).i2c = s.i2c := rfl
@[simp] theorem setData_spi (a : Answers Byte) : (s.setData a).spi = s.spi := rfl
@[simp] theorem setData_txCur (a : Answers Byte) : (s.setData a).txCur = s.txCur := rfl
@[simp] theorem setData_rxCur (a : Answers Byte) : (s.setData a).rxCur = s.rxCur := rfl
@[simp] theorem setData_buf (a : Answers Byte) : (s.setData a).buf = s.buf := rfl
@[simp] theorem setData_env (a : Answers Byte) : (s.setData a).env = { s.env with data := a } := rfl
@[simp] theorem setData_trace (a : Answers Byte) : (s.setData a).trace = s.trace := rfl

/-! ### setSpiIn -/

@[simp] theorem setSpiIn_params (a : Answers Byte) : (s.setSpiIn a).params = s.params := rfl
@[simp] theorem setSpiIn_pc (a : Answers Byte) : (s.setSpiIn a).pc = s.pc := rfl
@[simp] theorem setSpiIn_latches (a : Answers Byte) : (s.setSpiIn a).latches = s.latches := rfl
@[simp] theorem setSpiIn_i2c (a : Answers Byte) : (s.setSpiIn a).i2c = s.i2c := rfl
@[simp] theorem setSpiIn_spi (a : Answers Byte) : (s.setSpiIn a).spi = s.spi := rfl
@[simp] theorem setSpiIn_txCur (a : Answers Byte) : (s.setSpiIn a).txCur = s.txCur := rfl
@[simp] theorem setSpiIn_rxCur (a : Answers Byte) : (s.setSpiIn a).rxCur = s.rxCur := rfl
@[simp] theorem setSpiIn_buf (a : Answers Byte) : (s.setSpiIn a).buf = s.buf := rfl
@[simp] theorem setSpiIn_env (a : Answers Byte) : (s.setSpiIn a).env = { s.env with spi := a } := rfl
@[simp] theorem setSpiIn_trace (a : Answers Byte) : (s.setSpiIn a).trace = s.trace := rfl

/-! ### setJunk -/

@[simp] theorem setJunk_params (n : Nat) : (s.setJunk n).params = s.params := rfl
@[simp] theorem setJunk_pc (n : Nat) : (s.setJunk n).pc = s.pc := rfl
@[simp] theorem setJunk_latches (n : Nat) : (s.setJunk n).latches = s.latches := rfl
@[simp] theorem setJunk_i2c (n : Nat) : (s.setJunk n).i2c = s.i2c := rfl
@[simp] theorem setJunk_spi (n : Nat) : (s.setJunk n).spi = s.spi := rfl
@[simp] theorem setJunk_txCur (n : Nat) : (s.setJunk n).txCur = s.txCur := rfl
@[simp] theorem setJunk_rxCur (n : Nat) : (s.setJunk n).rxCur = s.rxCur := rfl
@[simp] theorem setJunk_buf (n : Nat) : (s.setJunk n).buf = s.buf := rfl
@[simp] theorem setJunk_env (n : Nat) : (s.setJunk n).env = { s.env with junk := n } := rfl
@[simp] theorem setJunk_trace (n : Nat) : (s.setJunk n).trace = s.trace := rfl

/-! ### setResetIn -/

@[simp] theorem setResetIn_params (k : Option Nat) : (s.setResetIn k).params = s.params := rfl
@[simp] theorem setResetIn_pc (k : Option Nat) : (s.setResetIn k).pc = s.pc := rfl
@[simp] theorem setResetIn_latches (k : Option Nat) : (s.setResetIn k).latches = s.latches := rfl
@[simp] theorem setResetIn_i2c (k : Option Nat) : (s.setResetIn k).i2c = s.i2c := rfl
@[simp] theorem setResetIn_spi (k : Option Nat) : (s.setResetIn k).spi = s.spi := rfl
@[simp] theorem setResetIn_txCur (k : Option Nat) : (s.setResetIn k).txCur = s.txCur := rfl
@[simp] theorem setResetIn_rxCur (k : Option Nat) : (s.setResetIn k).rxCur = s.rxCur := rfl
@[simp] theorem setResetIn_buf (k : Option Nat) : (s.setResetIn k).buf = s.buf := rfl
@[simp] theorem setResetIn_env (k : Option Nat) : (s.setResetIn k).env = { s.env with resetIn := k } := rfl
@[simp] theorem setResetIn_trace (k : Option Nat) : (s.setResetIn k).trace = s.trace := rfl

/-! ### emit -/

@[simp] theorem emit_params (e : Event) : (s.emit e).params = s.params := rfl
@[simp] theorem emit_pc (e : Event) : (s.emit e).pc = s.pc := rfl
@[simp] theorem emit_latches (e : Event) : (s.emit e).latches = s.latches := rfl
@[simp] theorem emit_i2c (e : Event) : (s.emit e).i2c = s.i2c := rfl
@[simp] theorem emit_spi (e : Event) : (s.emit e).spi = s.spi := rfl
@[simp] theorem emit_txCur (e : Event) : (s.emit e).txCur = s.txCur := rfl
@[simp] theorem emit_rxCur (e : Event) : (s.emit e).rxCur = s.rxCur := rfl
@[simp] theorem emit_buf (e : Event) : (s.emit e).buf = s.buf := rfl
@[simp] theorem emit_env (e : Event) : (s.emit e).env = s.env := rfl
@[simp] theorem emit_trace (e : Event) : (s.emit e).trace = s.trace ++ [(s.pc, e)] := rfl

end Sys2Proof.Machine.State
end

