-- ==== Sys2Proof/Laws/Ops.lean ====
section
/-! SUPPORT. One equation per interface operation and per buffer access, in the terms of Safety.lean: what the
environment answers next, and the state that results. -/

namespace Sys2Proof.Machine

open Sys2Proof State

/-! ### Transport -/

theorem trRead_sends {s : State} {n : Nat} {bs : List Byte} (h : s.hostSends bs)
    (hn : bs.length = n) :
    trRead n s = (bs, { s with
      env := { s.env with host := s.env.host.skip n }
      trace := s.trace ++ [(s.pc, .trRead n bs)] }) := by
  subst hn
  simp only [trRead, hostRun_sends bs s.env.host h]
  rfl

theorem trRead_stops {s : State} {n : Nat} {bs : List Byte} (h : s.hostStops bs)
    (hn : bs.length < n) :
    trRead n s = (bs, { s with
      env := { s.env with host := s.env.host.skip (bs.length + 1) }
      trace := s.trace ++ [(s.pc, .trRead n bs)] }) := by
  simp only [trRead, hostRun_stops bs s.env.host n hn h.1 h.2]
  rfl

/-- Every Transport read answers all the bytes asked for or those sent before a silence. -/
theorem trRead_cases (n : Nat) (s : State) :
    ∃ bs, (s.hostSends bs ∧ bs.length = n ∨ s.hostStops bs ∧ bs.length < n) ∧
      ∃ k, trRead n s = (bs, { s with
        env := { s.env with host := s.env.host.skip k }
        trace := s.trace ++ [(s.pc, .trRead n bs)] }) := by
  obtain ⟨bs, hb, hc⟩ := host_arrivals n s.env.host
  rcases hc with hc | ⟨hl, ht⟩
  · exact ⟨bs, .inl ⟨hb, hc⟩, n, trRead_sends hb hc⟩
  · exact ⟨bs, .inr ⟨⟨hb, ht⟩, hl⟩, _, trRead_stops ⟨hb, ht⟩ hl⟩

/-! ### PHY reads -/

theorem phyFlag_eq (s : State) :
    phyFlag s = (s.flagAt 0, (s.setFlags (s.env.flags.skip 1)).emit (.phyFlag (s.flagAt 0))) := by
  simp only [phyFlag, Answers.next_eq]

theorem phyPhase_eq (s : State) :
    phyPhase s =
      (s.phaseAt 0, (s.setPhases (s.env.phases.skip 1)).emit (.phyPhase (s.phaseAt 0))) := by
  simp only [phyPhase, Answers.next_eq]

theorem phyData_eq (s : State) :
    phyData s = (s.dataAt 0, (s.setData (s.env.data.skip 1)).emit (.phyData (s.dataAt 0))) := by
  simp only [phyData, Answers.next_eq]

theorem spiRead_eq (n : Nat) (s : State) :
    spiRead n s = ((List.range n).map s.spiAt,
      (s.setSpiIn (s.env.spi.skip n)).emit (.spiRead ((List.range n).map s.spiAt))) := by
  simp only [spiRead, spiRun_eq]

/-! ### Buffer access -/

theorem memWrite_eq {s : State} {addr : Nat} {v : List Byte}
    (h : addr + v.length ≤ s.params.bufCap) :
    memWrite addr v s = .ok (s.setBuf (s.buf.writeRun addr v)) := by
  simp [memWrite, h]

/-- All a buffer write can do. -/
theorem memWrite_ok {s t : State} {addr : Nat} {v : List Byte} (h : memWrite addr v s = .ok t) :
    addr + v.length ≤ s.params.bufCap ∧ t = s.setBuf (s.buf.writeRun addr v) := by
  unfold memWrite at h
  split at h
  · next hle => exact ⟨hle, by simpa using h.symm⟩
  · simp at h

/-- A byte written since reset is what the index holds. -/
theorem bufAt_written {s : State} {i : Nat} {v : Byte} (h : s.buf.read i = some v) : s.bufAt i = v := by
  simp only [State.bufAt, h]

/-- All a buffer read in range does. -/
theorem memRead_eq {s : State} {addr n : Nat} (h : addr + n ≤ s.params.bufCap) :
    memRead addr n s = .ok ((List.range n).map fun k => s.bufAt (addr + k)) := if_pos h

/-- A run of which every byte was written since reset reads as those bytes. -/
theorem memRead_written {s : State} {addr : Nat} {v : List Byte} (h : addr + v.length ≤ s.params.bufCap)
    (hv : ∀ k, (hk : k < v.length) → s.buf.read (addr + k) = some v[k]) :
    memRead addr v.length s = .ok v := by
  rw [memRead_eq h]
  refine congrArg Except.ok (List.ext_getElem (by simp) fun k hk _ => ?_)
  simpa using bufAt_written (hv k (by simpa using hk))

theorem memRead_writeRun {s : State} {v : List Byte} {m : Memory} (hb : s.buf = m.writeRun 0 v)
    (h : v.length ≤ s.params.bufCap) : memRead 0 v.length s = .ok v := by
  refine memRead_written (by omega) fun k hk => ?_
  rw [hb]; exact Memory.read_writeRun_inside v m 0 k hk

theorem payloadToBuf_eq {s : State} {v : List Byte} (h : v.length ≤ s.params.bufCap) :
    payloadToBuf v s = .ok ((s.setBuf (s.buf.writeRun 0 v)).setIdx v.length) := by
  simp [payloadToBuf, memWrite, h, Except.map]

theorem bufToHost_writeRun {s : State} {v : List Byte} {m : Memory} (hb : s.buf = m.writeRun 0 v)
    (h : v.length ≤ s.params.bufCap) :
    bufToHost v.length s = .ok (trWrite v (s.setIdx v.length)) := by
  simp [bufToHost, memRead_writeRun hb h, Except.map]

theorem bufToSpi_writeRun {s : State} {v : List Byte} {m : Memory} (hb : s.buf = m.writeRun 0 v)
    (h : v.length ≤ s.params.bufCap) :
    bufToSpi v.length s = .ok (spiWrite v (s.setIdx v.length)) := by
  simp [bufToSpi, memRead_writeRun hb h, Except.map]

/-- A run of which every index holds a byte goes to the Transport whole. -/
theorem bufToHost_filled {s : State} {n : Nat} (hn : n ≤ s.params.bufCap)
    (h : ∀ k < n, (s.buf.read k).isSome = true) :
    ∃ v : List Byte, v.length = n ∧ bufToHost n s = .ok (trWrite v (s.setIdx n)) ∧
      ∀ k, (hk : k < v.length) → s.buf.read k = some v[k] := by
  refine ⟨(List.range n).map s.bufAt, by simp, ?_, fun k hk => ?_⟩
  · simp [bufToHost, memRead, hn, Except.map]
  · obtain ⟨v, hv⟩ := Option.isSome_iff_exists.mp (h k (by simpa using hk))
    simp [hv, bufAt_written hv]

theorem length_junkBytes (n : Nat) (s : State) : (junkBytes n s).length = n := by
  simp [junkBytes]

theorem scramble_eq {s : State} {n : Nat} (h : n ≤ s.params.bufCap) :
    scramble n s =
      .ok ((s.setJunk (s.env.junk + n)).setBuf (s.buf.writeRun 0 (junkBytes n s))) := by
  simp [scramble, memWrite, length_junkBytes, h]

/-! ### The polling loop (R58) -/

/-- Done at the first true answer, if it is among the reads left. -/
theorem pollLoop_done {n k : Nat} {s : State} (hk : k < n) (h : s.flagDone 0 k) :
    pollLoop n s = (.done, { s.phyTook (k + 1) 0 0 with
      latches := { s.latches with polls := s.latches.polls + k }
      trace := s.trace ++ pollDoneTrace s.pc k }) := by
  induction n generalizing k s with
  | zero => omega
  | succ n ih =>
    cases k with
    | zero =>
      have h0 : s.flagAt 0 = true := h.1
      simp [pollLoop, phyFlag_eq, h0, setFlags, emit]
    | succ k =>
      have h0 : s.flagAt 0 = false := h.2 0 (by omega)
      have h' : ((((s.setFlags (s.env.flags.skip 1)).emit (.phyFlag false)).setPolls
          (s.latches.polls + 1))).flagDone 0 k := by
        refine ⟨?_, fun j hj => ?_⟩
        · simpa [State.flagAt, Nat.add_comm] using h.1
        · simpa [State.flagAt, Nat.add_comm] using h.2 (j + 1) (by omega)
      simp only [pollLoop, phyFlag_eq, h0, emit_latches, setFlags_latches]
      rw [ih (by omega) h']
      simp [setFlags, emit, setPolls, pollDoneTrace, List.replicate_succ, Nat.add_comm, Nat.add_left_comm]

/-- Expired when every read left answers false. -/
theorem pollLoop_expired {n : Nat} {s : State} (h : s.flagExpires 0 n) :
    pollLoop n s = (.expired, { s.phyTook n 0 0 with
      latches := { s.latches with polls := s.latches.polls + n }
      trace := s.trace ++ pollExpiredTrace s.pc n }) := by
  induction n generalizing s with
  | zero => simp [pollLoop]
  | succ n ih =>
    have h0 : s.flagAt 0 = false := h 0 (by omega)
    have h' : ((((s.setFlags (s.env.flags.skip 1)).emit (.phyFlag false)).setPolls
        (s.latches.polls + 1))).flagExpires 0 n := fun j hj => by
      simpa [State.flagAt, Nat.add_comm] using h (j + 1) (by omega)
    simp only [pollLoop, phyFlag_eq, h0, emit_latches, setFlags_latches]
    rw [ih h']
    simp [setFlags, emit, setPolls, List.replicate_succ, Nat.add_comm, Nat.add_left_comm]

/-- Of `n` flag reads either one is the first to answer true or all answer false. -/
theorem flag_cases (s : State) (n : Nat) :
    (∃ k, k < n ∧ s.flagDone 0 k) ∨ s.flagExpires 0 n := by
  induction n with
  | zero => exact .inr fun j hj => by omega
  | succ n ih =>
    rcases ih with ⟨k, hk, h⟩ | h
    · exact .inl ⟨k, by omega, h⟩
    · cases hn : s.flagAt n with
      | true => exact .inl ⟨n, by omega, by simpa using hn, fun j hj => h j hj⟩
      | false =>
        refine .inr fun j hj => ?_
        rcases Nat.lt_succ_iff_lt_or_eq.mp hj with hj | rfl
        · exact h j hj
        · simpa using hn

theorem pollFlag_done {s : State} {c : I2cConfig} {k : Nat} (hc : s.i2c = some c)
    (hk : k < s.budget c) (h : s.flagDone 0 k) :
    pollFlag s = .ok (.done, { s.phyTook (k + 1) 0 0 with
      latches := { s.latches with polls := k }
      trace := s.trace ++ pollDoneTrace s.pc k }) := by
  have h' : (s.setPolls 0).flagDone 0 k := h
  simp only [pollFlag, hc]
  rw [pollLoop_done hk h']
  simp [setPolls, hc]

theorem pollFlag_expired {s : State} {c : I2cConfig} (hc : s.i2c = some c)
    (h : s.flagExpires 0 (s.budget c)) :
    pollFlag s = .ok (.expired, { s.phyTook (s.budget c) 0 0 with
      latches := { s.latches with polls := s.budget c }
      trace := s.trace ++ pollExpiredTrace s.pc (s.budget c) }) := by
  have h' : (s.setPolls 0).flagExpires 0 (s.budget c) := h
  simp only [pollFlag, hc]
  rw [pollLoop_expired h']
  simp [setPolls, hc]

/-- All the polling loop can do on an open bus. -/
theorem pollFlag_cases {s : State} {c : I2cConfig} (hc : s.i2c = some c) :
    (∃ k, k < s.budget c ∧ s.flagDone 0 k ∧
      pollFlag s = .ok (.done, { s.phyTook (k + 1) 0 0 with
        latches := { s.latches with polls := k }
        trace := s.trace ++ pollDoneTrace s.pc k })) ∨
    (s.flagExpires 0 (s.budget c) ∧
      pollFlag s = .ok (.expired, { s.phyTook (s.budget c) 0 0 with
        latches := { s.latches with polls := s.budget c }
        trace := s.trace ++ pollExpiredTrace s.pc (s.budget c) })) := by
  rcases flag_cases s (s.budget c) with ⟨k, hk, h⟩ | h
  · exact .inl ⟨k, hk, h, pollFlag_done hc hk h⟩
  · exact .inr ⟨h, pollFlag_expired hc h⟩

end Sys2Proof.Machine
end

