-- ==== Sys2Proof/Laws/Accounts.lean ====
section
/-! SUPPORT. The trace accounts for the environment: for each operation, the answers it took are those of the
entries it added (`Accounts`), so that a reset that cuts a command short leaves the answers not yet taken. -/

namespace Sys2Proof.Machine

open Sys2Proof State

variable {s : State}

/-! ### The trace accounts for the answers taken -/

/-- The operations added to the trace account for every answer taken from the environment. -/
def Accounts (s t : State) : Prop :=
  ∃ new, t.trace = s.trace ++ new ∧
    t.env = { (new.map Prod.snd).foldl Env.took s.env with junk := t.env.junk }

theorem took_junk (e : Env) (o : Event) (n : Nat) :
    Env.took { e with junk := n } o = { Env.took e o with junk := n } := by
  cases o <;> rfl

theorem foldl_took_junk (os : List Event) (e : Env) (n : Nat) :
    os.foldl Env.took { e with junk := n } = { os.foldl Env.took e with junk := n } := by
  induction os generalizing e with
  | nil => rfl
  | cons o os ih => rw [List.foldl_cons, took_junk, ih, List.foldl_cons]

/-- No operation reads or applies the reset input. -/
theorem foldl_took_resets (os : List Event) (e : Env) : (os.foldl Env.took e).resets = e.resets := by
  induction os generalizing e with
  | nil => rfl
  | cons o os ih => rw [List.foldl_cons, ih]; cases o <;> rfl

namespace Accounts

/-- A change that touches neither the trace nor the environment, but for the count of free bytes. -/
theorem quiet {t : State} (h : t.trace = s.trace) (he : t.env = { s.env with junk := t.env.junk }) :
    Accounts s t := ⟨[], by simp [h], he⟩

theorem refl (s : State) : Accounts s s := quiet rfl rfl

theorem trans {t u : State} (h : Accounts s t) (h' : Accounts t u) : Accounts s u := by
  obtain ⟨n1, t1, e1⟩ := h
  obtain ⟨n2, t2, e2⟩ := h'
  refine ⟨n1 ++ n2, by rw [t2, t1, List.append_assoc], e2.trans ?_⟩
  rw [e1, foldl_took_junk, List.map_append, List.foldl_append]

/-- One operation that takes what its entry says. -/
theorem one {t : State} {p : Pc} {o : Event} (h : t.trace = s.trace ++ [(p, o)])
    (he : t.env = s.env.took o) : Accounts s t :=
  ⟨[(p, o)], h, by rw [he]; cases o <;> rfl⟩

theorem of_trRead (n : Nat) : Accounts s (trRead n s).2 := by
  obtain ⟨bs, -, ⟨hl, e⟩ | ⟨hl, -, e⟩⟩ := hostRun_cases n s.env.host
  · refine one (p := s.pc) (o := .trRead n bs) (by simp [trRead, e]) ?_
    simp [trRead, e, Env.took, hl]
  · refine one (p := s.pc) (o := .trRead n bs) (by simp [trRead, e]) ?_
    simp [trRead, e, Env.took, hl]

theorem of_phyFlag : Accounts s (phyFlag s).2 :=
  one (p := s.pc) (by rw [phyFlag_eq]; rfl) (by rw [phyFlag_eq]; rfl)

theorem of_phyPhase : Accounts s (phyPhase s).2 :=
  one (p := s.pc) (by rw [phyPhase_eq]; rfl) (by rw [phyPhase_eq]; rfl)

theorem of_phyData : Accounts s (phyData s).2 :=
  one (p := s.pc) (by rw [phyData_eq]; rfl) (by rw [phyData_eq]; rfl)

theorem of_spiRead (n : Nat) : Accounts s (spiRead n s).2 :=
  one (p := s.pc) (by rw [spiRead_eq]; rfl) (by rw [spiRead_eq]; simp [Env.took])

/-- An operation without an answer. -/
theorem of_emit {o : Event} (h : ∀ e : Env, e.took o = e) : Accounts s (s.emit o) :=
  one (p := s.pc) (o := o) rfl (by rw [h]; rfl)

theorem of_respond {op : Byte} {r : Result} {s : State} : Accounts s (respond op r s) :=
  one (p := .respond) (o := .trWrite _) rfl rfl

/-- The polling loop. -/
theorem of_pollLoop : ∀ (n : Nat) (s : State), Accounts s (pollLoop n s).2 := by
  intro n
  induction n with
  | zero => exact fun s => refl s
  | succ n ih =>
    intro s
    have a := of_phyFlag (s := s)
    unfold pollLoop
    split
    · next s1 h => rw [h] at a; exact a
    · next s1 h => rw [h] at a; exact a.trans ((quiet rfl rfl : Accounts s1 (s1.setPolls _)).trans (ih _))

theorem of_pollFlag {s s1 : State} {r} (h : pollFlag s = .ok (r, s1)) : Accounts s s1 := by
  unfold pollFlag at h
  split at h
  · simp at h
  · simp only [Except.ok.injEq] at h
    have e := congrArg Prod.snd h
    simp only at e
    rw [← e]
    exact (quiet rfl rfl : Accounts s (s.setPolls 0)).trans (of_pollLoop _ _)

theorem of_memWrite {a v} {s t : State} (h : memWrite a v s = .ok t) : Accounts s t := by
  obtain ⟨_, rfl⟩ := memWrite_ok h; exact quiet rfl rfl

theorem of_configure {c} {s : State} : Accounts s (configure c s) := by
  unfold configure; split
  · exact quiet rfl rfl
  · exact one (p := s.pc) (o := .phyInit _) rfl rfl

theorem of_startAndPoll {s t : State} (h : startAndPoll s = .ok t) : Accounts s t := by
  unfold startAndPoll at h
  have a : Accounts s (phyStart s) := of_emit fun _ => rfl
  split at h
  · simp at h
  · next s1 hp => obtain rfl := Except.ok.inj h; exact a.trans ((of_pollFlag hp).trans (quiet rfl rfl))
  · next s1 hp => obtain rfl := Except.ok.inj h; exact a.trans ((of_pollFlag hp).trans (of_phyPhase.trans (quiet rfl rfl)))

theorem of_sendStart {s t : State} (h : sendStart s = .ok t) : Accounts s t := by
  unfold sendStart at h
  simp only at h
  split at h
  · unfold recoverBus at h
    split at h
    · simp at h
    · next s1 hr =>
      split at hr
      · simp at hr
      · obtain rfl := Except.ok.inj hr
        exact of_phyPhase.trans (of_configure.trans (of_startAndPoll h))
  · exact of_phyPhase.trans (of_startAndPoll h)

theorem of_readByte {k} {s t : State} {r} (h : readByte k s = .ok (r, t)) : Accounts s t := by
  unfold readByte at h
  have a : Accounts s (phyRxGo (!k) s) := of_emit fun _ => rfl
  split at h
  · simp at h
  · next s1 hp => obtain ⟨rfl, rfl⟩ := Prod.mk.inj (Except.ok.inj h); exact a.trans ((of_pollFlag hp).trans (quiet rfl rfl))
  · next s1 hp =>
    simp only at h
    split at h
    · obtain ⟨rfl, rfl⟩ := Prod.mk.inj (Except.ok.inj h); exact a.trans ((of_pollFlag hp).trans (of_phyPhase.trans (of_phyData.trans (quiet rfl rfl))))
    · obtain ⟨rfl, rfl⟩ := Prod.mk.inj (Except.ok.inj h); exact a.trans ((of_pollFlag hp).trans (of_phyPhase.trans (quiet rfl rfl)))

/-- The byte loop of `readData`. -/
theorem of_readLoop {nl} : ∀ (n i : Nat) (s t : State), readLoop nl n i s = .ok t → Accounts s t := by
  intro n
  induction n with
  | zero => intro i s t h; obtain rfl := Except.ok.inj h; exact quiet rfl rfl
  | succ n ih =>
    intro i s t h
    unfold readLoop at h
    have a : Accounts s (s.setIdx i) := quiet rfl rfl
    split at h
    · simp at h
    · next s1 hb => obtain rfl := Except.ok.inj h; exact a.trans (of_readByte hb)
    · next b s1 hb =>
      split at h
      · simp at h
      · next s2 hs => exact a.trans ((of_readByte hb).trans ((of_memWrite hs).trans (ih _ _ _ h)))

theorem of_scramble {n} {s t : State} (h : scramble n s = .ok t) : Accounts s t :=
  (quiet rfl rfl : Accounts s (s.setJunk (s.env.junk + n))).trans (of_memWrite h)

theorem of_readData {n nl} {s t : State} (h : readData n nl s = .ok t) : Accounts s t := by
  unfold readData at h
  simp only at h
  split at h
  · split at h
    · simp at h
    · next s1 hl =>
      split at h
      · obtain rfl := Except.ok.inj h; exact of_phyPhase.trans (of_readLoop _ _ _ _ hl)
      · exact of_phyPhase.trans ((of_readLoop _ _ _ _ hl).trans (of_scramble h))
  · exact of_phyPhase.trans ((quiet rfl rfl : Accounts _ ((phyPhase s).2.setSt .seqError)).trans (of_scramble h))

theorem of_sendByte {b} {s t : State} {r} (h : sendByte b s = .ok (r, t)) : Accounts s t := by
  unfold sendByte at h
  have a : Accounts s (phyTxGo (phyLoad b s)) := (of_emit fun _ => rfl : Accounts s (phyLoad b s)).trans (of_emit fun _ => rfl)
  split at h
  · simp at h
  · next s1 hp => obtain ⟨rfl, rfl⟩ := Prod.mk.inj (Except.ok.inj h); exact a.trans ((of_pollFlag hp).trans (quiet rfl rfl))
  · next s1 hp => obtain ⟨rfl, rfl⟩ := Prod.mk.inj (Except.ok.inj h); exact a.trans ((of_pollFlag hp).trans of_phyPhase)

/-- The byte loop of `writeData`. -/
theorem of_writeLoop : ∀ (n i : Nat) (s t : State), writeLoop n i s = .ok t → Accounts s t := by
  intro n
  induction n with
  | zero => intro i s t h; obtain rfl := Except.ok.inj h; exact quiet rfl rfl
  | succ n ih =>
    intro i s t h
    unfold writeLoop at h
    have a : Accounts s (s.setIdx i) := quiet rfl rfl
    split at h
    · simp at h
    · split at h
      · simp at h
      · next s1 hb => obtain rfl := Except.ok.inj h; exact a.trans (of_sendByte hb)
      · next p s1 hb =>
        split at h
        · exact a.trans ((of_sendByte hb).trans (ih _ _ _ h))
        · obtain rfl := Except.ok.inj h; exact a.trans ((of_sendByte hb).trans (quiet rfl rfl))

/-- A command that goes on with the state of an operation accounts if both parts do. -/
theorem of_finish {r : Except Fault State} {k : State → Out} {s t : State} (h : finish r k = .next t)
   (hr : ∀ u, r = .ok u → Accounts s u) (hk : ∀ u, k u = .next t → Accounts u t) : Accounts s t := by
  cases r with
  | error f => simp [finish] at h
  | ok u => exact (hr u rfl).trans (hk u h)

theorem of_takeParam {op} {k : Byte → State → Out} {s t : State} (h : takeParam op s k = .next t) (hk : ∀ b u, k b u = .next t → Accounts u t) : Accounts s t := by
  unfold takeParam at h
  have a : Accounts s (trRead 1 (s.setPc .readParams)).2 := (quiet rfl rfl : Accounts s (s.setPc _)).trans (of_trRead 1)
  split at h
  · next p s1 hp => rw [hp] at a; exact a.trans (hk _ _ h)
  · next p s1 _ hp => rw [hp] at a; obtain rfl := Host.Outcome.next.inj h; exact a.trans of_respond

theorem of_takeParams2 {op} {k : Byte → Byte → State → Out} {s t : State} (h : takeParams2 op s k = .next t) (hk : ∀ b c u, k b c u = .next t → Accounts u t) : Accounts s t := by
  unfold takeParams2 at h
  have a : Accounts s (trRead 2 (s.setPc .readParams)).2 := (quiet rfl rfl : Accounts s (s.setPc _)).trans (of_trRead 2)
  split at h
  · next p q s1 hp => rw [hp] at a; exact a.trans (hk _ _ _ h)
  · next p s1 _ hp => rw [hp] at a; obtain rfl := Host.Outcome.next.inj h; exact a.trans of_respond

theorem of_checkLen {op b} {k : State → Out} {s t : State} (h : checkLen op b s k = .next t) (hk : k s = .next t → Accounts s t) : Accounts s t := by
  unfold checkLen at h
  split at h
  · obtain rfl := Host.Outcome.next.inj h; exact of_respond
  · exact hk h

theorem of_payloadToBuf {v} {s t : State} (h : payloadToBuf v s = .ok t) : Accounts s t := by
  unfold payloadToBuf at h
  cases hm : memWrite 0 v s with
  | error f => rw [hm] at h; simp [Except.map] at h
  | ok u => rw [hm] at h; obtain rfl := Except.ok.inj h; exact (of_memWrite hm).trans (quiet rfl rfl)

theorem of_bufToHost {n} {s t : State} (h : bufToHost n s = .ok t) : Accounts s t := by
  unfold bufToHost at h
  cases hm : memRead 0 n s with
  | error f => rw [hm] at h; simp [Except.map] at h
  | ok u => rw [hm] at h; obtain rfl := Except.ok.inj h; exact (quiet rfl rfl : Accounts s (s.setIdx n)).trans (of_emit fun _ => rfl)

theorem of_bufToSpi {n} {s t : State} (h : bufToSpi n s = .ok t) : Accounts s t := by
  unfold bufToSpi at h
  cases hm : memRead 0 n s with
  | error f => rw [hm] at h; simp [Except.map] at h
  | ok u => rw [hm] at h; obtain rfl := Except.ok.inj h; exact (quiet rfl rfl : Accounts s (s.setIdx n)).trans (of_emit fun _ => rfl)

theorem of_takePayload {op n} {k : State → Out} {s t : State} (h : takePayload op n s k = .next t) (hk : ∀ u, k u = .next t → Accounts u t) : Accounts s t := by
  unfold takePayload at h
  have a : Accounts s (trRead n (s.setPc .payloadIn)).2 := (quiet rfl rfl : Accounts s (s.setPc _)).trans (of_trRead n)
  simp only at h
  split at h
  · obtain rfl := Host.Outcome.next.inj h; exact a.trans of_respond
  · exact a.trans (of_finish h (fun u e => of_payloadToBuf e) hk)

theorem of_earlyEcho {op} {s : State} : Accounts s (earlyEcho op s) := (quiet rfl rfl : Accounts s (s.setPc _)).trans (of_emit fun _ => rfl)

/-- Setting the dispatcher state takes nothing. -/
theorem of_setPc {p} {s t : State} (h : Accounts (s.setPc p) t) : Accounts s t := (quiet rfl rfl : Accounts s (s.setPc p)).trans h

/-- A command that is not refused on a closed bus runs its own part. -/
theorem next_onOpenI2c {k : Out} {s t : State} (h : onOpenI2c s k = .next t) : k = .next t := by
  unfold onOpenI2c at h; split at h; exact h; simp at h

theorem next_onOpenSpi {k : Out} {s t : State} (h : onOpenSpi s k = .next t) : k = .next t := by
  unfold onOpenSpi at h; split at h; exact h; simp at h

theorem of_linkTest {op} {s t : State} (h : linkTest op s = .next t) : Accounts s t := by
  unfold linkTest at h
  have a : Accounts s (trRead 2 ((trWrite sentinel (s.setPc .payloadOut)).setPc .payloadIn)).2 :=
    of_setPc (p := .payloadOut) ((of_emit fun _ => rfl : Accounts _ (trWrite sentinel (s.setPc .payloadOut))).trans (of_setPc (p := .payloadIn) (of_trRead 2)))
  split at h
  · next hp => rw [hp] at a; split at h <;> (obtain rfl := Host.Outcome.next.inj h; exact a.trans of_respond)
  · next hp => rw [hp] at a; obtain rfl := Host.Outcome.next.inj h; exact a.trans of_respond

end Accounts

end Sys2Proof.Machine
end

