-- ==== Sys2Proof/Laws/Engine.lean ====
section
/-! SUPPORT. What an Engine operation can do, said once: the operations it may issue and how often it reads
the flag (`BusRan`), which buffer bytes it may change (`BufKept`), and, for each operation, its cases. -/

namespace Sys2Proof.Machine

open Sys2Proof State

/-- From `s` to `t` only PHY operations of a transfer were issued (none that initialises or disables the
hardware, no STOP), all in the dispatcher state of `s`, with at most `b` flag reads; configuration, cursors,
parameter latches, Transport and SPI answers are as they were. -/
structure BusRan (s t : State) (new : List Entry) (b : Nat) : Prop where
  trace : t.trace = s.trace ++ new
  ops : ∀ e ∈ new, e.1 = s.pc ∧ e.2.isPhy = true ∧ e.2 ≠ .phyOff ∧ e.2 ≠ .phyStop ∧
    ∀ hz, e.2 ≠ .phyInit hz
  reads : flagReads new ≤ b
  params : t.params = s.params
  pc : t.pc = s.pc
  i2c : t.i2c = s.i2c
  spi : t.spi = s.spi
  tx : t.txCur = s.txCur
  rx : t.rxCur = s.rxCur
  op : t.latches.op = s.latches.op
  len : t.latches.len = s.latches.len
  flag : t.latches.flag = s.latches.flag
  host : t.env.host = s.env.host
  spiIn : t.env.spi = s.env.spi

theorem BusRan.refl (s : State) : BusRan s s [] 0 := by
  constructor <;> simp [flagReads]

theorem BusRan.trans {s t u : State} {new new' : List Entry} {b b' : Nat} (h : BusRan s t new b)
    (h' : BusRan t u new' b') : BusRan s u (new ++ new') (b + b') where
  trace := by rw [h'.trace, h.trace, List.append_assoc]
  ops e he := by
    rcases List.mem_append.mp he with he | he
    · exact h.ops e he
    · have := h'.ops e he; rwa [h.pc] at this
  reads := by
    have := h.reads; have := h'.reads
    simp only [flagReads, List.countP_append] at *
    omega
  params := h'.params.trans h.params
  pc := h'.pc.trans h.pc
  i2c := h'.i2c.trans h.i2c
  spi := h'.spi.trans h.spi
  tx := h'.tx.trans h.tx
  rx := h'.rx.trans h.rx
  op := h'.op.trans h.op
  len := h'.len.trans h.len
  flag := h'.flag.trans h.flag
  host := h'.host.trans h.host
  spiIn := h'.spiIn.trans h.spiIn

theorem BusRan.mono {s t : State} {new : List Entry} {b b' : Nat} (h : BusRan s t new b)
    (hb : b ≤ b') : BusRan s t new b' :=
  { h with reads := Nat.le_trans h.reads hb }

/-- The same change seen through updates that leave every part `BusRan` speaks of alone. -/
theorem BusRan.congr {s t t' : State} {new : List Entry} {b : Nat} (h : BusRan s t new b)
    (e1 : t'.trace = t.trace) (e2 : t'.params = t.params) (e3 : t'.pc = t.pc) (e4 : t'.i2c = t.i2c)
    (e5 : t'.spi = t.spi) (e6 : t'.txCur = t.txCur) (e7 : t'.rxCur = t.rxCur)
    (e8 : t'.latches.op = t.latches.op) (e9 : t'.latches.len = t.latches.len)
    (e10 : t'.latches.flag = t.latches.flag) (e11 : t'.env.host = t.env.host)
    (e12 : t'.env.spi = t.env.spi) : BusRan s t' new b :=
  ⟨e1.trans h.trace, h.ops, h.reads, e2.trans h.params, e3.trans h.pc, e4.trans h.i2c, e5.trans h.spi,
    e6.trans h.tx, e7.trans h.rx, e8.trans h.op, e9.trans h.len, e10.trans h.flag, e11.trans h.host,
    e12.trans h.spiIn⟩

theorem BusRan.setSt {s t : State} {new : List Entry} {b : Nat} (h : BusRan s t new b) (x : Status) :
    BusRan s (t.setSt x) new b := h.congr rfl rfl rfl rfl rfl rfl rfl rfl rfl rfl rfl rfl

theorem BusRan.setIdx_left {s t : State} {new : List Entry} {b n : Nat}
    (h : BusRan (s.setIdx n) t new b) : BusRan s t new b :=
  ⟨h.trace, h.ops, h.reads, h.params, h.pc, h.i2c, h.spi, h.tx, h.rx, h.op, h.len, h.flag, h.host,
    h.spiIn⟩

theorem BusRan.setBuf {s t : State} {new : List Entry} {b : Nat} (h : BusRan s t new b) (m : Memory) :
    BusRan s (t.setBuf m) new b := h.congr rfl rfl rfl rfl rfl rfl rfl rfl rfl rfl rfl rfl

/-- The flag reads of a polling loop. -/
theorem flagReads_pollDoneTrace (p : Pc) (k : Nat) : flagReads (pollDoneTrace p k) = k + 1 := by
  simp [flagReads, pollDoneTrace, List.countP_replicate, Event.isFlagRead]

theorem flagReads_pollExpiredTrace (p : Pc) (k : Nat) : flagReads (pollExpiredTrace p k) = k := by
  simp [flagReads, pollExpiredTrace, List.countP_replicate, Event.isFlagRead]

/-- From `s` to `t` only buffer bytes from `lo` up to `hi` may have changed, and the canonical form was
kept. -/
structure BufKept (s t : State) (lo hi : Nat) : Prop where
  wf : s.buf.wf → t.buf.wf
  listed : ∀ i ∈ t.buf.map Prod.fst, i ∈ s.buf.map Prod.fst ∨ (lo ≤ i ∧ i < hi)
  outside : ∀ a, (a < lo ∨ hi ≤ a) → t.buf.read a = s.buf.read a

theorem BufKept.of_eq (s t : State) (lo hi : Nat) (h : t.buf = s.buf) : BufKept s t lo hi :=
  ⟨fun w => h ▸ w, fun i hi => .inl (h ▸ hi), fun a _ => by rw [h]⟩

theorem BufKept.trans {s t u : State} {lo hi lo' hi' : Nat} (h : BufKept s t lo hi)
    (h' : BufKept t u lo' hi') (hlo : lo ≤ lo') (hhi : hi' ≤ hi) : BufKept s u lo hi where
  wf w := h'.wf (h.wf w)
  listed i hi := by
    rcases h'.listed i hi with hi | hi
    · exact h.listed i hi
    · exact .inr ⟨by omega, by omega⟩
  outside a ha := by rw [h'.outside a (by omega), h.outside a ha]

theorem BufKept.mono {s t : State} {lo hi lo' hi' : Nat} (h : BufKept s t lo hi) (hlo : lo' ≤ lo)
    (hhi : hi ≤ hi') : BufKept s t lo' hi' :=
  ⟨h.wf, fun i m => (h.listed i m).imp id fun ⟨a, b⟩ => ⟨by omega, by omega⟩,
    fun a ha => h.outside a (by omega)⟩

theorem BufKept.writeRun {s t : State} (a : Nat) (v : List Byte) (h : t.buf = s.buf.writeRun a v) :
    BufKept s t a (a + v.length) where
  wf w := by rw [h]; exact Memory.wf_writeRun w a v
  listed i hi := by
    rw [h] at hi
    exact (Memory.mem_fst_writeRun.mp hi).symm
  outside i hi := by rw [h]; exact Memory.read_writeRun_outside v s.buf hi

/-- A polling loop as a run of the bus. -/
theorem pollFlag_ran {s : State} {c : I2cConfig} (hc : s.i2c = some c) :
    ∃ r t new, pollFlag s = .ok (r, t) ∧ BusRan s t new (s.budget c) ∧ t.buf = s.buf ∧
      t.latches.idx = s.latches.idx ∧ t.env.junk = s.env.junk := by
  rcases pollFlag_cases hc with ⟨k, hk, h, e⟩ | ⟨h, e⟩
  · refine ⟨_, _, pollDoneTrace s.pc k, e, ?_, rfl, rfl, rfl⟩
    constructor <;> try rfl
    · intro e he
      rcases List.mem_append.mp he with he | he
      · rw [List.eq_of_mem_replicate he]; simp [Event.isPhy]
      · rw [List.mem_singleton.mp he]; simp [Event.isPhy]
    · rw [flagReads_pollDoneTrace]; omega
  · refine ⟨_, _, pollExpiredTrace s.pc (s.budget c), e, ?_, rfl, rfl, rfl⟩
    constructor <;> try rfl
    · intro e he
      rw [List.eq_of_mem_replicate he]; simp [Event.isPhy]
    · rw [flagReads_pollExpiredTrace]

/-- One transfer operation without an answer. -/
theorem BusRan.emit (s : State) (e : Event) (h1 : e.isPhy = true) (h2 : e ≠ .phyOff)
    (h3 : e ≠ .phyStop) (h4 : ∀ hz, e ≠ .phyInit hz) (h5 : e.isFlagRead = false) :
    BusRan s (s.emit e) [(s.pc, e)] 0 := by
  constructor <;> try rfl
  · intro x hx
    rw [List.mem_singleton.mp hx]
    exact ⟨rfl, h1, h2, h3, h4⟩
  · simp [flagReads, h5]

theorem phyPhase_ran (s : State) :
    BusRan s (phyPhase s).2 [(s.pc, .phyPhase (s.phaseAt 0))] 0 := by
  rw [phyPhase_eq]
  constructor <;> try rfl
  · intro x hx
    rw [List.mem_singleton.mp hx]
    simp [Event.isPhy]

theorem phyData_ran (s : State) :
    BusRan s (phyData s).2 [(s.pc, .phyData (s.dataAt 0))] 0 := by
  rw [phyData_eq]
  constructor <;> try rfl
  · intro x hx
    rw [List.mem_singleton.mp hx]
    simp [Event.isPhy]

/-- The statuses a transfer can end with on the wire side: all of them are reported as success or as 97. -/
theorem Result.ofStatus_wire {x : Status} (h : x ≠ .configError) (op : Byte) :
    encodeResult op (Result.ofStatus x) = if x = .ok then op else 97 := by
  cases x <;> simp_all [Result.ofStatus, encodeResult]

/-- All `readByte` can do on an open bus. -/
theorem readByte_ran {s : State} {c : I2cConfig} (nack : Bool) (hc : s.i2c = some c) :
    ∃ r t new, readByte nack s = .ok (r, t) ∧ BusRan s t new (s.budget c) ∧ t.buf = s.buf ∧
      t.latches.idx = s.latches.idx ∧ t.env.junk = s.env.junk ∧
      (r.isSome = true → t.latches.st = .ok) ∧
      (r = none → t.latches.st = .timeout ∨ t.latches.st = .unexpectedState) := by
  have hc' : (phyRxGo (!nack) s).i2c = some c := hc
  obtain ⟨r, t, new, e, ran, hb, hi, hj⟩ := pollFlag_ran hc'
  have h1 : BusRan s t ([(s.pc, .phyRxGo (!nack))] ++ new) (0 + s.budget c) :=
    (BusRan.emit s (.phyRxGo (!nack)) rfl (by simp) (by simp) (by simp) rfl).trans ran
  rw [Nat.zero_add] at h1
  simp only [readByte, e]
  cases r with
  | expired => exact ⟨none, _, _, rfl, h1.setSt _, hb, hi, hj, by simp, by simp⟩
  | done =>
    have h2 := h1.trans (phyPhase_ran t)
    have e2 : (phyPhase t).2.buf = t.buf ∧ (phyPhase t).2.latches.idx = t.latches.idx ∧
      (phyPhase t).2.env.junk = t.env.junk := by simp [phyPhase_eq]
    simp only
    split
    · have h3 := h2.trans (phyData_ran _)
      have e3 : (phyData (phyPhase t).2).2.buf = t.buf ∧
        (phyData (phyPhase t).2).2.latches.idx = t.latches.idx ∧
        (phyData (phyPhase t).2).2.env.junk = t.env.junk := by simp [phyData_eq, phyPhase_eq]
      exact ⟨_, _, _, rfl, h3.setSt _, e3.1.trans hb, e3.2.1.trans hi, e3.2.2.trans hj, by simp,
        by simp⟩
    · exact ⟨none, _, _, rfl, h2.setSt _, e2.1.trans hb, e2.2.1.trans hi, e2.2.2.trans hj, by simp,
        by simp⟩

/-- All `sendByte` can do on an open bus. -/
theorem sendByte_ran {s : State} {c : I2cConfig} (b : Byte) (hc : s.i2c = some c) :
    ∃ r t new, sendByte b s = .ok (r, t) ∧ BusRan s t new (s.budget c) ∧ t.buf = s.buf ∧
      t.latches.idx = s.latches.idx ∧ t.env.junk = s.env.junk ∧
      (r = none → t.latches.st = .timeout) := by
  have hc' : (phyTxGo (phyLoad b s)).i2c = some c := hc
  obtain ⟨r, t, new, e, ran, hb, hi, hj⟩ := pollFlag_ran hc'
  have h1 : BusRan s t ([(s.pc, .phyLoad b)] ++ [(s.pc, .phyTxGo)] ++ new) (0 + 0 + s.budget c) :=
    ((BusRan.emit s (.phyLoad b) rfl (by simp) (by simp) (by simp) rfl).trans
      (BusRan.emit (phyLoad b s) .phyTxGo rfl (by simp) (by simp) (by simp) rfl)).trans ran
  rw [Nat.zero_add] at h1
  simp only [sendByte, e]
  cases r with
  | expired => exact ⟨none, _, _, rfl, h1.setSt _, hb, hi, hj, by simp⟩
  | done =>
    have h2 := h1.trans (phyPhase_ran t)
    have e2 : (phyPhase t).2.buf = t.buf ∧ (phyPhase t).2.latches.idx = t.latches.idx ∧
      (phyPhase t).2.env.junk = t.env.junk := by simp [phyPhase_eq]
    exact ⟨_, _, _, rfl, h2, e2.1.trans hb, e2.2.1.trans hi, e2.2.2.trans hj, by simp⟩

/-- All the byte loop of `readData` can do on an open bus within the buffer. -/
theorem readLoop_ran {c : I2cConfig} (nackLast : Bool) (n idx : Nat) (s : State)
    (hc : s.i2c = some c) (hn : idx + n ≤ s.params.bufCap) {K : Nat} (hK : s.params.bufCap ≤ K)
    (hi : s.latches.idx ≤ K) :
    ∃ t new, readLoop nackLast n idx s = .ok t ∧ BusRan s t new (n * s.budget c) ∧
      BufKept s t idx (idx + n) ∧ t.latches.idx ≤ K ∧
      t.latches.st ≠ .configError ∧
      (t.latches.st = .ok → ∀ j, idx ≤ j → j < idx + n → (t.buf.read j).isSome = true) := by
  induction n generalizing idx s with
  | zero =>
    exact ⟨_, [], rfl, ((BusRan.refl s).mono (by omega)).setSt _, .of_eq _ _ _ _ rfl, hi, by simp,
      fun _ j _ _ => by omega⟩
  | succ n ih =>
    obtain ⟨r, t, new, e, ran, hb, hix, -, -, hst⟩ :=
      readByte_ran (n == 0 && nackLast) (s := s.setIdx idx) hc
    have ran' : BusRan s t new (s.budget c) := ran.setIdx_left
    have hti : t.latches.idx ≤ K := by rw [hix]; simp; omega
    simp only [readLoop, e]
    cases r with
    | none =>
      refine ⟨t, new, rfl, ran'.mono ?_, .of_eq _ _ _ _ hb, hti, ?_, fun h => ?_⟩
      · rw [Nat.succ_mul]; omega
      · rcases hst rfl with h | h <;> simp [h]
      · rcases hst rfl with h' | h' <;> simp [h'] at h
    | some b =>
      have hw : bufStore idx b t = .ok (t.setBuf (t.buf.writeRun idx [b])) := by
        refine memWrite_eq ?_
        rw [ran'.params]; simp; omega
      have ran1 : BusRan s (t.setBuf (t.buf.writeRun idx [b])) new (s.budget c) := ran'.setBuf _
      obtain ⟨u, new', e', ran2, kept, hui, hcfg, hfill⟩ := ih (idx + 1) (t.setBuf (t.buf.writeRun idx [b]))
        (by rw [ran1.i2c]; exact hc) (by rw [ran1.params]; omega)
        (by rw [ran1.params]; exact hK) hti
      have hbud : (t.setBuf (t.buf.writeRun idx [b])).budget c = s.budget c := by
        rw [State.budget, ran1.params]
      simp only [hw, e']
      refine ⟨u, new ++ new', rfl, (ran1.trans ran2).mono ?_, ?_, hui,
        hcfg, fun h j h1 h2 => ?_⟩
      · rw [hbud, Nat.succ_mul]; omega
      · have k1 : BufKept s (t.setBuf (t.buf.writeRun idx [b])) idx (idx + (n + 1)) := by
          have : BufKept s (t.setBuf (t.buf.writeRun idx [b])) idx (idx + [b].length) := by
            refine .writeRun idx [b] ?_
            rw [setBuf_buf, hb]; rfl
          exact this.mono (le_refl _) (by simp)
        exact k1.trans kept (by omega) (by omega)
      · rcases Nat.eq_or_lt_of_le h1 with rfl | h1
        · rw [kept.outside idx (by omega), setBuf_buf]
          simp [Memory.writeRun, Memory.read_write_self]
        · exact hfill h j (by omega) (by omega)

/-- All `readData` can do on an open bus within the buffer. -/
theorem readData_ran {s : State} {c : I2cConfig} (count : Nat) (nackLast : Bool)
    (hc : s.i2c = some c) (hn : count ≤ s.params.bufCap) {K : Nat} (hK : s.params.bufCap ≤ K)
    (hi : s.latches.idx ≤ K) :
    ∃ t new, readData count nackLast s = .ok t ∧ BusRan s t new (count * s.budget c) ∧
      BufKept s t 0 count ∧ t.latches.idx ≤ K ∧ t.latches.st ≠ .configError ∧
      ∀ j < count, (t.buf.read j).isSome = true := by
  have h0 := phyPhase_ran s
  have hb0 : (phyPhase s).2.buf = s.buf ∧ (phyPhase s).2.latches.idx = s.latches.idx := by
    simp [phyPhase_eq]
  have scr : ∀ (t : State) (new : List Entry) (b : Nat), BusRan s t new b → BufKept s t 0 count →
      t.latches.idx ≤ K → t.latches.st ≠ .configError →
      ∃ u, scramble count t = .ok u ∧ BusRan s u new b ∧ BufKept s u 0 count ∧
        u.latches.idx ≤ K ∧ u.latches.st ≠ .configError ∧
        ∀ j < count, (u.buf.read j).isSome = true := by
    intro t new b ran kept hti hst
    refine ⟨_, scramble_eq (by rw [ran.params]; exact hn), ?_, ?_, hti, hst, fun j hj => ?_⟩
    · exact ran.congr rfl rfl rfl rfl rfl rfl rfl rfl rfl rfl rfl rfl
    · refine kept.trans (.writeRun 0 (junkBytes count t) rfl) (le_refl _) ?_
      simp [length_junkBytes]
    · have := Memory.read_writeRun_inside (junkBytes count t) t.buf 0 j
        (by rw [length_junkBytes]; exact hj)
      rw [Nat.zero_add] at this
      rw [setBuf_buf, this]; rfl
  simp only [readData]
  split
  · obtain ⟨t, new, e, ran, kept, hti, hst, hfill⟩ := readLoop_ran (K := K) nackLast count 0
      (phyPhase s).2
      (by rw [h0.i2c]; exact hc) (by rw [h0.params]; omega) (by rw [h0.params]; exact hK)
      (by rw [hb0.2]; exact hi)
    have hbud : (phyPhase s).2.budget c = s.budget c := by rw [State.budget, h0.params]
    have ran' := h0.trans ran
    rw [hbud, Nat.zero_add] at ran'
    have kept' : BufKept s t 0 count :=
      (BufKept.of_eq s (phyPhase s).2 0 count hb0.1).trans kept (le_refl _) (by omega)
    simp only [e]
    split
    · next hok => exact ⟨t, _, rfl, ran', kept', hti, hst, fun j hj => hfill hok j (by omega) (by omega)⟩
    · obtain ⟨u, e', r, k, i, x, y⟩ := scr t _ _ ran' kept' hti hst
      exact ⟨u, _, e', r, k, i, x, y⟩
  · obtain ⟨u, e', r, k, i, x, y⟩ := scr ((phyPhase s).2.setSt .seqError) _ _ (h0.setSt _)
      (.of_eq _ _ _ _ hb0.1) (by simp [hb0.2]; exact hi) (by simp)
    exact ⟨u, _, e', r.mono (by omega), k, i, x, y⟩

/-- All the byte loop of `writeData` can do on an open bus, when the buffer holds the bytes to send. -/
theorem writeLoop_ran {c : I2cConfig} (n idx : Nat) (s : State) (hc : s.i2c = some c)
    (hn : idx + n ≤ s.params.bufCap) {K : Nat} (hK : s.params.bufCap ≤ K)
    (hi : s.latches.idx ≤ K)
    (hb : ∀ j, idx ≤ j → j < idx + n → (s.buf.read j).isSome = true) :
    ∃ t new, writeLoop n idx s = .ok t ∧ BusRan s t new (n * s.budget c) ∧ t.buf = s.buf ∧
      t.latches.idx ≤ K ∧ t.latches.st ≠ .configError := by
  induction n generalizing idx s with
  | zero => exact ⟨_, [], rfl, ((BusRan.refl s).mono (by omega)).setSt _, rfl, hi, by simp⟩
  | succ n ih =>
    obtain ⟨v, hv⟩ := Option.isSome_iff_exists.mp (hb idx (by omega) (by omega))
    have hl : bufLoad idx s = .ok v := by
      simp only [bufLoad, State.bufAt, hv]
      rw [if_pos (by omega)]
    obtain ⟨r, t, new, e, ran, hbt, hix, -, hst⟩ := sendByte_ran v (s := s.setIdx idx) hc
    have ran' : BusRan s t new (s.budget c) := ran.setIdx_left
    have hti : t.latches.idx ≤ K := by rw [hix]; simp; omega
    simp only [writeLoop, hl, e]
    cases r with
    | none =>
      refine ⟨t, new, rfl, ran'.mono ?_, hbt, hti, by rw [hst rfl]; simp⟩
      rw [Nat.succ_mul]; omega
    | some p =>
      simp only
      split
      · obtain ⟨u, new', e', ran2, hbu, hui, hcfg⟩ := ih (idx + 1) t (by rw [ran'.i2c]; exact hc)
          (by rw [ran'.params]; omega) (by rw [ran'.params]; exact hK) hti
          (fun j h1 h2 => by rw [hbt]; exact hb j (by omega) (by omega))
        have hbud : t.budget c = s.budget c := by rw [State.budget, ran'.params]
        refine ⟨u, new ++ new', e', (ran'.trans ran2).mono ?_, hbu.trans hbt,
          hui, hcfg⟩
        rw [hbud, Nat.succ_mul]; omega
      · refine ⟨_, new, rfl, (ran'.setSt _).mono ?_, hbt, hti, by simp⟩
        rw [Nat.succ_mul]; omega

/-- `configure` with the class of a legal configuration sets that same configuration again. -/
theorem configure_legal {s : State} {c : I2cConfig} (hl : c.legal = true) :
    configure c.cls.byte s =
      { s with
        i2c := some c, txCur := 0, rxCur := 0
        latches := { s.latches with st := .ok }
        trace := s.trace ++ [(s.pc, .phyInit c.clkHz)] } := by
  obtain ⟨cls, hz, us⟩ := c
  simp only [I2cConfig.legal, Bool.and_eq_true, beq_iff_eq] at hl
  obtain ⟨rfl, rfl⟩ := hl
  cases cls <;> rfl

/-- A transfer sends no byte to the host and does nothing on the SPI bus. -/
theorem BusRan.quiet {s t : State} {new : List Entry} {b : Nat} (h : BusRan s t new b) :
    hostBytes new = [] ∧ ∀ e ∈ new, e.2.isSpi = false := by
  constructor
  · refine List.flatMap_eq_nil_iff.mpr fun e he => ?_
    have := (h.ops e he).2.1
    revert this
    cases e.2 <;> simp [Event.isPhy, Event.toHost]
  · intro e he
    have := (h.ops e he).2.1
    revert this
    cases e.2 <;> simp [Event.isPhy, Event.isSpi]

/-- All the START with its poll can do on an open bus. -/
theorem startAndPoll_ran {s : State} {c : I2cConfig} (hc : s.i2c = some c) :
    ∃ t new, startAndPoll s = .ok t ∧ BusRan s t new (s.budget c) ∧ t.buf = s.buf ∧
      t.latches.idx = s.latches.idx ∧ t.latches.st ≠ .configError := by
  have hc' : (phyStart s).i2c = some c := hc
  obtain ⟨r, t, new, e, ran, hb, hi, -⟩ := pollFlag_ran hc'
  have h1 : BusRan s t ([(s.pc, .phyStart)] ++ new) (0 + s.budget c) :=
    (BusRan.emit s .phyStart rfl (by simp) (by simp) (by simp) rfl).trans ran
  rw [Nat.zero_add] at h1
  simp only [startAndPoll, e]
  cases r with
  | expired => exact ⟨_, _, rfl, h1.setSt _, hb, hi, by simp⟩
  | done =>
    have h2 := h1.trans (phyPhase_ran t)
    have e2 : (phyPhase t).2.buf = t.buf ∧ (phyPhase t).2.latches.idx = t.latches.idx := by
      simp [phyPhase_eq]
    refine ⟨_, _, rfl, h2.setSt _, e2.1.trans hb, e2.2.trans hi, ?_⟩
    simp only [setSt_latches]
    split <;> simp

end Sys2Proof.Machine
end

