-- ==== Sys2Proof/Laws/Frames.lean ====
section
/-! SUPPORT. The elements of a frame, one lemma per outcome: the opcode fetch, parameter and payload reads,
the early echo and the end of the frame. -/

namespace Sys2Proof.Machine

open Sys2Proof State

/-- Every byte decodes to a well-formed command whose encoding it is. -/
theorem decode_wf (b : Byte) : (decode b).wf = true ∧ encode (decode b) = [b] := by
  revert b; decide

/-- The opcode of a well-formed command decodes to it. -/
theorem decode_opcode {i : Instr} (h : i.wf = true) : decode i.opcode = i := by
  cases i with
  | nosuch op =>
    revert h
    have all : ∀ op : Byte, (Instr.nosuch op).wf = true → decode op = .nosuch op := by decide
    exact all op
  | _ => rfl

theorem hostSends_nil (s : State) : s.hostSends [] := fun k hk => by simp at hk

theorem hostSends_cons {s : State} {b : Byte} {bs : List Byte} :
    s.hostSends (b :: bs) ↔
      s.hostAt 0 = .byte b ∧ (s.setHost (s.env.host.skip 1)).hostSends bs := by
  constructor
  · intro h
    refine ⟨h 0 (by simp), fun k hk => ?_⟩
    have := h (k + 1) (by simpa using hk)
    simpa [State.hostAt, Nat.add_comm] using this
  · rintro ⟨h0, h⟩ k hk
    cases k with
    | zero => exact h0
    | succ k =>
      have := h k (by simpa using hk)
      simpa [State.hostAt, Nat.add_comm] using this

theorem hostSends_one {s : State} {b : Byte} : s.hostSends [b] ↔ s.hostAt 0 = .byte b :=
  ⟨fun h => (hostSends_cons.mp h).1, fun h => hostSends_cons.mpr ⟨h, hostSends_nil _⟩⟩

theorem hostStops_nil {s : State} : s.hostStops [] ↔ s.hostAt 0 = .timeout :=
  ⟨fun h => h.2, fun h => ⟨hostSends_nil _, h⟩⟩

theorem hostStops_cons {s : State} {b : Byte} {bs : List Byte} :
    s.hostStops (b :: bs) ↔
      s.hostAt 0 = .byte b ∧ (s.setHost (s.env.host.skip 1)).hostStops bs := by
  unfold State.hostStops
  rw [hostSends_cons]
  simp [State.hostAt, Nat.add_comm, and_assoc]

/-- What a byte read leaves: the state with `n` arrivals taken and the read recorded. -/
abbrev State.tookHost (s : State) (k n : Nat) (got : List Byte) : State :=
  { s with
    env := { s.env with host := s.env.host.skip k }
    trace := s.trace ++ [(s.pc, .trRead n got)] }

theorem fetchOpcode_byte {s : State} {b : Byte} (h : s.hostAt 0 = .byte b) :
    fetchOpcode s = (some b, (s.tookHost 1 1 [b]).setOp b) := by
  have := trRead_sends (n := 1) (hostSends_one.mpr h) rfl
  simp only [fetchOpcode, this]

theorem fetchOpcode_timeout {s : State} (h : s.hostAt 0 = .timeout) :
    fetchOpcode s = (none, s.tookHost 1 1 []) := by
  have := trRead_stops (n := 1) (hostStops_nil.mpr h) (by simp)
  simp only [fetchOpcode, this, List.length_nil, Nat.zero_add]

theorem takeParam_byte {op p : Byte} {s : State} {k : Byte → State → Out}
    (h : s.hostAt 0 = .byte p) :
    takeParam op s k = k p ((s.setPc .readParams).tookHost 1 1 [p]) := by
  have := trRead_sends (s := s.setPc .readParams) (n := 1) (hostSends_one.mpr h) rfl
  simp only [takeParam, this]

theorem takeParam_timeout {op : Byte} {s : State} {k : Byte → State → Out}
    (h : s.hostAt 0 = .timeout) :
    takeParam op s k =
      .next (raise op .inputTimeout ((s.setPc .readParams).tookHost 1 1 [])) := by
  have := trRead_stops (s := s.setPc .readParams) (n := 1) (hostStops_nil.mpr h) (by simp)
  simp only [takeParam, this, List.length_nil, Nat.zero_add]

/-- All a parameter read can do. -/
theorem takeParam_cases (op : Byte) (s : State) (k : Byte → State → Out) :
    (∃ p, s.hostAt 0 = .byte p ∧
      takeParam op s k = k p ((s.setPc .readParams).tookHost 1 1 [p])) ∨
    (s.hostAt 0 = .timeout ∧ takeParam op s k =
      .next (raise op .inputTimeout ((s.setPc .readParams).tookHost 1 1 []))) := by
  cases h : s.hostAt 0 with
  | byte p => exact .inl ⟨p, rfl, takeParam_byte h⟩
  | timeout => exact .inr ⟨rfl, takeParam_timeout h⟩

theorem takeParams2_sends {op p q : Byte} {s : State} {k : Byte → Byte → State → Out}
    (h : s.hostSends [p, q]) :
    takeParams2 op s k = k p q ((s.setPc .readParams).tookHost 2 2 [p, q]) := by
  have := trRead_sends (s := s.setPc .readParams) (n := 2) h rfl
  simp only [takeParams2, this]

theorem takeParams2_stops {op : Byte} {bs : List Byte} {s : State} {k : Byte → Byte → State → Out}
    (h : s.hostStops bs) (hl : bs.length < 2) :
    takeParams2 op s k =
      .next (raise op .inputTimeout ((s.setPc .readParams).tookHost (bs.length + 1) 2 bs)) := by
  have := trRead_stops (s := s.setPc .readParams) (n := 2) h hl
  match bs, hl with
  | [], _ => simp only [takeParams2, this]
  | [_], _ => simp only [takeParams2, this]

/-- All a two-byte parameter read can do. -/
theorem takeParams2_cases (op : Byte) (s : State) (k : Byte → Byte → State → Out) :
    (∃ p q, s.hostSends [p, q] ∧
      takeParams2 op s k = k p q ((s.setPc .readParams).tookHost 2 2 [p, q])) ∨
    (∃ bs, s.hostStops bs ∧ bs.length < 2 ∧ takeParams2 op s k =
      .next (raise op .inputTimeout ((s.setPc .readParams).tookHost (bs.length + 1) 2 bs))) := by
  obtain ⟨bs, hb, hc⟩ := host_arrivals 2 s.env.host
  rcases hc with hc | ⟨hl, ht⟩
  · obtain ⟨p, q, rfl⟩ := List.length_eq_two.mp hc
    exact .inl ⟨p, q, hb, takeParams2_sends hb⟩
  · exact .inr ⟨bs, ⟨hb, ht⟩, hl, takeParams2_stops ⟨hb, ht⟩ hl⟩

theorem takePayload_sends {op : Byte} {n : Nat} {bs : List Byte} {s : State} {k : State → Out}
    (h : s.hostSends bs) (hl : bs.length = n) (hn : n ≤ s.params.bufCap) :
    takePayload op n s k =
      k ((((s.setPc .payloadIn).tookHost n n bs).setBuf (s.buf.writeRun 0 bs)).setIdx n) := by
  have := trRead_sends (s := s.setPc .payloadIn) (n := n) h hl
  simp only [takePayload, this, hl, lt_irrefl, if_false]
  rw [payloadToBuf_eq (by rw [hl]; exact hn)]
  simp only [finish, hl, setPc]

theorem takePayload_stops {op : Byte} {n : Nat} {bs : List Byte} {s : State} {k : State → Out}
    (h : s.hostStops bs) (hl : bs.length < n) :
    takePayload op n s k =
      .next (raise op .inputTimeout ((s.setPc .payloadIn).tookHost (bs.length + 1) n bs)) := by
  have := trRead_stops (s := s.setPc .payloadIn) (n := n) h hl
  simp only [takePayload, this, hl, if_true]

/-- All a payload read within the capacity can do. -/
theorem takePayload_cases (op : Byte) {n : Nat} (s : State) (k : State → Out)
    (hn : n ≤ s.params.bufCap) :
    (∃ bs, s.hostSends bs ∧ bs.length = n ∧ takePayload op n s k =
      k ((((s.setPc .payloadIn).tookHost n n bs).setBuf (s.buf.writeRun 0 bs)).setIdx n)) ∨
    (∃ bs, s.hostStops bs ∧ bs.length < n ∧ takePayload op n s k =
      .next (raise op .inputTimeout ((s.setPc .payloadIn).tookHost (bs.length + 1) n bs))) := by
  obtain ⟨bs, hb, hc⟩ := host_arrivals n s.env.host
  rcases hc with hc | ⟨hl, ht⟩
  · exact .inl ⟨bs, hb, hc, takePayload_sends hb hc hn⟩
  · exact .inr ⟨bs, ⟨hb, ht⟩, hl, takePayload_stops ⟨hb, ht⟩ hl⟩

theorem checkLen_ok {op : Byte} {bound : Nat} {s : State} {k : State → Out}
    (h : s.latches.len.toNat ≤ bound) : checkLen op bound s k = k s :=
  if_neg (Nat.not_lt.mpr h)

theorem checkLen_over {op : Byte} {bound : Nat} {s : State} {k : State → Out}
    (h : bound < s.latches.len.toNat) :
    checkLen op bound s k = .next (raise op .invalidInput s) := if_pos h

theorem onOpenSpi_open {s : State} {k : Out} (h : s.spiOpen = true) : onOpenSpi s k = k := if_pos h

theorem onOpenSpi_closed {s : State} {k : Out} (h : s.spiOpen = false) :
    onOpenSpi s k = .refused .spiBusClosed := if_neg (by simp [h])

theorem onOpenI2c_open {s : State} {k : Out} (h : s.i2cOpen = true) : onOpenI2c s k = k := if_pos h

theorem onOpenI2c_closed {s : State} {k : Out} (h : s.i2cOpen = false) :
    onOpenI2c s k = .refused .i2cBusClosed := if_neg (by simp [h])

/-- The end of a frame: one byte, and back to `AWAIT_OPCODE`. -/
theorem respond_eq (op : Byte) (r : Result) (s : State) :
    respond op r s =
      { s with
        pc := .awaitOpcode
        trace := s.trace ++ [(.respond, .trWrite [encodeResult op r])] } := rfl

theorem earlyEcho_eq (op : Byte) (s : State) :
    earlyEcho op s =
      { s with pc := .earlyEcho, trace := s.trace ++ [(.earlyEcho, .trWrite [op])] } := rfl

end Sys2Proof.Machine
end

