-- ==== Sys2Proof/Laws/Commands.lean ====
section
/-! SUPPORT. What each command can do, said once: all its cases, each with the answers of the host that lead
to it and the state it ends in. Every fact about `exec` is a case analysis over these lemmas. -/

namespace Sys2Proof.Machine

open Sys2Proof State

/-- The state once one parameter byte was read. -/
abbrev State.gotParam (s : State) (p : Byte) : State := (s.setPc .readParams).tookHost 1 1 [p]

/-- The state once a one-byte parameter read met silence. -/
abbrev State.noParam (s : State) : State := (s.setPc .readParams).tookHost 1 1 []

/-- The state once the length byte was read, latched and echoed. -/
abbrev State.echoedLen (s : State) (op n : Byte) : State := earlyEcho op ((s.gotParam n).setLen n)

/-- The state once the payload was read and stored. -/
abbrev State.gotPayload (s : State) (n : Nat) (bs : List Byte) : State :=
  (((s.setPc .payloadIn).tookHost n n bs).setBuf (s.buf.writeRun 0 bs)).setIdx n

theorem execSpiInit_cases (s : State) :
    (∃ p, s.hostAt 0 = .byte p ∧ p ∈ spiDivSet ∧ exec .spiInit s =
      .next (respondOk 7 ((spiInit p ((s.gotParam p).setPc .execute)).setSpi (some ⟨p⟩)))) ∨
    (∃ p, s.hostAt 0 = .byte p ∧ p ∉ spiDivSet ∧
      exec .spiInit s = .next (raise 7 .invalidInput (s.gotParam p))) ∨
    (s.hostAt 0 = .timeout ∧ exec .spiInit s = .next (raise 7 .inputTimeout s.noParam)) := by
  rcases takeParam_cases 7 s _ with ⟨p, h, e⟩ | ⟨h, e⟩
  · by_cases hp : p ∈ spiDivSet
    · exact .inl ⟨p, h, hp, e.trans (if_pos (by simpa using hp))⟩
    · exact .inr (.inl ⟨p, h, hp, e.trans (if_neg (by simpa using hp))⟩)
  · exact .inr (.inr ⟨h, e⟩)

/-- A link test: the two bytes match, do not match, or do not arrive. -/
theorem linkTest_cases (op : Byte) (s : State) :
    let s1 := (trWrite sentinel (s.setPc .payloadOut)).setPc .payloadIn
    (s.hostSends sentinel ∧
      linkTest op s = .next (respondOk op (s1.tookHost 2 2 sentinel))) ∨
    (∃ a b, s.hostSends [a, b] ∧ [a, b] ≠ sentinel ∧
      linkTest op s = .next (raise op .invalidInput (s1.tookHost 2 2 [a, b]))) ∨
    (∃ bs, s.hostStops bs ∧ bs.length < 2 ∧
      linkTest op s = .next (raise op .inputTimeout (s1.tookHost (bs.length + 1) 2 bs))) := by
  intro s1
  obtain ⟨bs, hb, hc⟩ := host_arrivals 2 s.env.host
  rcases hc with hc | ⟨hl, ht⟩
  · obtain ⟨a, b, rfl⟩ := List.length_eq_two.mp hc
    have e : trRead 2 s1 = ([a, b], s1.tookHost 2 2 [a, b]) := trRead_sends (s := s1) hb rfl
    by_cases h : [a, b] = sentinel
    · refine .inl ⟨h ▸ hb, ?_⟩
      simp only [linkTest]
      rw [e]
      simp only [h, if_true]
    · refine .inr (.inl ⟨a, b, hb, h, ?_⟩)
      simp only [linkTest]
      rw [e]
      simp only [h, if_false]
  · have e : trRead 2 s1 = (bs, s1.tookHost (bs.length + 1) 2 bs) :=
      trRead_stops (s := s1) ⟨hb, ht⟩ hl
    refine .inr (.inr ⟨bs, ⟨hb, ht⟩, hl, ?_⟩)
    simp only [linkTest]
    rw [e]
    match bs, hl with
    | [], _ => rfl
    | [_], _ => rfl

theorem execSpiRead_cases (s : State) :
    (s.spiOpen = false ∧ exec .spiRead s = .refused .spiBusClosed) ∨
    (s.spiOpen = true ∧ ∃ n, s.hostAt 0 = .byte n ∧ n.toNat ≤ s.params.bufCap ∧
      ∃ data, data = (List.range n.toNat).map s.spiAt ∧ exec .spiRead s = .next
        (respondOk 11 (trWrite data ((((((s.echoedLen 11 n).setPc .execute).setSpiIn
          (s.env.spi.skip n.toNat)).emit (.spiRead data)).setBuf (s.buf.writeRun 0 data)).setIdx
            n.toNat |>.setPc .payloadOut |>.setIdx n.toNat)))) ∨
    (s.spiOpen = true ∧ ∃ n, s.hostAt 0 = .byte n ∧ s.params.bufCap < n.toNat ∧
      exec .spiRead s = .next (raise 11 .invalidInput ((s.gotParam n).setLen n))) ∨
    (s.spiOpen = true ∧ s.hostAt 0 = .timeout ∧
      exec .spiRead s = .next (raise 11 .inputTimeout s.noParam)) := by
  cases ho : s.spiOpen with
  | false => exact .inl ⟨rfl, onOpenSpi_closed ho⟩
  | true =>
    refine .inr ?_
    have e0 : exec .spiRead s = _ := onOpenSpi_open ho
    rcases takeParam_cases 11 s _ with ⟨n, h, e⟩ | ⟨h, e⟩
    · by_cases hn : n.toNat ≤ s.params.bufCap
      · refine .inl ⟨rfl, n, h, hn, _, rfl, e0.trans (e.trans ((checkLen_ok hn).trans ?_))⟩
        have hl : ((List.range n.toNat).map s.spiAt).length = n.toNat := by simp
        simp only [spiRead_eq]
        have e1 := payloadToBuf_eq (v := (List.range n.toNat).map s.spiAt)
          (s := (((s.echoedLen 11 n).setPc .execute).setSpiIn (s.env.spi.skip n.toNat)).emit
            (.spiRead ((List.range n.toNat).map s.spiAt))) (by rw [hl]; exact hn)
        have e2 := bufToHost_writeRun (v := (List.range n.toNat).map s.spiAt) (m := s.buf)
          (s := ((((((s.echoedLen 11 n).setPc .execute).setSpiIn (s.env.spi.skip n.toNat)).emit
            (.spiRead ((List.range n.toNat).map s.spiAt))).setBuf
              (s.buf.writeRun 0 ((List.range n.toNat).map s.spiAt))).setIdx n.toNat).setPc
                .payloadOut) rfl (by rw [hl]; exact hn)
        rw [hl] at e1 e2
        exact (congrArg (finish · _) e1).trans
          (congrArg (finish · fun s4 => .next (respondOk 11 s4)) e2)
      · exact .inr (.inl ⟨rfl, n, h, by omega, e0.trans (e.trans (checkLen_over (Nat.lt_of_not_le hn)))⟩)
    · exact .inr (.inr ⟨rfl, h, e0.trans e⟩)

theorem execSpiWrite_cases (s : State) :
    (s.spiOpen = false ∧ exec .spiWrite s = .refused .spiBusClosed) ∨
    (s.spiOpen = true ∧ ∃ n bs, s.hostSends (n :: bs) ∧ bs.length = n.toNat ∧
      n.toNat ≤ s.params.bufCap ∧ exec .spiWrite s = .next
        (respondOk 12 (spiWrite bs (((((s.echoedLen 12 n).gotPayload n.toNat bs).setPc
          .execute).setIdx n.toNat))))) ∨
    (s.spiOpen = true ∧ ∃ n bs, s.hostStops (n :: bs) ∧ bs.length < n.toNat ∧
      n.toNat ≤ s.params.bufCap ∧ exec .spiWrite s = .next
        (raise 12 .inputTimeout
          (((s.echoedLen 12 n).setPc .payloadIn).tookHost (bs.length + 1) n.toNat bs))) ∨
    (s.spiOpen = true ∧ ∃ n, s.hostAt 0 = .byte n ∧ s.params.bufCap < n.toNat ∧
      exec .spiWrite s = .next (raise 12 .invalidInput ((s.gotParam n).setLen n))) ∨
    (s.spiOpen = true ∧ s.hostAt 0 = .timeout ∧
      exec .spiWrite s = .next (raise 12 .inputTimeout s.noParam)) := by
  cases ho : s.spiOpen with
  | false => exact .inl ⟨rfl, onOpenSpi_closed ho⟩
  | true =>
    refine .inr ?_
    have e0 : exec .spiWrite s = _ := onOpenSpi_open ho
    rcases takeParam_cases 12 s _ with ⟨n, h, e⟩ | ⟨h, e⟩
    · by_cases hn : n.toNat ≤ s.params.bufCap
      · have e1 := e0.trans (e.trans (checkLen_ok hn))
        rcases takePayload_cases 12 (n := n.toNat) (s.echoedLen 12 n) _ hn with
          ⟨bs, hb, hl, e2⟩ | ⟨bs, hb, hl, e2⟩
        · refine .inl ⟨rfl, n, bs, hostSends_cons.mpr ⟨h, hb⟩, hl, hn, e1.trans (e2.trans ?_)⟩
          have e3 := bufToSpi_writeRun (v := bs) (m := s.buf)
            (s := ((s.echoedLen 12 n).gotPayload n.toNat bs).setPc .execute) rfl
            (by rw [hl]; exact hn)
          rw [hl] at e3
          exact congrArg (finish · _) e3
        · exact .inr (.inl ⟨rfl, n, bs, hostStops_cons.mpr ⟨h, hb⟩, hl, hn, e1.trans e2⟩)
      · exact .inr (.inr (.inl ⟨rfl, n, h, by omega,
          e0.trans (e.trans (checkLen_over (Nat.lt_of_not_le hn)))⟩))
    · exact .inr (.inr (.inr ⟨rfl, h, e0.trans e⟩))

theorem execI2cInit_cases (s : State) :
    (∃ p k, s.hostAt 0 = .byte p ∧ speedClass? p = some k ∧ exec .i2cInit s =
      .next (respondOk 20 (configure p ((s.gotParam p).setPc .execute)))) ∨
    (∃ p, s.hostAt 0 = .byte p ∧ speedClass? p = none ∧
      exec .i2cInit s = .next (raise 20 .invalidInput (s.gotParam p))) ∨
    (s.hostAt 0 = .timeout ∧ exec .i2cInit s = .next (raise 20 .inputTimeout s.noParam)) := by
  rcases takeParam_cases 20 s _ with ⟨p, h, e⟩ | ⟨h, e⟩
  · cases hp : speedClass? p with
    | some k => exact .inl ⟨p, k, h, hp, e.trans (by simp only [hp]; rfl)⟩
    | none => exact .inr (.inl ⟨p, h, hp, e.trans (by simp only [hp]; rfl)⟩)
  · exact .inr (.inr ⟨h, e⟩)

/-- The bus-facing part of `I2C_READ`, and how its frame ends. -/
theorem execI2cRead_cases (s : State) :
    (s.i2cOpen = false ∧ exec .i2cRead s = .refused .i2cBusClosed) ∨
    (∃ c n nack, s.i2c = some c ∧ s.hostSends [n, nack] ∧ n.toNat ≤ 32 ∧
      ∃ s1 t new data,
        s1 = (earlyEcho 22 ((((s.setPc .readParams).tookHost 2 2 [n, nack]).setLen n).setFlag
          (nack != 0))).setPc .execute ∧
        readData n.toNat (nack != 0) s1 = .ok t ∧ BusRan s1 t new (n.toNat * s.budget c) ∧
        BufKept s t 0 n.toNat ∧ t.latches.idx ≤ max s.latches.idx s.params.bufCap ∧ t.latches.st ≠ .configError ∧
        data.length = n.toNat ∧ (∀ k, (hk : k < data.length) → t.buf.read k = some data[k]) ∧
        exec .i2cRead s =
          .next (respondStatus 22 (trWrite data ((t.setPc .payloadOut).setIdx n.toNat)))) ∨
    (s.i2cOpen = true ∧ ∃ n nack, s.hostSends [n, nack] ∧ 32 < n.toNat ∧ exec .i2cRead s = .next
      (raise 22 .invalidInput
        ((((s.setPc .readParams).tookHost 2 2 [n, nack]).setLen n).setFlag (nack != 0)))) ∨
    (s.i2cOpen = true ∧ ∃ bs, s.hostStops bs ∧ bs.length < 2 ∧ exec .i2cRead s = .next
      (raise 22 .inputTimeout ((s.setPc .readParams).tookHost (bs.length + 1) 2 bs))) := by
  cases hc : s.i2c with
  | none =>
    have ho : s.i2cOpen = false := by simp [i2cOpen, hc]
    exact .inl ⟨ho, onOpenI2c_closed ho⟩
  | some c =>
    have ho : s.i2cOpen = true := by simp [i2cOpen, hc]
    refine .inr ?_
    have e0 : exec .i2cRead s = _ := onOpenI2c_open ho
    rcases takeParams2_cases 22 s _ with ⟨n, nack, h, e⟩ | ⟨bs, h, hl, e⟩
    · by_cases hn : n.toNat ≤ 32
      · have e1 := e0.trans (e.trans (checkLen_ok hn))
        have hcap : n.toNat ≤ s.params.bufCap := Nat.le_trans hn s.params.bufCap_ge
        obtain ⟨t, new, e2, ran, kept, hti, hst, hfill⟩ := readData_ran (c := c) n.toNat (nack != 0)
          (s := (earlyEcho 22 ((((s.setPc .readParams).tookHost 2 2 [n, nack]).setLen n).setFlag
            (nack != 0))).setPc .execute) hc hcap (Nat.le_max_right s.latches.idx _)
          (Nat.le_max_left _ _)
        obtain ⟨data, hl, e3, hk⟩ := bufToHost_filled (s := t.setPc .payloadOut) (n := n.toNat)
          (by rw [setPc_params, ran.params]; exact hcap) hfill
        refine .inl ⟨c, n, nack, rfl, h, hn, _, t, new, data, rfl, e2, ran,
          ⟨kept.wf, kept.listed, kept.outside⟩, hti, hst, hl, hk, e1.trans ?_⟩
        refine (congrArg (finish · _) e2).trans ?_
        have hlen : t.latches.len = n := ran.len
        simp only [finish, hlen, e3]
        rfl
      · exact .inr (.inl ⟨ho, n, nack, h, by omega, e0.trans (e.trans (checkLen_over (Nat.lt_of_not_le hn)))⟩)
    · exact .inr (.inr ⟨ho, bs, h, hl, e0.trans e⟩)

theorem execI2cWrite_cases (s : State) :
    (s.i2cOpen = false ∧ exec .i2cWrite s = .refused .i2cBusClosed) ∨
    (∃ c n bs, s.i2c = some c ∧ s.hostSends (n :: bs) ∧ bs.length = n.toNat ∧ n.toNat ≤ 32 ∧
      ∃ s1 t new, s1 = ((s.echoedLen 23 n).gotPayload n.toNat bs).setPc .execute ∧
        writeData n.toNat s1 = .ok t ∧ BusRan s1 t new (n.toNat * s.budget c) ∧
        t.buf = s.buf.writeRun 0 bs ∧ t.latches.idx ≤ max s.latches.idx s.params.bufCap ∧
        t.latches.st ≠ .configError ∧ exec .i2cWrite s = .next (respondStatus 23 t)) ∨
    (s.i2cOpen = true ∧ ∃ n bs, s.hostStops (n :: bs) ∧ bs.length < n.toNat ∧ n.toNat ≤ 32 ∧
      exec .i2cWrite s = .next (raise 23 .inputTimeout
        (((s.echoedLen 23 n).setPc .payloadIn).tookHost (bs.length + 1) n.toNat bs))) ∨
    (s.i2cOpen = true ∧ ∃ n, s.hostAt 0 = .byte n ∧ 32 < n.toNat ∧
      exec .i2cWrite s = .next (raise 23 .invalidInput ((s.gotParam n).setLen n))) ∨
    (s.i2cOpen = true ∧ s.hostAt 0 = .timeout ∧
      exec .i2cWrite s = .next (raise 23 .inputTimeout s.noParam)) := by
  cases hc : s.i2c with
  | none =>
    have ho : s.i2cOpen = false := by simp [i2cOpen, hc]
    exact .inl ⟨ho, onOpenI2c_closed ho⟩
  | some c =>
    have ho : s.i2cOpen = true := by simp [i2cOpen, hc]
    refine .inr ?_
    have e0 : exec .i2cWrite s = _ := onOpenI2c_open ho
    rcases takeParam_cases 23 s _ with ⟨n, h, e⟩ | ⟨h, e⟩
    · by_cases hn : n.toNat ≤ 32
      · have hcap : n.toNat ≤ s.params.bufCap := Nat.le_trans hn s.params.bufCap_ge
        have e1 := e0.trans (e.trans (checkLen_ok hn))
        rcases takePayload_cases 23 (n := n.toNat) (s.echoedLen 23 n) _ hcap with
          ⟨bs, hb, hl, e2⟩ | ⟨bs, hb, hl, e2⟩
        · obtain ⟨t, new, e3, ran, hbuf, hti, hst⟩ := writeLoop_ran (c := c) n.toNat 0
            (((s.echoedLen 23 n).gotPayload n.toNat bs).setPc .execute) hc
            (by rw [Nat.zero_add]; exact hcap) (Nat.le_max_right s.latches.idx _)
            (Nat.le_trans hcap (Nat.le_max_right _ _)) (fun j _ hj => by
              have := Memory.read_writeRun_inside bs s.buf 0 j (by omega)
              rw [Nat.zero_add] at this
              show (Memory.read (s.buf.writeRun 0 bs) j).isSome = true
              rw [this]; rfl)
          refine .inl ⟨c, n, bs, rfl, hostSends_cons.mpr ⟨h, hb⟩, hl, hn, _, t, new, rfl, e3, ran,
            hbuf, hti, hst, e1.trans (e2.trans ?_)⟩
          exact congrArg (finish · _) e3
        · exact .inr (.inl ⟨ho, n, bs, hostStops_cons.mpr ⟨h, hb⟩, hl, hn, e1.trans e2⟩)
      · exact .inr (.inr (.inl ⟨ho, n, h, by omega,
          e0.trans (e.trans (checkLen_over (Nat.lt_of_not_le hn)))⟩))
    · exact .inr (.inr (.inr ⟨ho, h, e0.trans e⟩))

/-- The state in which START is requested: after the phase read and, on a wedged bus, the recovery. -/
abbrev State.beforeStart (s : State) (c : I2cConfig) : State :=
  let s1 := (phyPhase (s.setPc .execute)).2
  if s.phaseAt 0 = .idleError then configure c.cls.byte s1 else s1

theorem execI2cStart_cases (s : State) :
    (s.i2cOpen = false ∧ exec .i2cStart s = .refused .i2cBusClosed) ∨
    (∃ c c' t new, s.i2c = some c ∧ (s.beforeStart c).i2c = some c' ∧
      startAndPoll (s.beforeStart c) = .ok t ∧
      BusRan (s.beforeStart c) t new (s.budget c') ∧ t.buf = s.buf ∧
      t.latches.idx = s.latches.idx ∧ t.latches.st ≠ .configError ∧
      exec .i2cStart s = .next (respondStatus 24 t)) := by
  cases hc : s.i2c with
  | none =>
    have ho : s.i2cOpen = false := by simp [i2cOpen, hc]
    exact .inl ⟨ho, onOpenI2c_closed ho⟩
  | some c =>
    have ho : s.i2cOpen = true := by simp [i2cOpen, hc]
    refine .inr ?_
    have e0 : exec .i2cStart s = _ := onOpenI2c_open ho
    have hcfg : ∀ u : State, ∃ c', (configure c.cls.byte u).i2c = some c' ∧
        (configure c.cls.byte u).params = u.params ∧ (configure c.cls.byte u).buf = u.buf ∧
        (configure c.cls.byte u).latches.idx = u.latches.idx := by
      intro u; cases c.cls <;> exact ⟨_, rfl, rfl, rfl, rfl⟩
    have hp : phyPhase (s.setPc .execute) =
        (s.phaseAt 0, (phyPhase (s.setPc .execute)).2) := by rw [phyPhase_eq]; rfl
    have hs1 : (phyPhase (s.setPc .execute)).2.i2c = some c := by rw [phyPhase_eq]; exact hc
    have h0 : ∃ c', (s.beforeStart c).i2c = some c' ∧ (s.beforeStart c).params = s.params ∧
        (s.beforeStart c).buf = s.buf ∧ (s.beforeStart c).latches.idx = s.latches.idx ∧
        sendStart (s.setPc .execute) = startAndPoll (s.beforeStart c) := by
      by_cases hw : s.phaseAt 0 = .idleError
      · have hb : s.beforeStart c = configure c.cls.byte (phyPhase (s.setPc .execute)).2 := if_pos hw
        obtain ⟨c', h1, h2, h3, h4⟩ := hcfg (phyPhase (s.setPc .execute)).2
        refine ⟨c', by rw [hb]; exact h1, by rw [hb, h2, phyPhase_eq]; rfl,
          by rw [hb, h3, phyPhase_eq]; rfl, by rw [hb, h4, phyPhase_eq]; rfl, ?_⟩
        rw [hb, sendStart, hp]
        simp only [hw, if_true, recoverBus, hs1]
      · have hb : s.beforeStart c = (phyPhase (s.setPc .execute)).2 := if_neg hw
        refine ⟨c, by rw [hb]; exact hs1, by rw [hb, phyPhase_eq]; rfl, by rw [hb, phyPhase_eq]; rfl,
          by rw [hb, phyPhase_eq]; rfl, ?_⟩
        rw [hb, sendStart, hp]
        simp only [hw, if_false]
    obtain ⟨c', h1, h2, h3, h4, h5⟩ := h0
    obtain ⟨t, new, e1, ran, hb, hi, hst⟩ := startAndPoll_ran h1
    have hbud : (s.beforeStart c).budget c' = s.budget c' := by rw [State.budget, h2]
    rw [hbud] at ran
    refine ⟨c, c', t, new, rfl, h1, e1, ran, hb.trans h3, hi.trans h4, hst, e0.trans ?_⟩
    rw [h5, e1]
    rfl

end Sys2Proof.Machine
end

