-- ==== Sys2Proof/Laws/PerInstr.lean ====
section
/-! SUPPORT. Statements made command by command, about the command as syntax: family `Opcode`, a well-formed
command is decoded from its opcode byte and from nothing else, and a frame of it begins with that byte. -/

namespace Sys2Proof.Laws.Opcode

open Sys2Proof

/-- The opcode byte of a well-formed command decodes to it; it is one of the closed set exactly if the command
is not `nosuch`; and it comes first in every frame of the command (R43, R46, R48, R52). -/
def Statement (i : Instr) : Prop :=
  i.wf = true →
    decode i.opcode = i ∧ (i.opcode ∈ closedOpcodes ↔ i.format ≠ .x) ∧
      ∀ ps tl, (encodeFrame ⟨i, ps, tl⟩).head? = some i.opcode

theorem spiInit : Statement .spiInit := fun _ => ⟨rfl, by decide, fun _ _ => rfl⟩
theorem spiDeinit : Statement .spiDeinit := fun _ => ⟨rfl, by decide, fun _ _ => rfl⟩
theorem spiSelect : Statement .spiSelect := fun _ => ⟨rfl, by decide, fun _ _ => rfl⟩
theorem spiRelease : Statement .spiRelease := fun _ => ⟨rfl, by decide, fun _ _ => rfl⟩
theorem spiRead : Statement .spiRead := fun _ => ⟨rfl, by decide, fun _ _ => rfl⟩
theorem spiWrite : Statement .spiWrite := fun _ => ⟨rfl, by decide, fun _ _ => rfl⟩
theorem spiTest : Statement .spiTest := fun _ => ⟨rfl, by decide, fun _ _ => rfl⟩
theorem i2cInit : Statement .i2cInit := fun _ => ⟨rfl, by decide, fun _ _ => rfl⟩
theorem i2cDeinit : Statement .i2cDeinit := fun _ => ⟨rfl, by decide, fun _ _ => rfl⟩
theorem i2cRead : Statement .i2cRead := fun _ => ⟨rfl, by decide, fun _ _ => rfl⟩
theorem i2cWrite : Statement .i2cWrite := fun _ => ⟨rfl, by decide, fun _ _ => rfl⟩
theorem i2cStart : Statement .i2cStart := fun _ => ⟨rfl, by decide, fun _ _ => rfl⟩
theorem i2cStop : Statement .i2cStop := fun _ => ⟨rfl, by decide, fun _ _ => rfl⟩
theorem i2cTest : Statement .i2cTest := fun _ => ⟨rfl, by decide, fun _ _ => rfl⟩

theorem nosuch (op : Byte) : Statement (.nosuch op) := by
  intro h
  have all : ∀ b : Byte, (Instr.nosuch b).wf = true →
      decode b = .nosuch b ∧ (b ∈ closedOpcodes ↔ Format.x ≠ .x) := by decide
  exact ⟨(all op h).1, (all op h).2, fun _ _ => rfl⟩

end Sys2Proof.Laws.Opcode
end

