-- ==== Sys2Proof/Laws/Request.lean ====
section
/-! SUPPORT. What the operations of `requestFrom` can do, said once: the operations they may issue, how often
they read the data register, and what they leave alone. -/

namespace Sys2Proof.Machine

open Sys2Proof State

/-- From `s` to `t` only PHY operations were issued, none that disables the hardware and no STOP, all in the
dispatcher state of `s`, with exactly `d` reads of the data register; configuration, Transport and SPI answers
are as they were. -/
structure RequestRan (s t : State) (new : List Entry) (d : Nat) : Prop where
  trace : t.trace = s.trace ++ new
  ops : ∀ e ∈ new, e.1 = s.pc ∧ e.2.isPhy = true ∧ e.2 ≠ .phyOff ∧ e.2 ≠ .phyStop
  reads : dataReads new = d
  params : t.params = s.params
  pc : t.pc = s.pc
  i2c : t.i2c = s.i2c
  spi : t.spi = s.spi
  host : t.env.host = s.env.host
  spiIn : t.env.spi = s.env.spi

theorem RequestRan.refl (s : State) : RequestRan s s [] 0 := by
  constructor <;> simp [dataReads]

theorem RequestRan.trans {s t u : State} {new new' : List Entry} {d d' : Nat}
    (h : RequestRan s t new d) (h' : RequestRan t u new' d') :
    RequestRan s u (new ++ new') (d + d') where
  trace := by rw [h'.trace, h.trace, List.append_assoc]
  ops e he := by
    rcases List.mem_append.mp he with he | he
    · exact h.ops e he
    · have := h'.ops e he; rwa [h.pc] at this
  reads := by
    have := h.reads; have := h'.reads
    simp only [dataReads, List.countP_append] at *
    omega
  params := h'.params.trans h.params
  pc := h'.pc.trans h.pc
  i2c := h'.i2c.trans h.i2c
  spi := h'.spi.trans h.spi
  host := h'.host.trans h.host
  spiIn := h'.spiIn.trans h.spiIn

/-- The same change seen through updates that leave every part `RequestRan` speaks of alone. -/
theorem RequestRan.congr {s t t' : State} {new : List Entry} {d : Nat} (h : RequestRan s t new d)
    (e1 : t'.trace = t.trace) (e2 : t'.params = t.params) (e3 : t'.pc = t.pc) (e4 : t'.i2c = t.i2c)
    (e5 : t'.spi = t.spi) (e6 : t'.env.host = t.env.host) (e7 : t'.env.spi = t.env.spi) :
    RequestRan s t' new d :=
  ⟨e1.trans h.trace, h.ops, h.reads, e2.trans h.params, e3.trans h.pc, e4.trans h.i2c, e5.trans h.spi,
    e6.trans h.host, e7.trans h.spiIn⟩

theorem RequestRan.setSt {s t : State} {new : List Entry} {d : Nat} (h : RequestRan s t new d)
    (x : Status) : RequestRan s (t.setSt x) new d := h.congr rfl rfl rfl rfl rfl rfl rfl

/-- One transfer operation that is no read of the data register. -/
theorem RequestRan.emit (s : State) (e : Event) (h1 : e.isPhy = true) (h2 : e ≠ .phyOff)
    (h3 : e ≠ .phyStop) (h4 : e.isDataRead = false) : RequestRan s (s.emit e) [(s.pc, e)] 0 := by
  constructor <;> try rfl
  · intro x hx
    rw [List.mem_singleton.mp hx]
    exact ⟨rfl, h1, h2, h3⟩
  · simp [dataReads, h4]

theorem phyPhase_requestRan (s : State) :
    RequestRan s (phyPhase s).2 [(s.pc, .phyPhase (s.phaseAt 0))] 0 := by
  rw [phyPhase_eq]
  constructor <;> try rfl
  intro x hx
  rw [List.mem_singleton.mp hx]
  simp [Event.isPhy]

theorem phyData_requestRan (s : State) :
    RequestRan s (phyData s).2 [(s.pc, .phyData (s.dataAt 0))] 1 := by
  rw [phyData_eq]
  constructor <;> try rfl
  intro x hx
  rw [List.mem_singleton.mp hx]
  simp [Event.isPhy]

/-- A polling loop reads no data, and leaves buffer and cursors alone. -/
theorem pollFlag_requestRan {s : State} {c : I2cConfig} (hc : s.i2c = some c) :
    ∃ r t new, pollFlag s = .ok (r, t) ∧ RequestRan s t new 0 ∧ t.buf = s.buf := by
  rcases pollFlag_cases hc with ⟨k, -, -, e⟩ | ⟨-, e⟩
  · refine ⟨_, _, pollDoneTrace s.pc k, e, ?_, rfl⟩
    constructor <;> try rfl
    · intro e he
      rcases List.mem_append.mp he with he | he
      · rw [List.eq_of_mem_replicate he]; simp [Event.isPhy]
      · rw [List.mem_singleton.mp he]; simp [Event.isPhy]
    · simp [dataReads, List.countP_replicate, Event.isDataRead]
  · refine ⟨_, _, pollExpiredTrace s.pc (s.budget c), e, ?_, rfl⟩
    constructor <;> try rfl
    · intro e he
      rw [List.eq_of_mem_replicate he]; simp [Event.isPhy]
    · simp [dataReads, List.countP_replicate, Event.isDataRead]

/-- All `sendByte` can do on an open bus, for `requestFrom`. -/
theorem sendByte_requestRan {s : State} {c : I2cConfig} (b : Byte) (hc : s.i2c = some c) :
    ∃ r t new, sendByte b s = .ok (r, t) ∧ RequestRan s t new 0 ∧ t.buf = s.buf := by
  have hc' : (phyTxGo (phyLoad b s)).i2c = some c := hc
  obtain ⟨r, t, new, e, ran, hb⟩ := pollFlag_requestRan hc'
  have h1 := ((RequestRan.emit s (.phyLoad b) rfl (by simp) (by simp) rfl).trans
    (RequestRan.emit (phyLoad b s) .phyTxGo rfl (by simp) (by simp) rfl)).trans ran
  simp only [sendByte, e]
  cases r with
  | expired => exact ⟨none, _, _, rfl, h1.setSt _, hb⟩
  | done =>
    have hb' : (phyPhase t).2.buf = t.buf := by simp [phyPhase_eq]
    exact ⟨_, _, _, rfl, h1.trans (phyPhase_requestRan t), hb'.trans hb⟩

/-- All `readByte` can do on an open bus: it reads the data register once if it accepts a byte, else
never. -/
theorem readByte_requestRan {s : State} {c : I2cConfig} (nack : Bool) (hc : s.i2c = some c) :
    ∃ r t new, readByte nack s = .ok (r, t) ∧ RequestRan s t new (if r.isSome then 1 else 0) ∧
      t.buf = s.buf := by
  have hc' : (phyRxGo (!nack) s).i2c = some c := hc
  obtain ⟨r, t, new, e, ran, hb⟩ := pollFlag_requestRan hc'
  have h1 := (RequestRan.emit s (.phyRxGo (!nack)) rfl (by simp) (by simp) rfl).trans ran
  simp only [readByte, e]
  cases r with
  | expired => exact ⟨none, _, _, rfl, h1.setSt _, hb⟩
  | done =>
    have h2 := h1.trans (phyPhase_requestRan t)
    have e2 : (phyPhase t).2.buf = t.buf := by simp [phyPhase_eq]
    simp only
    split
    · have h3 := h2.trans (phyData_requestRan _)
      have e3 : (phyData (phyPhase t).2).2.buf = t.buf := by simp [phyData_eq, phyPhase_eq]
      exact ⟨_, _, _, rfl, h3.setSt _, e3.trans hb⟩
    · exact ⟨none, _, _, rfl, h2.setSt _, e2.trans hb⟩

/-- All the byte loop of `requestFrom` can do on an open bus within the buffer: the count is of bytes read
from the data register. -/
theorem requestLoop_requestRan {c : I2cConfig} (m idx : Nat) (s : State) (hc : s.i2c = some c)
    (hm : idx + m ≤ s.params.bufCap) :
    ∃ n t new, requestLoop m idx s = .ok (idx + n, t) ∧ RequestRan s t new n ∧ n ≤ m := by
  induction m generalizing idx s with
  | zero => exact ⟨0, s, [], rfl, .refl s, le_refl _⟩
  | succ m ih =>
    obtain ⟨r, t, new, e, ran, -⟩ := readByte_requestRan (m == 0) (s := s.setIdx idx) hc
    have ran' : RequestRan s t new (if r.isSome then 1 else 0) :=
      ⟨ran.trace, ran.ops, ran.reads, ran.params, ran.pc, ran.i2c, ran.spi, ran.host, ran.spiIn⟩
    simp only [requestLoop, e]
    cases r with
    | none => exact ⟨0, t, new, rfl, ran', Nat.zero_le _⟩
    | some b =>
      have hw : bufStore idx b t = .ok (t.setBuf (t.buf.writeRun idx [b])) := by
        refine memWrite_eq ?_
        rw [ran'.params]; simp; omega
      obtain ⟨n, u, new', e', ran2, hn⟩ := ih (idx + 1) (t.setBuf (t.buf.writeRun idx [b]))
        (by rw [setBuf_i2c, ran'.i2c]; exact hc) (by rw [setBuf_params, ran'.params]; omega)
      simp only [hw, e']
      have ran1 : RequestRan s (t.setBuf (t.buf.writeRun idx [b])) new 1 :=
        ran'.congr rfl rfl rfl rfl rfl rfl rfl
      exact ⟨1 + n, u, _, by rw [Nat.add_assoc], ran1.trans ran2, by omega⟩

/-- All the byte loop of `writeData` can do on an open bus, for `requestFrom`. -/
theorem writeLoop_requestRan {c : I2cConfig} (n idx : Nat) (s : State) (hc : s.i2c = some c)
    (hn : idx + n ≤ s.params.bufCap)
    (hb : ∀ j, idx ≤ j → j < idx + n → (s.buf.read j).isSome = true) :
    ∃ t new, writeLoop n idx s = .ok t ∧ RequestRan s t new 0 := by
  induction n generalizing idx s with
  | zero => exact ⟨_, [], rfl, (RequestRan.refl s).setSt _⟩
  | succ n ih =>
    obtain ⟨v, hv⟩ := Option.isSome_iff_exists.mp (hb idx (by omega) (by omega))
    have hl : bufLoad idx s = .ok v := by
      simp only [bufLoad, State.bufAt, hv]
      rw [if_pos (by omega)]
    obtain ⟨r, t, new, e, ran, hbt⟩ := sendByte_requestRan v (s := s.setIdx idx) hc
    have ran' : RequestRan s t new 0 :=
      ⟨ran.trace, ran.ops, ran.reads, ran.params, ran.pc, ran.i2c, ran.spi, ran.host, ran.spiIn⟩
    have hbt' : t.buf = s.buf := hbt
    simp only [writeLoop, hl, e]
    cases r with
    | none => exact ⟨t, new, rfl, ran'⟩
    | some p =>
      simp only
      split
      · obtain ⟨u, new', e', ran2⟩ := ih (idx + 1) t (by rw [ran'.i2c]; exact hc)
          (by rw [ran'.params]; omega)
          (fun j h1 h2 => by rw [hbt']; exact hb j (by omega) (by omega))
        exact ⟨u, _, e', ran'.trans ran2⟩
      · exact ⟨_, new, rfl, ran'.setSt _⟩

/-- All `sendStart` can do on an open, legal bus. -/
theorem sendStart_requestRan {s : State} {c : I2cConfig} (hc : s.i2c = some c)
    (hl : c.legal = true) :
    ∃ t new, sendStart s = .ok t ∧ RequestRan s t new 0 ∧ t.buf = s.buf := by
  have fromPoll : ∀ u : State, u.i2c = some c →
      ∃ t new, startAndPoll u = .ok t ∧ RequestRan u t new 0 ∧ t.buf = u.buf := by
    intro u hu
    have hu' : (phyStart u).i2c = some c := hu
    obtain ⟨r, t, new, e, ran, hb⟩ := pollFlag_requestRan hu'
    have h1 := (RequestRan.emit u .phyStart rfl (by simp) (by simp) rfl).trans ran
    simp only [startAndPoll, e]
    cases r with
    | expired => exact ⟨_, _, rfl, h1.setSt _, hb⟩
    | done =>
      have hb' : (phyPhase t).2.buf = t.buf := by simp [phyPhase_eq]
      exact ⟨_, _, rfl, (h1.trans (phyPhase_requestRan t)).setSt _, hb'.trans hb⟩
  have h0 := phyPhase_requestRan s
  have hb0 : (phyPhase s).2.buf = s.buf := by simp [phyPhase_eq]
  have hc0 : (phyPhase s).2.i2c = some c := h0.i2c.trans hc
  simp only [sendStart]
  split
  · have hcf := configure_legal (s := (phyPhase s).2) hl
    have h1 : RequestRan (phyPhase s).2 (configure c.cls.byte (phyPhase s).2)
        [((phyPhase s).2.pc, .phyInit c.clkHz)] 0 := by
      rw [hcf]
      constructor <;> try rfl
      · intro x hx
        rw [List.mem_singleton.mp hx]
        simp [Event.isPhy]
      · exact hc0.symm
    obtain ⟨t, new, e, ran, hb⟩ := fromPoll (configure c.cls.byte (phyPhase s).2)
      (h1.i2c.trans hc0)
    simp only [recoverBus, hc0]
    refine ⟨t, _, e, (h0.trans h1).trans ran, ?_⟩
    rw [hb, hcf]
    exact hb0
  · obtain ⟨t, new, e, ran, hb⟩ := fromPoll (phyPhase s).2 hc0
    exact ⟨t, _, e, h0.trans ran, hb.trans hb0⟩

end Sys2Proof.Machine
end

