-- ==== Sys2Proof/Laws/Reset.lean ====
section
/-! SUPPORT. The external reset and what one step runs: the state a reset leaves, field by field, and all the cases
of a step. -/

namespace Sys2Proof.Machine

open Sys2Proof State

/-! ### The state a reset leaves -/

variable (s : State)

@[simp] theorem resetBlock_params : (resetBlock s).params = s.params := rfl
@[simp] theorem resetBlock_pc : (resetBlock s).pc = .awaitOpcode := rfl
@[simp] theorem resetBlock_latches : (resetBlock s).latches = .reset := rfl
@[simp] theorem resetBlock_i2c : (resetBlock s).i2c = none := rfl
@[simp] theorem resetBlock_spi : (resetBlock s).spi = none := rfl
@[simp] theorem resetBlock_txCur : (resetBlock s).txCur = 0 := rfl
@[simp] theorem resetBlock_rxCur : (resetBlock s).rxCur = 0 := rfl
@[simp] theorem resetBlock_buf : (resetBlock s).buf = [] := rfl
@[simp] theorem resetBlock_env :
    (resetBlock s).env = { s.env with resets := s.env.resets + 1, resetIn := none } := rfl
@[simp] theorem resetBlock_trace : (resetBlock s).trace = s.trace := rfl

/-- Whatever the state was, a reset leaves a consistent one. -/
theorem consistent_resetBlock : Consistent (resetBlock s) := by
  constructor <;> simp [Latches.reset, Memory.wf]

/-! ### What one step runs -/

variable {s}

theorem step_running (h : s.env.resetIn = none) : step s = runCommand s := by simp only [step, h]

theorem step_reset (h : s.env.resetIn = some 0) : step s = .next (resetBlock s) := by simp only [step, h]

/-- All a step can do that leads to a next state: run a command, reset at once, cut a command short after some
of its operations, or run one before a reset that is still to come. -/
theorem step_cases {t : State} (h : step s = .next t) :
    (s.env.resetIn = none ∧ runCommand s = .next t) ∨
    (s.env.resetIn = some 0 ∧ t = resetBlock s) ∨
    ∃ j u, s.env.resetIn = some (j + 1) ∧ runCommand (s.setResetIn none) = .next u ∧
      ((j + 1 < (u.trace.drop s.trace.length).length ∧
          t = resetAfter ((u.trace.drop s.trace.length).take (j + 1)) u.env.junk s) ∨
        ((u.trace.drop s.trace.length).length ≤ j + 1 ∧
          t = u.setResetIn (some (j + 1 - (u.trace.drop s.trace.length).length)))) := by
  unfold step at h
  split at h
  · next hr => exact .inl ⟨hr, h⟩
  · next hr => exact .inr (.inl ⟨hr, (Host.Outcome.next.inj h).symm⟩)
  · next j hr =>
    refine .inr (.inr ⟨j, ?_⟩)
    unfold runCommandUnderReset at h
    split at h
    · simp at h
    · simp at h
    · next u hu =>
      refine ⟨u, hr, hu, ?_⟩
      simp only at h
      split at h
      · next hlt => exact .inl ⟨hlt, (Host.Outcome.next.inj h).symm⟩
      · next hge => exact .inr ⟨Nat.le_of_not_lt hge, (Host.Outcome.next.inj h).symm⟩

end Sys2Proof.Machine
end

