-- ==== Sys2Proof/Tests/Slice0.lean ====
section
/-! SUPPORT. Tests: the well-formedness checks refuse ill-formed terms, opcode bytes written out from R46 decode
to their commands, single steps give what spec/95_test_vectors.md lists (S1 to S7, V1 to V10), and the
hypotheses of every statement are met by a concrete state. -/

namespace Sys2Proof.Tests

open Sys2Proof Sys2Proof.Machine

/-! ### Ill-formed terms are refused -/

theorem smoke_nosuch_of_defined_opcode : (Instr.nosuch 7).wf = false := by decide
theorem smoke_nosuch_of_last_opcode : (Instr.nosuch 28).wf = false := by decide
theorem smoke_nosuch_of_unknown_opcode : (Instr.nosuch 26).wf = true := by decide
theorem smoke_frame_of_illformed_command : (HostFrame.mk (.nosuch 22) [] []).wf = false := by decide
theorem smoke_frame_short_of_parameters : (HostFrame.mk .i2cRead [1] []).wf = false := by decide
theorem smoke_frame_with_spare_parameter : (HostFrame.mk .i2cStop [0] []).wf = false := by decide
theorem smoke_frame_payload_not_as_long_as_said :
    (HostFrame.mk .i2cWrite [2] [0xA0]).wf = false := by decide
theorem smoke_frame_reply_too_long : (HostFrame.mk .spiTest [] [0xA5, 0x5A, 0]).wf = false := by decide

/-! ### Opcode bytes written out bit by bit (R46) -/

theorem test_decode_spi_family :
    decode 0b00000111 = .spiInit ∧ decode 0b00001000 = .spiDeinit ∧ decode 0b00001001 = .spiSelect ∧
    decode 0b00001010 = .spiRelease ∧ decode 0b00001011 = .spiRead ∧ decode 0b00001100 = .spiWrite ∧
    decode 0b00001101 = .spiTest := by decide

theorem test_decode_i2c_family :
    decode 0b00010100 = .i2cInit ∧ decode 0b00010101 = .i2cDeinit ∧ decode 0b00010110 = .i2cRead ∧
    decode 0b00010111 = .i2cWrite ∧ decode 0b00011000 = .i2cStart ∧ decode 0b00011001 = .i2cStop ∧
    decode 0b00011100 = .i2cTest := by decide

/-- The bytes next to the opcodes, and the error codes, are not opcodes (V8). -/
theorem test_decode_unknown :
    [(0 : Byte), 6, 14, 19, 26, 27, 29, 97, 100, 255].map decode =
      [.nosuch 0, .nosuch 6, .nosuch 14, .nosuch 19, .nosuch 26, .nosuch 27, .nosuch 29, .nosuch 97,
        .nosuch 100, .nosuch 255] := by decide

theorem test_decode_no_byte : decodeBytes [] = .error .noOpcode := by rfl

/-- The opcode is the first byte of a table word; the parameters are not part of the command. -/
theorem test_table_word : decodeTableWord 24 0x010216 = some .i2cRead := by decide

/-- The third frame of P1 is read whole and leaves the opcode of the fourth. -/
theorem test_parse_frame :
    parseFrame [0x17, 0x03, 0xA0, 0x10, 0x55, 0x19] =
      .ok (⟨.i2cWrite, [3], [0xA0, 0x10, 0x55]⟩, [0x19]) := by rfl

theorem test_parse_short : parseFrame [0x16, 0x05] = .error .shortParams ∧
    parseFrame [0x17, 0x02, 0x19] = .error .shortTail := by exact ⟨rfl, rfl⟩

/-! ### Single steps -/

/-- Both buses open as in spec/95_test_vectors.md (I2C class 0, `BUF_CAP` 64), `POLL_DELAY_US` 10, with these
answers of the environment to come. -/
def bench (host : List HostEvent) (flags : List Bool := []) (phases : List Phase := [])
    (data spi : List Byte := []) : State :=
  { State.reset with
    params := ⟨64, 10, by decide, by decide⟩
    i2c := some ⟨.standard, 100000, 500⟩
    spi := some ⟨4⟩
    env := ⟨⟨host, 0⟩, ⟨flags, 0⟩, ⟨phases, 0⟩, ⟨data, 0⟩, ⟨spi, 0⟩, 0, 0, none⟩ }

/-- `bench` with both buses closed. -/
def shut (host : List HostEvent) : State := { bench host with i2c := none, spi := none }

/-- The host sends these bytes. -/
def sent (bs : List Byte) : List HostEvent := bs.map .byte

/-- The bytes a step sends to the host. -/
def answer : Out → List Byte
  | .next t => hostBytes t.trace
  | .fault _ => []
  | .refused _ => []

/-- The PHY and SPI operations of a step. -/
def busOps : Out → List Event
  | .next t => (t.trace.map Prod.snd).filter fun e => e.isPhy || e.isSpi
  | .fault _ => []
  | .refused _ => []

/-- The state a step leads to, if it has one. -/
def after? : Out → Option State
  | .next t => some t
  | .fault _ => none
  | .refused _ => none

theorem test_spiInit_ok : busOps (step (shut (sent [7, 128]))) = [.spiInit 128] ∧
    (after? (step (shut (sent [7, 128])))).map State.spiDiv = some (some 128) := by decide
theorem test_spiInit_rejected :
    [0, 1, 3, 129].map (fun p => answer (step (shut (sent [7, p])))) = [[99], [99], [99], [99]] := by
  decide

theorem test_spiDeinit : answer (step (shut (sent [8]))) = [8] ∧
    busOps (step (bench (sent [8]))) = [.spiDeinit] := by decide

theorem test_spiSelect : answer (step (bench (sent [9]))) = [9] ∧
    busOps (step (bench (sent [9]))) = [.spiSelect] := by decide

theorem test_spiRelease : answer (step (bench (sent [10]))) = [10] ∧
    busOps (step (bench (sent [10]))) = [.spiRelease] := by decide

/-- A data byte equal to the opcode is not an echo (V9). -/
theorem test_spiRead :
    answer (step (bench (sent [11, 2]) (spi := [0x12, 0x0B]))) = [11, 0x12, 0x0B, 11] := by decide
theorem test_spiRead_over : answer (step (bench (sent [11, 65]))) = [99] ∧
    busOps (step (bench (sent [11, 65]))) = [] := by decide

theorem test_spiWrite : answer (step (bench (sent [12, 2, 6, 0]))) = [12, 12] ∧
    busOps (step (bench (sent [12, 2, 6, 0]))) = [.spiWrite [6, 0]] := by decide
theorem test_spiWrite_short : answer (step (bench (sent [12, 2, 6] ++ [.timeout]))) = [12, 98] ∧
    busOps (step (bench (sent [12, 2, 6] ++ [.timeout]))) = [] := by decide

theorem test_spiTest : answer (step (shut (sent [13, 0xA5, 0x5B]))) = [0xA5, 0x5A, 99] ∧
    answer (step (shut (sent [13, 0xA5] ++ [.timeout]))) = [0xA5, 0x5A, 98] := by decide

theorem test_i2cInit : busOps (step (bench (sent [20, 1]))) = [.phyInit 400000] ∧
    (after? (step (bench (sent [20, 1])))).map State.i2cTimeoutUs = some (some 125) := by decide
theorem test_i2cInit_rejected : answer (step (shut (sent [20, 3]))) = [99] ∧
    answer (step (shut (sent [20] ++ [.timeout]))) = [98] := by decide

theorem test_i2cDeinit : busOps (step (bench (sent [21]))) = [.phyOff] ∧
    (after? (step (bench (sent [21])))).map State.i2cOpen = some false := by decide

/-- Any non-zero flag byte asks for NACK on the last byte only (V10). -/
theorem test_i2cRead :
    answer (step (bench (sent [22, 2, 7]) [true, true] [.dataRAcked, .dataRAcked, .dataRNacked]
      [0xAA, 0xBB])) = [22, 0xAA, 0xBB, 22] ∧
    busOps (step (bench (sent [22, 2, 7]) [true, true] [.dataRAcked, .dataRAcked, .dataRNacked]
      [0xAA, 0xBB])) =
      [.phyPhase .dataRAcked, .phyRxGo true, .phyFlag true, .phyPhase .dataRAcked, .phyData 0xAA,
        .phyRxGo false, .phyFlag true, .phyPhase .dataRNacked, .phyData 0xBB] := by decide
/-- S3: the second byte completes in a wrong phase; the third is never requested. -/
theorem test_i2cRead_fails :
    busOps (step (bench (sent [22, 3, 1]) [true, true] [.addrRAcked, .dataRAcked, .other] [0x11])) =
      [.phyPhase .addrRAcked, .phyRxGo true, .phyFlag true, .phyPhase .dataRAcked, .phyData 0x11,
        .phyRxGo true, .phyFlag true, .phyPhase .other] ∧
    (answer (step (bench (sent [22, 3, 1]) [true, true] [.addrRAcked, .dataRAcked, .other]
      [0x11]))).length = 5 := by decide

/-- P1, frame 3. -/
theorem test_i2cWrite :
    busOps (step (bench (sent [23, 3, 0xA0, 0x10, 0x55]) [true, true, true]
      [.addrWAcked, .dataWAcked, .dataWAcked])) =
      [.phyLoad 0xA0, .phyTxGo, .phyFlag true, .phyPhase .addrWAcked, .phyLoad 0x10, .phyTxGo,
        .phyFlag true, .phyPhase .dataWAcked, .phyLoad 0x55, .phyTxGo, .phyFlag true,
        .phyPhase .dataWAcked] := by decide
/-- P3, frame 5: an acknowledged read address is not accepted (D11); S6: 33 is over the limit. -/
theorem test_i2cWrite_fails :
    answer (step (bench (sent [23, 1, 0xA1]) [true] [.addrRAcked])) = [23, 97] ∧
    answer (step (bench (sent [23, 33]))) = [99] := by decide

/-- S2: the wedged bus is configured again before START. -/
theorem test_i2cStart_recovers :
    busOps (step (bench (sent [24]) [false, true] [.idleError, .startSent])) =
      [.phyPhase .idleError, .phyInit 100000, .phyStart, .phyFlag false, .phyFlag true,
        .phyPhase .startSent] := by decide
/-- V4: completion that never comes takes one budget of 50 reads, and no second phase read. -/
theorem test_i2cStart_expires :
    answer (step (bench (sent [24]) (List.replicate 50 false) [.idle])) = [97] ∧
    busOps (step (bench (sent [24]) (List.replicate 50 false) [.idle])) =
      [.phyPhase .idle, .phyStart] ++ List.replicate 50 (.phyFlag false) := by decide

theorem test_i2cStop : busOps (step (bench (sent [25]))) = [.phyStop] ∧
    answer (step (bench (sent [25]))) = [25] := by decide

theorem test_i2cTest : answer (step (shut (sent [28, 0x5A, 0xA5]))) = [0xA5, 0x5A, 99] ∧
    answer (step (shut (sent [28, 0xA5, 0x5A]))) = [0xA5, 0x5A, 28] := by decide

theorem test_nosuch : answer (step (bench (sent [14]))) = [100] ∧
    busOps (step (bench (sent [14]))) = [] := by decide

/-- No byte, no command and no response (V8). -/
theorem test_silence : answer (step (shut [.timeout])) = [] ∧
    (after? (step (shut [.timeout]))).isSome = true := by decide

/-- A word placed for the fetch runs as the first command after reset. -/
theorem test_withFetchWord : answer (step (State.reset.withFetchWord 8 0x14)) = [20] ∧
    answer (step (State.reset.withFetchWord 8 0xC8)) = [100] := by decide

/-- V1. -/
theorem test_poll_budget :
    [(125, 1), (125, 10), (125, 124), (125, 125), (125, 126), (500, 3), (5000, 7)].map
      (fun x => pollBudget x.1 x.2) = [125, 13, 2, 1, 1, 167, 715] := by decide

/-- What `requestFrom` returns, and the bytes it loads. -/
def requested : Except Fault (Nat × State) → Nat × List Byte
  | .error _ => (0, [])
  | .ok (n, t) => (n, t.trace.filterMap fun e =>
      match e.2 with
      | .phyLoad b => some b
      | .trRead _ _ | .trWrite _ | .phyInit _ | .phyOff | .phyStart | .phyStop | .phyTxGo => none
      | .phyRxGo _ | .phyFlag _ | .phyPhase _ | .phyData _ => none
      | .spiInit _ | .spiDeinit | .spiSelect | .spiRelease | .spiRead _ | .spiWrite _ => none)

/-- V7, rows 1 and 6. -/
theorem test_requestFrom :
    requested (requestFrom 0x50 2 0x0123 2 true (bench [] (List.replicate 8 true)
      [.idle, .startSent, .addrWAcked, .dataWAcked, .dataWAcked, .dataWAcked, .repStartSent, .addrRAcked,
        .dataRAcked, .dataRNacked] [0x10, 0x20])) = (2, [0xA0, 0x01, 0x23, 0xA1]) ∧
    requested (requestFrom 0x50 0 0 0 true (bench [] [true, true] [.idle, .startSent, .addrRAcked])) =
      (0, [0xA1]) := by decide

/-- V7, row 4: the second byte times out. -/
theorem test_requestFrom_short :
    (requested (requestFrom 0x50 3 0 0 true (bench [] ([true, true, true] ++ List.replicate 50 false)
      [.idle, .startSent, .addrRAcked, .dataRAcked] [0x10]))).1 = 1 := by decide

/-- A `bench` whose reset input is applied after `k` more operations. -/
def resetting (k : Nat) : State := (bench (sent [22, 1, 0, 25]) [true] [.addrRAcked, .dataRNacked]
  [0x33]).setResetIn (some k)

/-- R117, R118: applied at once, also inside a command, reset closes both buses and issues nothing. -/
theorem test_reset_at_once :
    (after? (step ((resetting 0).setPc .execute))).map (fun t => (t.pc, t.i2cOpen, t.spiOpen, t.trace)) =
      some (.awaitOpcode, false, false, []) := by decide
/-- Applied after the opcode, the parameters and the early echo, reset leaves the next command's byte to be read
and no echo 22 at the end. -/
theorem test_reset_cuts_short : answer (step (resetting 3)) = [22] ∧
    (after? (step (resetting 3))).map (fun t => (t.hostAt 0, t.phaseAt 0, t.i2cOpen)) =
      some (.byte 25, .addrRAcked, false) := by decide

/-- R32, R29: right after reset every byte of the buffer can be read. -/
theorem test_read_after_reset : (memRead 0 64 State.reset).isOk = true ∧
    (memRead 1 64 State.reset).isOk = false := by decide

/-! ### The hypotheses of each statement are met

One theorem for each statement with hypotheses: a concrete state and operands for each of its clauses, at the
boundaries of their ranges. -/

theorem witness_OpcodeMapDecodes :
    ∀ b ∈ [(6 : Byte), 14, 19, 26, 27, 29],
      b ∉ [(7 : Byte), 8, 9, 10, 11, 12, 13, 20, 21, 22, 23, 24, 25, 28] := by decide

theorem witness_DecodeEncodeRoundTrip : Instr.spiInit.wf = true ∧ (Instr.nosuch 255).wf = true := by
  decide

theorem witness_FrameParseInvertsEncode :
    (HostFrame.mk .i2cRead [32, 0] []).wf = true ∧ (HostFrame.mk .i2cWrite [2] [1, 2]).wf = true ∧
    (HostFrame.mk .spiTest [] [0xA5, 0x5A]).wf = true ∧ (HostFrame.mk (.nosuch 0) [] []).wf = true := by
  decide

theorem witness_FrameParseReadsOnlyEncodings :
    parseFrame [0x0C, 0x00, 0x19] = .ok (⟨.spiWrite, [0], []⟩, [0x19]) := by rfl

theorem witness_FrameHostByteCounts :
    [HostFrame.mk .i2cStop [] [], ⟨.i2cInit, [2], []⟩, ⟨.spiRead, [255], []⟩, ⟨.i2cRead, [0, 0], []⟩,
      ⟨.spiWrite, [1], [7]⟩, ⟨.i2cTest, [], [0, 0]⟩, ⟨.nosuch 1, [], []⟩].all HostFrame.wf = true := by
  decide

theorem witness_ResultEncodingUnambiguous : (7 : Byte) ∈ closedOpcodes ∧ (28 : Byte) ∈ closedOpcodes := by
  decide

theorem witness_FirstOperationAfterResetIsFetch :
    (∃ t, step { State.reset with
      env := { State.reset.env with host := ⟨sent [20, 2], 0⟩ } } = .next t) ∧
    ∃ t, step { State.reset with
      env := { State.reset.env with host := ⟨[.timeout], 0⟩ } } = .next t := ⟨⟨_, rfl⟩, _, rfl⟩

theorem witness_StepRunsDecodedCommand :
    (bench (sent [25])).pc = .awaitOpcode ∧ (bench (sent [25])).env.resetIn = none ∧
    Instr.i2cStop.wf = true ∧
    (bench (sent [25])).hostAt 0 = .byte Instr.i2cStop.opcode ∧
    (bench (sent [14])).hostAt 0 = .byte (Instr.nosuch 14).opcode ∧ (Instr.nosuch 14).wf = true ∧
    (bench [.timeout]).hostAt 0 = .timeout := by decide

/-- A command of ten operations: the reset comes after the third, or after the last. -/
theorem witness_ExternalResetOutcome :
    (resetting 0).env.resetIn = some 0 ∧
    (∃ t ops, step ((resetting 3).setResetIn none) = .next t ∧ t.trace = (resetting 3).trace ++ ops ∧
      2 + 1 < ops.length) ∧
    ∃ t ops, step ((resetting 10).setResetIn none) = .next t ∧ t.trace = (resetting 10).trace ++ ops ∧
      ops.length ≤ 9 + 1 :=
  ⟨rfl, ⟨_, _, rfl, rfl, by decide⟩, _, _, rfl, rfl, by decide⟩

theorem witness_TraceAccountsForEveryAnswer :
    ∃ t, exec .i2cWrite (bench (sent [1, 0xA0]) [true] [.addrWAcked]) = .next t := ⟨_, rfl⟩

theorem witness_TransportReadTakesArrivals :
    (bench (sent [1, 2])).hostSends [1, 2] ∧ (bench []).hostSends [] ∧
    (bench (sent [1] ++ [.timeout])).hostStops [1] := by decide

/-- In range and out of range at the end of the buffer, and a byte that was written. -/
theorem witness_MemWriteThenReadGivesBytes :
    62 + [(1 : Byte), 2].length ≤ (bench []).params.bufCap ∧
    (bench []).params.bufCap < 63 + [(1 : Byte), 2].length ∧
    63 + 1 ≤ (bench []).params.bufCap ∧ (bench []).params.bufCap < 63 + 2 ∧
    (State.setBuf [(5, 7)] (bench [])).buf.read 5 = some 7 := by decide

theorem witness_ErrorEntryWritesCodeOnly :
    (Result.noSuchCommand, (100 : Byte)) ∈ [(Result.opFailed, (97 : Byte)), (.inputTimeout, 98),
      (.invalidInput, 99), (.noSuchCommand, 100)] := by decide

theorem witness_UnknownOpcodeAnswersNoSuch :
    (0 : Byte) ∉ [(7 : Byte), 8, 9, 10, 11, 12, 13, 20, 21, 22, 23, 24, 25, 28] := by decide

theorem witness_LinkTestAnswers :
    (shut (sent [0xA5, 0x5A])).hostSends [0xA5, 0x5A] ∧
    ((shut (sent [0xA5, 0x5B])).hostSends [0xA5, 0x5B] ∧
      ¬((0xA5 : Byte) = 0xA5 ∧ (0x5B : Byte) = 0x5A)) ∧
    (shut (sent [0xA5] ++ [.timeout])).hostStops [0xA5] ∧ (shut [.timeout]).hostStops [] := by decide

theorem witness_SpiInitOutcome :
    ((shut (sent [128])).hostAt 0 = .byte 128 ∧ (128 : Byte) ∈ [(2 : Byte), 4, 8, 16, 32, 64, 128]) ∧
    ((shut (sent [129])).hostAt 0 = .byte 129 ∧ (129 : Byte) ∉ [(2 : Byte), 4, 8, 16, 32, 64, 128]) ∧
    (shut [.timeout]).hostAt 0 = .timeout := by decide

theorem witness_SpiSelectOutcome : (bench []).spiOpen = true := by decide

theorem witness_SpiReleaseOutcome : (bench []).spiOpen = true := by decide

theorem witness_SpiReadOutcome :
    ((bench (sent [64])).spiOpen = true ∧ (bench (sent [64])).hostAt 0 = .byte 64 ∧
      (64 : Byte).toNat ≤ (bench (sent [64])).params.bufCap) ∧
    ((bench (sent [65])).hostAt 0 = .byte 65 ∧ (bench (sent [65])).params.bufCap < (65 : Byte).toNat) ∧
    ((bench [.timeout]).spiOpen = true ∧ (bench [.timeout]).hostAt 0 = .timeout) := by decide

theorem witness_SpiWriteOutcome :
    ((bench (sent (64 :: List.replicate 64 7))).spiOpen = true ∧
      (bench (sent (64 :: List.replicate 64 7))).hostSends (64 :: List.replicate 64 7) ∧
      (List.replicate 64 (7 : Byte)).length = (64 : Byte).toNat ∧
      (64 : Byte).toNat ≤ (bench []).params.bufCap) ∧
    ((bench (sent [2, 6, 0])).spiOpen = true ∧ (bench (sent [2, 6, 0])).hostSends [2, 6, 0] ∧
      [(6 : Byte), 0].length = (2 : Byte).toNat ∧ (2 : Byte).toNat ≤ (bench []).params.bufCap) ∧
    ((bench (sent [2, 6] ++ [.timeout])).hostStops [2, 6] ∧ [(6 : Byte)].length < (2 : Byte).toNat) ∧
    ((bench (sent [65])).hostAt 0 = .byte 65 ∧ (bench []).params.bufCap < (65 : Byte).toNat) ∧
    (bench [.timeout]).hostAt 0 = .timeout := by decide

theorem witness_I2cInitOutcome :
    ((shut (sent [2])).hostAt 0 = .byte 2 ∧ ((2 : Byte), I2cConfig.mk .low 10000 5000) ∈
      [((0 : Byte), I2cConfig.mk .standard 100000 500), (1, ⟨.fast, 400000, 125⟩),
        (2, ⟨.low, 10000, 5000⟩)]) ∧
    ((shut (sent [3])).hostAt 0 = .byte 3 ∧ (3 : Byte) ∉ [(0 : Byte), 1, 2]) ∧
    (shut [.timeout]).hostAt 0 = .timeout := by decide

theorem witness_I2cStopOutcome : (bench []).i2cOpen = true := by decide

/-- The I2C configuration of `bench`. -/
def benchConfig : I2cConfig := ⟨.standard, 100000, 500⟩

/-- Completion at the first and at the last read of the budget of 50, and not within it. -/
theorem witness_I2cStartOutcome :
    ((bench []).i2c = some benchConfig ∧ benchConfig.legal = true) ∧
    (0 < (bench [] [true]).budget benchConfig ∧ (bench [] [true]).flagDone 0 0) ∧
    (49 < (bench []).budget benchConfig ∧
      (bench [] (List.replicate 49 false ++ [true])).flagDone 0 49) ∧
    (bench [] (List.replicate 50 false)).flagExpires 0 ((bench []).budget benchConfig) := by decide

theorem witness_I2cStartEchoesIffStarted :
    (bench []).i2c = some benchConfig ∧ benchConfig.legal = true := by decide

theorem witness_I2cReadRejections :
    ((bench [.timeout]).i2cOpen = true ∧ (bench [.timeout]).hostStops []) ∧
    (bench (sent [5] ++ [.timeout])).hostStops [5] ∧
    ((bench (sent [33, 1])).hostSends [33, 1] ∧ 32 < (33 : Byte).toNat) := by decide

/-- Two bytes, the first completing at the second flag read and the second at the first. -/
theorem witness_I2cReadSucceeds :
    let s := bench (sent [2, 1]) [false, true, true] [.addrRAcked, .dataRAcked, .dataRNacked]
    let w : Nat → Nat := fun j => if j = 0 then 1 else 0
    s.i2c = some benchConfig ∧ s.hostSends [2, 1] ∧ (2 : Byte).toNat ≤ 32 ∧
    (s.phaseAt 0 = .addrRAcked ∨ s.phaseAt 0 = .dataRAcked) ∧
    ∀ j < (2 : Byte).toNat, w j < s.budget benchConfig ∧ s.flagDone (flagsBefore w j) (w j) ∧
      (s.phaseAt (j + 1) = .dataRAcked ∨ s.phaseAt (j + 1) = .dataRNacked) := by decide

theorem witness_I2cReadOutOfSequence :
    let s := bench (sent [1, 0]) [] [.dataRNacked]
    s.i2cOpen = true ∧ s.hostSends [1, 0] ∧ (1 : Byte).toNat ≤ 32 ∧
    ¬(s.phaseAt 0 = .addrRAcked ∨ s.phaseAt 0 = .dataRAcked) := by decide

/-- S3, both rows: the second of three bytes fails. -/
theorem witness_I2cReadFailsAtByte :
    let s := bench (sent [3, 1]) [true, true] [.addrRAcked, .dataRAcked, .other]
    let u := bench (sent [3, 1]) (true :: List.replicate 50 false) [.addrRAcked, .dataRAcked]
    let w : Nat → Nat := fun _ => 0
    (s.i2c = some benchConfig ∧ s.hostSends [3, 1] ∧ (3 : Byte).toNat ≤ 32 ∧ 1 < (3 : Byte).toNat ∧
      (s.phaseAt 0 = .addrRAcked ∨ s.phaseAt 0 = .dataRAcked) ∧
      (∀ j < 1, w j < s.budget benchConfig ∧ s.flagDone (flagsBefore w j) (w j) ∧
        (s.phaseAt (j + 1) = .dataRAcked ∨ s.phaseAt (j + 1) = .dataRNacked)) ∧
      0 < s.budget benchConfig ∧ s.flagDone (flagsBefore w 1) 0 ∧
      ¬(s.phaseAt (1 + 1) = .dataRAcked ∨ s.phaseAt (1 + 1) = .dataRNacked)) ∧
    (u.i2c = some benchConfig ∧ u.hostSends [3, 1] ∧
      (u.phaseAt 0 = .addrRAcked ∨ u.phaseAt 0 = .dataRAcked) ∧
      (∀ j < 1, w j < u.budget benchConfig ∧ u.flagDone (flagsBefore w j) (w j) ∧
        (u.phaseAt (j + 1) = .dataRAcked ∨ u.phaseAt (j + 1) = .dataRNacked)) ∧
      u.flagExpires (flagsBefore w 1) (u.budget benchConfig)) := by decide

theorem witness_I2cReadAlwaysFramesPayload :
    (bench (sent [32, 1])).i2cOpen = true ∧ (bench (sent [32, 1])).hostSends [32, 1] ∧
    (32 : Byte).toNat ≤ 32 := by decide

theorem witness_I2cWriteRejections :
    ((bench [.timeout]).i2cOpen = true ∧ (bench [.timeout]).hostAt 0 = .timeout) ∧
    ((bench (sent [33])).hostAt 0 = .byte 33 ∧ 32 < (33 : Byte).toNat) ∧
    ((bench (sent [2, 1] ++ [.timeout])).hostStops [2, 1] ∧ [(1 : Byte)].length < (2 : Byte).toNat ∧
      (2 : Byte).toNat ≤ 32) := by decide

theorem witness_I2cWriteSucceeds :
    let s := bench (sent [2, 0xA0, 0x10]) [true, false, true] [.addrWAcked, .dataWAcked]
    let w : Nat → Nat := fun j => j
    s.i2c = some benchConfig ∧ s.hostSends [2, 0xA0, 0x10] ∧
    [(0xA0 : Byte), 0x10].length = (2 : Byte).toNat ∧ (2 : Byte).toNat ≤ 32 ∧
    ∀ j < (2 : Byte).toNat, w j < s.budget benchConfig ∧ s.flagDone (flagsBefore w j) (w j) ∧
      (s.phaseAt j = .addrWAcked ∨ s.phaseAt j = .dataWAcked) := by decide

/-- V6: the second byte is refused; the only byte answers `ADDR_R_ACKED`; nothing completes. -/
theorem witness_I2cWriteFailsAtByte :
    let s := bench (sent [2, 0xA0, 0]) [true, true] [.addrWAcked, .other]
    let r := bench (sent [1, 0xA1]) [true] [.addrRAcked]
    let u := bench (sent [1, 0xA0]) (List.replicate 50 false)
    let w : Nat → Nat := fun _ => 0
    (s.i2c = some benchConfig ∧ s.hostSends [2, 0xA0, 0] ∧ 1 < (2 : Byte).toNat ∧
      (∀ j < 1, w j < s.budget benchConfig ∧ s.flagDone (flagsBefore w j) (w j) ∧
        (s.phaseAt j = .addrWAcked ∨ s.phaseAt j = .dataWAcked)) ∧
      s.flagDone (flagsBefore w 1) 0 ∧ ¬(s.phaseAt 1 = .addrWAcked ∨ s.phaseAt 1 = .dataWAcked)) ∧
    (r.i2c = some benchConfig ∧ r.hostSends [1, 0xA1] ∧ 0 < (1 : Byte).toNat ∧
      0 < r.budget benchConfig ∧ r.flagDone (flagsBefore w 0) 0 ∧
      ¬(r.phaseAt 0 = .addrWAcked ∨ r.phaseAt 0 = .dataWAcked)) ∧
    (u.i2c = some benchConfig ∧ u.hostSends [1, 0xA0] ∧
      u.flagExpires (flagsBefore w 0) (u.budget benchConfig)) := by decide

theorem witness_TimeoutWindowIsCeiling : 0 < 1 ∧ 0 < speedHz .low := by decide

/-- V2 with a budget of 50: done at the first and at the last read, and expired. -/
theorem witness_PollFlagOutcome :
    (bench []).i2c = some benchConfig ∧
    (0 < (bench []).budget benchConfig ∧ (bench [] [true]).flagDone 0 0) ∧
    (49 < (bench []).budget benchConfig ∧
      (bench [] (List.replicate 49 false ++ [true])).flagDone 0 49) ∧
    (bench [] (List.replicate 50 false)).flagExpires 0 ((bench []).budget benchConfig) := by decide

theorem witness_ConfigureOutcome :
    (((0 : Byte), I2cConfig.mk .standard 100000 500) ∈
      [((0 : Byte), I2cConfig.mk .standard 100000 500), (1, ⟨.fast, 400000, 125⟩),
        (2, ⟨.low, 10000, 5000⟩)]) ∧
    ((2 : Byte), I2cConfig.mk .low 10000 5000) ∈
      [((0 : Byte), I2cConfig.mk .standard 100000 500), (1, ⟨.fast, 400000, 125⟩),
        (2, ⟨.low, 10000, 5000⟩)] ∧
    (3 : Byte) ∉ [(0 : Byte), 1, 2] ∧ (255 : Byte) ∉ [(0 : Byte), 1, 2] := by decide

theorem witness_ReadByteOutcome :
    (bench []).i2c = some benchConfig ∧ 0 < (bench []).budget benchConfig ∧
    ((bench [] [true] [.dataRNacked]).flagDone 0 0 ∧
      ((bench [] [true] [.dataRNacked]).phaseAt 0 = .dataRAcked ∨
        (bench [] [true] [.dataRNacked]).phaseAt 0 = .dataRNacked)) ∧
    ((bench [] [true] [.other]).flagDone 0 0 ∧
      ¬((bench [] [true] [.other]).phaseAt 0 = .dataRAcked ∨
        (bench [] [true] [.other]).phaseAt 0 = .dataRNacked)) ∧
    (bench [] (List.replicate 50 false)).flagExpires 0 ((bench []).budget benchConfig) := by decide

theorem witness_SendAddressReadOutcome :
    (bench []).i2c = some benchConfig ∧ 0 < (bench []).budget benchConfig ∧
    (bench [] [true]).flagDone 0 0 ∧
    (bench [] (List.replicate 50 false)).flagExpires 0 ((bench []).budget benchConfig) := by decide

/-- S4: 65 asked for, 64 given. -/
theorem witness_RequestFromClampsQuantity :
    let s := bench [] (List.replicate 66 true)
      ([.idle, .startSent, .addrRAcked] ++ List.replicate 63 .dataRAcked ++ [.dataRNacked])
    let q := min 65 s.params.bufCap
    s.i2c = some benchConfig ∧ 0 < benchConfig.timeoutUs ∧ s.phaseAt 0 ≠ .idleError ∧
    (s.phaseAt 1 = .startSent ∨ s.phaseAt 1 = .repStartSent) ∧ s.phaseAt 2 = .addrRAcked ∧
    (∀ j < q, s.phaseAt (j + 3) = .dataRAcked ∨ s.phaseAt (j + 3) = .dataRNacked) ∧
    ∀ j < q + 2, s.flagAt j = true := by decide

theorem witness_RequestFromCountsRetrieved :
    (bench []).i2c = some benchConfig ∧ benchConfig.legal = true := by decide

/-- V7, row 3: five internal-address bytes asked for, three sent. -/
theorem witness_RequestFromWritePhaseBytes :
    let s := bench [] (List.replicate 5 true)
      [.idle, .startSent, .addrWAcked, .dataWAcked, .dataWAcked, .dataWAcked]
    let isz := min 5 3
    s.i2c = some benchConfig ∧ 0 < benchConfig.timeoutUs ∧ 0 < 5 ∧ s.phaseAt 0 ≠ .idleError ∧
    (s.phaseAt 1 = .startSent ∨ s.phaseAt 1 = .repStartSent) ∧
    (∀ j < isz + 1, s.phaseAt (j + 2) = .addrWAcked ∨ s.phaseAt (j + 2) = .dataWAcked) ∧
    ∀ j < isz + 2, s.flagAt j = true := by decide

theorem bench_consistent (host : List HostEvent) (flags : List Bool) (phases : List Phase)
    (data spi : List Byte) : Consistent (bench host flags phases data spi) := by
  constructor <;> simp [bench, State.reset, Latches.reset, Memory.wf, spiDivSet] <;> decide

theorem bench_inv (host : List HostEvent) : Inv (bench host) := ⟨bench_consistent _ _ _ _ _, rfl⟩

/-- A command, and a silence. -/
theorem witness_EveryStepKeepsInv :
    (Inv (bench (sent [11, 0])) ∧ ∃ t, step (bench (sent [11, 0])) = .next t) ∧
    Inv (bench [.timeout]) ∧ ∃ t, step (bench [.timeout]) = .next t :=
  ⟨⟨bench_inv _, _, rfl⟩, bench_inv _, _, rfl⟩

/-- The bench as the two `INIT` commands leave it. -/
def inited : State :=
  { bench (sent [21]) with trace := [(.execute, .phyInit 100000), (.execute, .spiInit 4)] }

theorem witness_ConfigurationMirrorsHardware :
    Mirrors inited ∧ Consistent inited ∧ inited.env.resetIn = none ∧ ∃ t, step inited = .next t := by
  refine ⟨⟨by decide, by decide⟩, ?_, rfl, _, rfl⟩
  have h := bench_consistent (sent [21]) [] [] [] []
  exact ⟨h.buf_wf, h.buf_range, h.i2c_legal, h.spi_legal, h.tx_le, h.rx_le, h.idx_le⟩

theorem witness_NoStepFaults : Inv (bench (sent [24])) := bench_inv _

theorem witness_OneTerminatingBytePerCommand :
    ∃ t, exec .i2cStart (bench [] [true] [.idle, .startSent]) = .next t := ⟨_, rfl⟩

theorem witness_RejectedFramesTouchNoBus :
    (∃ t, exec .i2cWrite (bench (sent [33])) = .next t ∧
      t.trace.getLast? = some (.respond, .trWrite [99])) ∧
    (∃ t, exec .spiWrite (bench [.timeout]) = .next t ∧
      t.trace.getLast? = some (.respond, .trWrite [98])) ∧
    (Instr.nosuch 0).wf = true ∧ ∃ t, exec (.nosuch 0) (bench []) = .next t ∧
      t.trace.getLast? = some (.respond, .trWrite [100]) :=
  ⟨⟨_, rfl, rfl⟩, ⟨_, rfl, rfl⟩, rfl, _, rfl, rfl⟩

theorem witness_EarlyEchoBeforePayloadAndBus :
    (Instr.spiRead.format = .rd1 ∧ ∃ t, exec .spiRead (bench (sent [0])) = .next t) ∧
    (Instr.i2cRead.format = .rd2 ∧ ∃ t, exec .i2cRead (bench [.timeout]) = .next t) ∧
    Instr.i2cWrite.format = .wr ∧ ∃ t, exec .i2cWrite (bench (sent [33])) = .next t :=
  ⟨⟨rfl, _, rfl⟩, ⟨rfl, _, rfl⟩, rfl, _, rfl⟩

theorem witness_FlagReadsBounded :
    Consistent (bench (sent [1, 0xA0]) [true] [.addrWAcked]) ∧
    ∃ t, exec .i2cWrite (bench (sent [1, 0xA0]) [true] [.addrWAcked]) = .next t :=
  ⟨bench_consistent _ _ _ _ _, _, rfl⟩

theorem witness_PhyInitAndOffOnlyWhereStated :
    (∃ t, exec .i2cStart (bench [] [true] [.idleError, .startSent]) = .next t) ∧
    (bench [] [true] [.idleError, .startSent]).phaseAt 0 = .idleError ∧
    ∃ t, exec .i2cDeinit (bench []) = .next t := ⟨⟨_, rfl⟩, rfl, _, rfl⟩

theorem witness_ConfigurationChangesOnlyByInitAndDeinit :
    Consistent (bench (sent [1])) ∧ ∃ t, exec .i2cInit (bench (sent [1])) = .next t ∧
      t.i2c ≠ (bench (sent [1])).i2c := ⟨bench_consistent _ _ _ _ _, _, rfl, by decide⟩

theorem witness_SelectLineMovedOnlyBySelectAndRelease :
    ∃ t, exec .spiSelect (bench []) = .next t := ⟨_, rfl⟩

theorem witness_BusDomainsIndependent :
    (∃ t, exec .spiWrite (bench (sent [1, 0x9F])) = .next t) ∧
    ∃ t, exec .i2cStop (bench []) = .next t := ⟨⟨_, rfl⟩, _, rfl⟩

end Sys2Proof.Tests
end

section
/-! PROOFS. The scope of the block (spec/00_scope.md): what a Transport read takes, that the trace of a command
accounts for every answer of the environment, and what moves the select line. -/

namespace Sys2Proof.Machine

open Sys2Proof State

/-- Settles O11: the two outcomes of a Transport read, each by its own rule. -/
theorem transportReadTakesArrivals : Obligations.TransportReadTakesArrivals :=
  fun _ _ _ => ⟨trRead_sends, trRead_stops⟩

/-! ### The trace of a command accounts for the answers taken -/

namespace Accounts

variable {s t : State}

/-- A command that ends in `u` accounts for what it took if the way to `u` does. -/
theorem of_next {u : State} (a : Accounts s u) (h : (Host.Outcome.next u : Out) = .next t) :
    Accounts s t := Host.Outcome.next.inj h ▸ a

theorem of_execSpiInit (h : execSpiInit s = .next t) : Accounts s t := by
  refine of_takeParam h fun p u h => ?_
  split at h
  · have init : Accounts u ((spiInit p (u.setPc .execute)).setSpi (some ⟨p⟩)) :=
      one (p := .execute) rfl rfl
    exact of_next (init.trans of_respond) h
  · exact of_next of_respond h

theorem of_execSpiDeinit (h : execSpiDeinit s = .next t) : Accounts s t := by
  have off : Accounts s ((spiDeinit (s.setPc .execute)).setSpi none) := one (p := .execute) rfl rfl
  exact of_next (off.trans of_respond) h

theorem of_execSpiSelect (h : execSpiSelect s = .next t) : Accounts s t := by
  have select : Accounts s (spiSelect (s.setPc .execute)) := one (p := .execute) rfl rfl
  exact of_next (select.trans of_respond) (next_onOpenSpi h)

theorem of_execSpiRelease (h : execSpiRelease s = .next t) : Accounts s t := by
  have release : Accounts s (spiRelease (s.setPc .execute)) := one (p := .execute) rfl rfl
  exact of_next (release.trans of_respond) (next_onOpenSpi h)

theorem of_execSpiRead (h : execSpiRead s = .next t) : Accounts s t := by
  refine of_takeParam (next_onOpenSpi h) fun n u h => ?_
  refine (quiet rfl rfl : Accounts u (u.setLen n)).trans (of_checkLen h fun h => ?_)
  have read : Accounts (u.setLen n) (spiRead n.toNat ((earlyEcho 11 (u.setLen n)).setPc .execute)).2 :=
    of_earlyEcho.trans (of_setPc (of_spiRead _))
  refine read.trans (of_finish h (fun _ => of_payloadToBuf) fun v h => ?_)
  exact of_finish h (fun _ e => of_setPc (of_bufToHost e)) fun _ => of_next of_respond

theorem of_execSpiWrite (h : execSpiWrite s = .next t) : Accounts s t := by
  refine of_takeParam (next_onOpenSpi h) fun n u h => ?_
  refine (quiet rfl rfl : Accounts u (u.setLen n)).trans (of_checkLen h fun h => ?_)
  refine of_earlyEcho.trans (of_takePayload h fun v h => ?_)
  exact of_finish h (fun _ e => of_setPc (of_bufToSpi e)) fun _ => of_next of_respond

theorem of_execI2cInit (h : execI2cInit s = .next t) : Accounts s t := by
  refine of_takeParam h fun p u h => ?_
  split at h
  · exact of_next of_respond h
  · exact of_next (of_setPc (of_configure.trans of_respond)) h

theorem of_execI2cDeinit (h : execI2cDeinit s = .next t) : Accounts s t := by
  have off : Accounts s (shutdown (s.setPc .execute)) := one (p := .execute) rfl rfl
  exact of_next (off.trans of_respond) h

theorem of_execI2cRead (h : execI2cRead s = .next t) : Accounts s t := by
  refine of_takeParams2 (next_onOpenI2c h) fun n nack u h => ?_
  refine (quiet rfl rfl : Accounts u ((u.setLen n).setFlag (nackFlag nack))).trans
    (of_checkLen h fun h => ?_)
  refine of_earlyEcho.trans (of_finish h (fun _ e => of_setPc (of_readData e)) fun v h => ?_)
  exact of_finish h (fun _ e => of_setPc (of_bufToHost e)) fun _ => of_next of_respond

theorem of_execI2cWrite (h : execI2cWrite s = .next t) : Accounts s t := by
  refine of_takeParam (next_onOpenI2c h) fun n u h => ?_
  refine (quiet rfl rfl : Accounts u (u.setLen n)).trans (of_checkLen h fun h => ?_)
  refine of_earlyEcho.trans (of_takePayload h fun v h => ?_)
  exact of_finish h (fun _ e => of_setPc (of_writeLoop _ _ _ _ e)) fun _ => of_next of_respond

theorem of_execI2cStart (h : execI2cStart s = .next t) : Accounts s t :=
  of_finish (next_onOpenI2c h) (fun _ e => of_setPc (of_sendStart e)) fun _ => of_next of_respond

theorem of_execI2cStop (h : execI2cStop s = .next t) : Accounts s t := by
  have stop : Accounts s (sendStop (s.setPc .execute)) := one (p := .execute) rfl rfl
  exact of_next (stop.trans of_respond) (next_onOpenI2c h)

/-- The trace of every command accounts for the answers it took. -/
theorem of_exec {i : Instr} (h : exec i s = .next t) : Accounts s t := by
  cases i with
  | spiInit => exact of_execSpiInit h
  | spiDeinit => exact of_execSpiDeinit h
  | spiSelect => exact of_execSpiSelect h
  | spiRelease => exact of_execSpiRelease h
  | spiRead => exact of_execSpiRead h
  | spiWrite => exact of_execSpiWrite h
  | spiTest => exact of_linkTest h
  | i2cInit => exact of_execI2cInit h
  | i2cDeinit => exact of_execI2cDeinit h
  | i2cRead => exact of_execI2cRead h
  | i2cWrite => exact of_execI2cWrite h
  | i2cStart => exact of_execI2cStart h
  | i2cStop => exact of_execI2cStop h
  | i2cTest => exact of_linkTest h
  | nosuch op => exact of_next of_respond h

end Accounts

/-- Settles O60: every command is composed of operations whose entries account for what they took. -/
theorem traceAccountsForEveryAnswer : Obligations.TraceAccountsForEveryAnswer :=
  fun _ _ _ h => Accounts.of_exec h

/-! ### The commands that only operate a bus and answer -/

section

variable {s t : State}

theorem exec_spiDeinit (s : State) : exec .spiDeinit s =
    .next (respondOk 8 ((spiDeinit (s.setPc .execute)).setSpi none)) := rfl

theorem exec_i2cDeinit (s : State) : exec .i2cDeinit s =
    .next (respondOk 21 (shutdown (s.setPc .execute))) := rfl

theorem exec_nosuch (op : Byte) (s : State) : exec (.nosuch op) s =
    .next (raise op .noSuchCommand s) := rfl

theorem execSpiSelect_next (h : exec .spiSelect s = .next t) :
    t = respondOk 9 (spiSelect (s.setPc .execute)) :=
  (Host.Outcome.next.inj (Accounts.next_onOpenSpi h)).symm

theorem execSpiRelease_next (h : exec .spiRelease s = .next t) :
    t = respondOk 10 (spiRelease (s.setPc .execute)) :=
  (Host.Outcome.next.inj (Accounts.next_onOpenSpi h)).symm

theorem execI2cStop_next (h : exec .i2cStop s = .next t) :
    t = respondOk 25 (sendStop (s.setPc .execute)) :=
  (Host.Outcome.next.inj (Accounts.next_onOpenI2c h)).symm

end

/-! ### The entries an operation adds to the trace -/

section

variable (s : State)

@[simp] theorem trWrite_trace (bytes : List Byte) :
    (trWrite bytes s).trace = s.trace ++ [(s.pc, .trWrite bytes)] := rfl

@[simp] theorem earlyEcho_trace (op : Byte) :
    (earlyEcho op s).trace = s.trace ++ [(.earlyEcho, .trWrite [op])] := rfl

@[simp] theorem respondOk_trace (op : Byte) :
    (respondOk op s).trace = s.trace ++ [(.respond, .trWrite [op])] := rfl

@[simp] theorem raise_trace (op : Byte) (r : Result) :
    (raise op r s).trace = s.trace ++ [(.respond, .trWrite [encodeResult op r])] := rfl

@[simp] theorem respondStatus_trace (op : Byte) : (respondStatus op s).trace =
    s.trace ++ [(.respond, .trWrite [encodeResult op (.ofStatus s.latches.st)])] := rfl

@[simp] theorem shutdown_trace : (shutdown s).trace = s.trace ++ [(s.pc, .phyOff)] := rfl

@[simp] theorem sendStop_trace : (sendStop s).trace = s.trace ++ [(s.pc, .phyStop)] := rfl

@[simp] theorem phyPhase_trace :
    (phyPhase s).2.trace = s.trace ++ [(s.pc, .phyPhase (s.phaseAt 0))] := by
  simp [phyPhase_eq]

end

/-! ### The select line as the trace leaves it -/

/-- Only the SPI Helper moves the select line (R12). -/
theorem Event.select_of_not_spi {e : Event} (h : e.isSpi = false) (before : Option Bool) :
    e.select before = before := by
  revert h
  cases e <;> simp [Event.isSpi, Event.select]

@[simp] theorem selectLine_append (tr new : List Entry) :
    selectLine (tr ++ new) = new.foldl (fun c e => e.2.select c) (selectLine tr) :=
  List.foldl_append

/-- Operations that are not of the SPI Helper leave the select line as it was. -/
theorem selectLine_append_of_not_spi {new : List Entry} (h : ∀ e ∈ new, e.2.isSpi = false)
    (tr : List Entry) : selectLine (tr ++ new) = selectLine tr := by
  rw [selectLine_append]
  generalize selectLine tr = line
  induction new with
  | nil => rfl
  | cons e new ih =>
    rw [List.foldl_cons, Event.select_of_not_spi (h e (by simp))]
    exact ih fun x hx => h x (by simp [hx])

theorem BusRan.selectLine_eq {s t : State} {new : List Entry} {b : Nat} (h : BusRan s t new b) :
    selectLine t.trace = selectLine s.trace := by
  rw [h.trace, selectLine_append_of_not_spi h.quiet.2]

theorem configure_selectLine (c : Byte) (s : State) :
    selectLine (configure c s).trace = selectLine s.trace := by
  unfold configure
  split
  · rfl
  · simp [phyInit, Event.select]

theorem beforeStart_selectLine (c : I2cConfig) (s : State) :
    selectLine (s.beforeStart c).trace = selectLine s.trace := by
  have phase : selectLine (phyPhase (s.setPc .execute)).2.trace = selectLine s.trace := by
    simp [Event.select]
  by_cases hw : s.phaseAt 0 = .idleError
  · simp only [State.beforeStart, if_pos hw, configure_selectLine, phase]
  · simp only [State.beforeStart, if_neg hw, phase]

section

variable {s t : State}

theorem execSpiInit_selectLine (h : exec .spiInit s = .next t) :
    selectLine t.trace = selectLine s.trace := by
  rcases execSpiInit_cases s with ⟨p, -, -, e⟩ | ⟨p, -, -, e⟩ | ⟨-, e⟩
  all_goals obtain rfl := Host.Outcome.next.inj (e.symm.trans h)
  · simp [spiInit, Event.select]
  · simp [Event.select]
  · simp [Event.select]

theorem execSpiRead_selectLine (h : exec .spiRead s = .next t) :
    selectLine t.trace = selectLine s.trace := by
  rcases execSpiRead_cases s with
    ⟨-, e⟩ | ⟨-, n, -, -, data, -, e⟩ | ⟨-, n, -, -, e⟩ | ⟨-, -, e⟩
  · cases e.symm.trans h
  all_goals
    obtain rfl := Host.Outcome.next.inj (e.symm.trans h)
    simp [Event.select]

theorem execSpiWrite_selectLine (h : exec .spiWrite s = .next t) :
    selectLine t.trace = selectLine s.trace := by
  rcases execSpiWrite_cases s with
    ⟨-, e⟩ | ⟨-, n, bs, -, -, -, e⟩ | ⟨-, n, bs, -, -, -, e⟩ | ⟨-, n, -, -, e⟩ | ⟨-, -, e⟩
  · cases e.symm.trans h
  all_goals obtain rfl := Host.Outcome.next.inj (e.symm.trans h)
  · simp [spiWrite, Event.select]
  all_goals simp [Event.select]

theorem linkTest_selectLine {op : Byte} (h : linkTest op s = .next t) :
    selectLine t.trace = selectLine s.trace := by
  rcases linkTest_cases op s with ⟨-, e⟩ | ⟨a, b, -, -, e⟩ | ⟨bs, -, -, e⟩
  all_goals
    obtain rfl := Host.Outcome.next.inj (e.symm.trans h)
    simp [Event.select]

theorem execI2cInit_selectLine (h : exec .i2cInit s = .next t) :
    selectLine t.trace = selectLine s.trace := by
  rcases execI2cInit_cases s with ⟨p, k, -, -, e⟩ | ⟨p, -, -, e⟩ | ⟨-, e⟩
  all_goals obtain rfl := Host.Outcome.next.inj (e.symm.trans h)
  · simp [configure_selectLine, Event.select]
  · simp [Event.select]
  · simp [Event.select]

theorem execI2cRead_selectLine (h : exec .i2cRead s = .next t) :
    selectLine t.trace = selectLine s.trace := by
  rcases execI2cRead_cases s with
    ⟨-, e⟩ | ⟨c, n, nack, -, -, -, s1, u, new, data, rfl, -, ran, -, -, -, -, -, e⟩ |
    ⟨-, n, nack, -, -, e⟩ | ⟨-, bs, -, -, e⟩
  · cases e.symm.trans h
  all_goals obtain rfl := Host.Outcome.next.inj (e.symm.trans h)
  · simp [ran.selectLine_eq, Event.select]
  · simp [Event.select]
  · simp [Event.select]

theorem execI2cWrite_selectLine (h : exec .i2cWrite s = .next t) :
    selectLine t.trace = selectLine s.trace := by
  rcases execI2cWrite_cases s with
    ⟨-, e⟩ | ⟨c, n, bs, -, -, -, -, s1, u, new, rfl, -, ran, -, -, -, e⟩ |
    ⟨-, n, bs, -, -, -, e⟩ | ⟨-, n, -, -, e⟩ | ⟨-, -, e⟩
  · cases e.symm.trans h
  all_goals obtain rfl := Host.Outcome.next.inj (e.symm.trans h)
  · simp [ran.selectLine_eq, Event.select]
  all_goals simp [Event.select]

theorem execI2cStart_selectLine (h : exec .i2cStart s = .next t) :
    selectLine t.trace = selectLine s.trace := by
  rcases execI2cStart_cases s with ⟨-, e⟩ | ⟨c, c', u, new, -, -, -, ran, -, -, -, e⟩
  · cases e.symm.trans h
  · obtain rfl := Host.Outcome.next.inj (e.symm.trans h)
    simp [ran.selectLine_eq, beforeStart_selectLine, Event.select]

end

/-- Settles O55, command by command: the entries each one adds move the line only for `SPI_SELECT` and
`SPI_RELEASE`. -/
theorem selectLineMovedOnlyBySelectAndRelease :
    Obligations.SelectLineMovedOnlyBySelectAndRelease := by
  intro i s t h
  cases i with
  | spiInit => exact execSpiInit_selectLine h
  | spiDeinit =>
    obtain rfl := Host.Outcome.next.inj ((exec_spiDeinit s).symm.trans h)
    simp [spiDeinit, Event.select]
  | spiSelect =>
    obtain rfl := execSpiSelect_next h
    simp [spiSelect, Event.select]
  | spiRelease =>
    obtain rfl := execSpiRelease_next h
    simp [spiRelease, Event.select]
  | spiRead => exact execSpiRead_selectLine h
  | spiWrite => exact execSpiWrite_selectLine h
  | spiTest => exact linkTest_selectLine h
  | i2cInit => exact execI2cInit_selectLine h
  | i2cDeinit =>
    obtain rfl := Host.Outcome.next.inj ((exec_i2cDeinit s).symm.trans h)
    simp [Event.select]
  | i2cRead => exact execI2cRead_selectLine h
  | i2cWrite => exact execI2cWrite_selectLine h
  | i2cStart => exact execI2cStart_selectLine h
  | i2cStop =>
    obtain rfl := execI2cStop_next h
    simp [Event.select]
  | i2cTest => exact linkTest_selectLine h
  | nosuch op =>
    obtain rfl := Host.Outcome.next.inj ((exec_nosuch op s).symm.trans h)
    simp [Event.select]

end Sys2Proof.Machine
end

section
/-! PROOFS. The configurations and the invariant (spec/10_state.md): what a command can do to the values that
outlive it, said once (`exec_outcome`), and from it the invariant, the mirrored configurations and what may
change them. -/

namespace Sys2Proof.Machine

open Sys2Proof State

/-! ### The operations of a frame as updates of single elements -/

section

variable (s : State)

@[simp] theorem trWrite_eq_emit (bytes : List Byte) : trWrite bytes s = s.emit (.trWrite bytes) := rfl

@[simp] theorem spiSelect_eq_emit : spiSelect s = s.emit .spiSelect := rfl

@[simp] theorem spiRelease_eq_emit : spiRelease s = s.emit .spiRelease := rfl

@[simp] theorem spiWrite_eq_emit (bytes : List Byte) : spiWrite bytes s = s.emit (.spiWrite bytes) := rfl

@[simp] theorem spiInit_eq_emit (div : Byte) : spiInit div s = s.emit (.spiInit div) := rfl

@[simp] theorem spiDeinit_eq_emit : spiDeinit s = s.emit .spiDeinit := rfl

@[simp] theorem shutdown_eq_updates : shutdown s = (s.emit .phyOff).setI2c none := rfl

@[simp] theorem sendStop_eq_updates : sendStop s = (s.emit .phyStop).setSt .ok := rfl

@[simp] theorem earlyEcho_eq_updates (op : Byte) :
    earlyEcho op s = (s.setPc .earlyEcho).emit (.trWrite [op]) := rfl

@[simp] theorem raise_eq_updates (op : Byte) (r : Result) : raise op r s =
    ((s.setPc .respond).emit (.trWrite [encodeResult op r])).setPc .awaitOpcode := rfl

@[simp] theorem respondOk_eq_updates (op : Byte) : respondOk op s =
    ((s.setPc .respond).emit (.trWrite [op])).setPc .awaitOpcode := rfl

@[simp] theorem respondStatus_eq_updates (op : Byte) : respondStatus op s =
    ((s.setPc .respond).emit (.trWrite [encodeResult op (.ofStatus s.latches.st)])).setPc
      .awaitOpcode := rfl

end

/-! ### The clock and the divisor as the trace leaves them -/

@[simp] theorem busClock_append (tr new : List Entry) :
    busClock (tr ++ new) = new.foldl (fun c e => e.2.busClock c) (busClock tr) :=
  List.foldl_append

@[simp] theorem spiClock_append (tr new : List Entry) :
    spiClock (tr ++ new) = new.foldl (fun c e => e.2.spiClock c) (spiClock tr) :=
  List.foldl_append

/-- Of the PHY operations only `PhyInit` and `PhyOff` move the clock (R11). -/
theorem Event.busClock_of_transfer {e : Event} (off : e ≠ .phyOff) (init : ∀ hz, e ≠ .phyInit hz)
    (before : Option Nat) : e.busClock before = before := by
  cases e with
  | phyInit hz => exact absurd rfl (init hz)
  | phyOff => exact absurd rfl off
  | _ => rfl

/-- No PHY operation moves the divisor of the SPI Helper (R12). -/
theorem Event.spiClock_of_isPhy {e : Event} (h : e.isPhy = true) (before : Option Byte) :
    e.spiClock before = before := by
  revert h
  cases e <;> simp [Event.isPhy, Event.spiClock]

theorem BusRan.busClock_eq {s t : State} {new : List Entry} {b : Nat} (h : BusRan s t new b) :
    busClock t.trace = busClock s.trace := by
  rw [h.trace, busClock_append]
  refine List.foldlRecOn (motive := (· = busClock s.trace)) new _ rfl fun c hc e he => ?_
  obtain ⟨-, -, off, -, init⟩ := h.ops e he
  exact (Event.busClock_of_transfer off init c).trans hc

theorem BusRan.spiClock_eq {s t : State} {new : List Entry} {b : Nat} (h : BusRan s t new b) :
    spiClock t.trace = spiClock s.trace := by
  rw [h.trace, spiClock_append]
  refine List.foldlRecOn (motive := (· = spiClock s.trace)) new _ rfl fun c hc e he => ?_
  obtain ⟨-, phy, -⟩ := h.ops e he
  exact (Event.spiClock_of_isPhy phy c).trans hc

/-! ### What a command leaves of the values that outlive it -/

/-- What every command that opens or closes no bus does to the values between commands: the configurations are
as they were, the hardware was told at most the clock it already had, the cursors are as they were or 0, and
buffer and byte index stay within the capacity. A field that is left out is one the state's own `simp` lemmas show
to be unchanged. -/
structure Served (s t : State) : Prop where
  awaiting : t.pc = .awaitOpcode := by simp
  params : t.params = s.params := by simp
  i2c : t.i2c = s.i2c := by simp
  spi : t.spi = s.spi := by simp
  clock : busClock t.trace = busClock s.trace ∨ busClock t.trace = s.i2cClkHz := by
    exact .inl (by simp [Event.busClock])
  divisor : spiClock t.trace = spiClock s.trace := by simp [Event.spiClock]
  tx : t.txCur ≤ s.txCur := by simp
  rx : t.rxCur ≤ s.rxCur := by simp
  idx : t.latches.idx ≤ max s.latches.idx s.params.bufCap := by exact le_max_of_le_left (by simp)
  buf : BufKept s t 0 s.params.bufCap := by exact .of_eq _ _ _ _ (by simp)

section

variable {s t : State}

theorem bufKept_writeRun {v : List Byte} (h : t.buf = s.buf.writeRun 0 v)
    (hv : v.length ≤ s.params.bufCap) : BufKept s t 0 s.params.bufCap :=
  (BufKept.writeRun 0 v h).mono le_rfl (by omega)

theorem execSpiInit_served (h : exec .spiInit s = .next t) : Served s t ∨
    ∃ p ∈ spiDivSet,
      t = respondOk 7 ((spiInit p ((s.gotParam p).setPc .execute)).setSpi (some ⟨p⟩)) := by
  rcases execSpiInit_cases s with ⟨p, -, hp, e⟩ | ⟨p, -, -, e⟩ | ⟨-, e⟩
  all_goals obtain rfl := Host.Outcome.next.inj (e.symm.trans h)
  · exact .inr ⟨p, hp, rfl⟩
  · exact .inl {}
  · exact .inl {}

theorem execSpiRead_served (h : exec .spiRead s = .next t) : Served s t := by
  rcases execSpiRead_cases s with
    ⟨-, e⟩ | ⟨-, n, -, hn, data, hd, e⟩ | ⟨-, n, -, -, e⟩ | ⟨-, -, e⟩
  · cases e.symm.trans h
  all_goals obtain rfl := Host.Outcome.next.inj (e.symm.trans h)
  · exact {
      idx := le_max_of_le_right hn
      buf := bufKept_writeRun (v := data) rfl (by simpa [hd] using hn) }
  · exact {}
  · exact {}

theorem execSpiWrite_served (h : exec .spiWrite s = .next t) : Served s t := by
  rcases execSpiWrite_cases s with
    ⟨-, e⟩ | ⟨-, n, bs, -, hl, hn, e⟩ | ⟨-, n, bs, -, -, -, e⟩ | ⟨-, n, -, -, e⟩ | ⟨-, -, e⟩
  · cases e.symm.trans h
  all_goals obtain rfl := Host.Outcome.next.inj (e.symm.trans h)
  · exact {
      idx := le_max_of_le_right hn
      buf := bufKept_writeRun (v := bs) rfl (hl ▸ hn) }
  all_goals exact {}

theorem linkTest_served {op : Byte} (h : linkTest op s = .next t) : Served s t := by
  rcases linkTest_cases op s with ⟨-, e⟩ | ⟨a, b, -, -, e⟩ | ⟨bs, -, -, e⟩
  all_goals
    obtain rfl := Host.Outcome.next.inj (e.symm.trans h)
    exact {}

theorem execI2cInit_served (h : exec .i2cInit s = .next t) : Served s t ∨
    ∃ p k, speedClass? p = some k ∧
      t = respondOk 20 (configure p ((s.gotParam p).setPc .execute)) := by
  rcases execI2cInit_cases s with ⟨p, k, -, hk, e⟩ | ⟨p, -, -, e⟩ | ⟨-, e⟩
  all_goals obtain rfl := Host.Outcome.next.inj (e.symm.trans h)
  · exact .inr ⟨p, k, hk, rfl⟩
  · exact .inl {}
  · exact .inl {}

theorem execI2cRead_served (h : exec .i2cRead s = .next t) : Served s t := by
  rcases execI2cRead_cases s with
    ⟨-, e⟩ | ⟨c, n, nack, -, -, hn, s1, u, new, data, rfl, -, ran, kept, -, -, -, -, e⟩ |
    ⟨-, n, nack, -, -, e⟩ | ⟨-, bs, -, -, e⟩
  · cases e.symm.trans h
  all_goals obtain rfl := Host.Outcome.next.inj (e.symm.trans h)
  · have hcap : n.toNat ≤ s.params.bufCap := hn.trans s.params.bufCap_ge
    have kept' := kept.mono le_rfl hcap
    exact {
      params := ran.params
      i2c := ran.i2c
      spi := ran.spi
      clock := .inl (by simp [ran.busClock_eq, Event.busClock])
      divisor := by simp [ran.spiClock_eq, Event.spiClock]
      tx := ran.tx.le
      rx := ran.rx.le
      idx := le_max_of_le_right hcap
      buf := ⟨kept'.wf, kept'.listed, kept'.outside⟩ }
  · exact {}
  · exact {}

theorem execI2cWrite_served (h : exec .i2cWrite s = .next t) : Served s t := by
  rcases execI2cWrite_cases s with
    ⟨-, e⟩ | ⟨c, n, bs, -, -, hl, hn, s1, u, new, rfl, -, ran, hbuf, hidx, -, e⟩ |
    ⟨-, n, bs, -, -, -, e⟩ | ⟨-, n, -, -, e⟩ | ⟨-, -, e⟩
  · cases e.symm.trans h
  all_goals obtain rfl := Host.Outcome.next.inj (e.symm.trans h)
  · exact {
      params := ran.params
      i2c := ran.i2c
      spi := ran.spi
      clock := .inl (by simp [ran.busClock_eq, Event.busClock])
      divisor := by simp [ran.spiClock_eq, Event.spiClock]
      tx := ran.tx.le
      rx := ran.rx.le
      idx := hidx
      buf := bufKept_writeRun (v := bs) hbuf (hl ▸ hn.trans s.params.bufCap_ge) }
  all_goals exact {}

/-- Before START is requested a legal bus is as it was: the recovery tells the hardware the clock it has. -/
theorem beforeStart_served {c : I2cConfig} (hc : s.i2c = some c) (legal : c.legal = true) :
    Served s ((s.beforeStart c).setPc .awaitOpcode) := by
  by_cases hw : s.phaseAt 0 = .idleError
  · simp only [State.beforeStart, if_pos hw, configure_legal legal, phyPhase_eq]
    exact {
      i2c := hc.symm
      clock := .inr (by simp [i2cClkHz, hc, Event.busClock])
      tx := Nat.zero_le _
      rx := Nat.zero_le _ }
  · simp only [State.beforeStart, if_neg hw, phyPhase_eq]
    exact {}

theorem execI2cStart_served (hs : Consistent s) (h : exec .i2cStart s = .next t) : Served s t := by
  rcases execI2cStart_cases s with ⟨-, e⟩ | ⟨c, c', u, new, hc, -, -, ran, hbuf, hidx, -, e⟩
  · cases e.symm.trans h
  · obtain rfl := Host.Outcome.next.inj (e.symm.trans h)
    have before := beforeStart_served hc (by simpa [hc] using hs.i2c_legal)
    exact {
      params := ran.params.trans before.params
      i2c := ran.i2c.trans before.i2c
      spi := ran.spi.trans before.spi
      clock := by simpa [ran.busClock_eq, Event.busClock] using before.clock
      divisor := by simpa [ran.spiClock_eq, Event.spiClock] using before.divisor
      tx := ran.tx.le.trans before.tx
      rx := ran.rx.le.trans before.rx
      idx := hidx.le.trans (le_max_left _ _)
      buf := .of_eq _ _ _ _ hbuf }

/-- All a command that ends does to the values that outlive it: those of its own domain's bus are set or
cleared by a successful `INIT` or by `DEINIT`, and every other command leaves the configurations alone. -/
theorem exec_outcome {i : Instr} (hs : Consistent s) (h : exec i s = .next t) :
    Served s t ∨
    (i = .i2cInit ∧ ∃ p k, speedClass? p = some k ∧
      t = respondOk 20 (configure p ((s.gotParam p).setPc .execute))) ∨
    (i = .i2cDeinit ∧ t = respondOk 21 (shutdown (s.setPc .execute))) ∨
    (i = .spiInit ∧ ∃ p ∈ spiDivSet,
      t = respondOk 7 ((spiInit p ((s.gotParam p).setPc .execute)).setSpi (some ⟨p⟩))) ∨
    (i = .spiDeinit ∧ t = respondOk 8 ((spiDeinit (s.setPc .execute)).setSpi none)) := by
  cases i with
  | spiInit => exact (execSpiInit_served h).imp_right fun e => .inr (.inr (.inl ⟨rfl, e⟩))
  | spiDeinit => exact .inr (.inr (.inr (.inr ⟨rfl, (Host.Outcome.next.inj h).symm⟩)))
  | spiSelect =>
    obtain rfl := execSpiSelect_next h
    exact .inl {}
  | spiRelease =>
    obtain rfl := execSpiRelease_next h
    exact .inl {}
  | spiRead => exact .inl (execSpiRead_served h)
  | spiWrite => exact .inl (execSpiWrite_served h)
  | spiTest => exact .inl (linkTest_served h)
  | i2cInit => exact (execI2cInit_served h).imp_right fun e => .inl ⟨rfl, e⟩
  | i2cDeinit => exact .inr (.inr (.inl ⟨rfl, (Host.Outcome.next.inj h).symm⟩))
  | i2cRead => exact .inl (execI2cRead_served h)
  | i2cWrite => exact .inl (execI2cWrite_served h)
  | i2cStart => exact .inl (execI2cStart_served hs h)
  | i2cStop =>
    obtain rfl := execI2cStop_next h
    exact .inl {}
  | i2cTest => exact .inl (linkTest_served h)
  | nosuch op =>
    obtain rfl := Host.Outcome.next.inj ((exec_nosuch op s).symm.trans h)
    exact .inl {}

/-- `configure` with a class byte sets that class, tells the hardware its clock and clears both cursors
(R59). -/
theorem configure_of_class {p : Byte} {k : SpeedClass} (h : speedClass? p = some k) (s : State) :
    configure p s =
      { s with
        i2c := some ⟨k, speedHz k, timeoutWindow (speedHz k)⟩, txCur := 0, rxCur := 0
        latches := { s.latches with st := .ok }
        trace := s.trace ++ [(s.pc, .phyInit (speedHz k))] } := by
  simp only [configure, h]
  rfl

/-! ### The invariant -/

theorem Served.consistent (h : Served s t) (hs : Consistent s) : Consistent t where
  buf_wf := h.buf.wf hs.buf_wf
  buf_range c hc := by
    rw [h.params]
    rcases h.buf.listed c.1 (List.mem_map_of_mem hc) with old | ⟨-, hlt⟩
    · obtain ⟨c', hc', e⟩ := List.mem_map.mp old
      exact e ▸ hs.buf_range c' hc'
    · exact hlt
  i2c_legal := h.i2c ▸ hs.i2c_legal
  spi_legal := h.spi ▸ hs.spi_legal
  tx_le := by rw [h.params]; exact h.tx.trans hs.tx_le
  rx_le := by rw [h.params]; exact h.rx.trans hs.rx_le
  idx_le := by rw [h.params]; exact h.idx.trans (max_le hs.idx_le le_rfl)

/-- Every command that ends leaves the block between commands in a consistent state. -/
theorem exec_inv {i : Instr} (hs : Consistent s) (h : exec i s = .next t) : Inv t := by
  rcases exec_outcome hs h with
    served | ⟨-, p, k, hk, rfl⟩ | ⟨-, rfl⟩ | ⟨-, p, hp, rfl⟩ | ⟨-, rfl⟩
  · exact ⟨served.consistent hs, served.awaiting⟩
  · rw [configure_of_class hk]
    exact ⟨{ hs with
      i2c_legal := by simp [I2cConfig.legal]
      tx_le := Nat.zero_le _
      rx_le := Nat.zero_le _ }, rfl⟩
  · exact ⟨{ hs with i2c_legal := rfl }, rfl⟩
  · exact ⟨{ hs with spi_legal := by simpa using hp }, rfl⟩
  · exact ⟨{ hs with spi_legal := rfl }, rfl⟩

/-- All a command fetch that leads to a next state can do: meet silence, or run the command of its byte. -/
theorem runCommand_cases (h : runCommand s = .next t) : s.pc = .awaitOpcode ∧
    (t = s.tookHost 1 1 [] ∨ ∃ b, exec (decode b) ((s.tookHost 1 1 [b]).setOp b) = .next t) := by
  unfold runCommand at h
  split at h
  · next hpc =>
    refine ⟨hpc, ?_⟩
    cases h0 : s.hostAt 0 with
    | timeout =>
      rw [fetchOpcode_timeout h0] at h
      exact .inl (Host.Outcome.next.inj h).symm
    | byte b =>
      rw [fetchOpcode_byte h0] at h
      exact .inr ⟨b, h⟩
  · cases h

theorem runCommand_inv (hs : Consistent s) (h : runCommand s = .next t) : Inv t := by
  obtain ⟨hpc, rfl | ⟨b, hb⟩⟩ := runCommand_cases h
  · exact ⟨{ hs with }, hpc⟩
  · have fetched : Consistent ((s.tookHost 1 1 [b]).setOp b) := { hs with }
    exact exec_inv fetched hb

/-- Settles O44: a step ends in the state of a whole command or of a reset, or in the former with the reset
input still to come, which the invariant does not speak of. -/
theorem everyStepKeepsInv : Obligations.EveryStepKeepsInv := by
  intro s t hs h
  have running : ∀ u, runCommand (s.setResetIn none) = .next u → Inv u :=
    fun u => runCommand_inv { hs.consistent with }
  rcases step_cases h with ⟨-, h⟩ | ⟨-, rfl⟩ | ⟨j, u, -, hu, ⟨-, rfl⟩ | ⟨-, rfl⟩⟩
  · exact runCommand_inv hs.consistent h
  · exact ⟨consistent_resetBlock s, rfl⟩
  · exact ⟨consistent_resetBlock _, rfl⟩
  · obtain ⟨consistent, awaiting⟩ := running u hu
    exact ⟨{ consistent with }, awaiting⟩

theorem consistent_reset : Consistent State.reset where
  buf_wf := Memory.wf_reset
  buf_range _ hc := nomatch hc
  i2c_legal := rfl
  spi_legal := rfl
  tx_le := Nat.zero_le _
  rx_le := Nat.zero_le _
  idx_le := Nat.zero_le _

/-- Settles O45. -/
theorem resetMeetsInv : Obligations.ResetMeetsInv := ⟨consistent_reset, rfl⟩

/-- Settles O8: each element has its reset value by definition, and the buffer lists nothing. -/
theorem resetStateValues : Obligations.ResetStateValues :=
  ⟨rfl, rfl, rfl, rfl, rfl, rfl, rfl, rfl, rfl, rfl, fun _ => rfl⟩

/-! ### What the block last told the hardware -/

theorem Served.mirrors (h : Served s t) (hs : Mirrors s) : Mirrors t where
  i2c := by
    have kept : t.i2cClkHz = s.i2cClkHz := by rw [i2cClkHz, i2cClkHz, h.i2c]
    rcases h.clock with e | e
    · rw [kept, e, hs.i2c]
    · rw [kept, e]
  spi := by rw [h.divisor, ← hs.spi, spiDiv, spiDiv, h.spi]

/-- Every command from a consistent state keeps the record of what the hardware was told. -/
theorem exec_mirrors {i : Instr} (hm : Mirrors s) (hs : Consistent s) (h : exec i s = .next t) :
    Mirrors t := by
  have hi : s.i2cClkHz = busClock s.trace := hm.i2c
  have hd : s.spiDiv = spiClock s.trace := hm.spi
  rcases exec_outcome hs h with
    served | ⟨-, p, k, hk, rfl⟩ | ⟨-, rfl⟩ | ⟨-, p, -, rfl⟩ | ⟨-, rfl⟩
  · exact served.mirrors hm
  · rw [configure_of_class hk]
    constructor <;> simp [i2cClkHz, spiDiv, Event.busClock, Event.spiClock, ← hd]
  · constructor <;> simp [i2cClkHz, spiDiv, Event.busClock, Event.spiClock, ← hd]
  · constructor <;> simp [i2cClkHz, spiDiv, Event.busClock, Event.spiClock, ← hi]
  · constructor <;> simp [i2cClkHz, spiDiv, Event.busClock, Event.spiClock, ← hi]

/-- Settles O46: the Transport read of the opcode tells the bus hardware nothing, and every command keeps the
record. -/
theorem configurationMirrorsHardware : Obligations.ConfigurationMirrorsHardware := by
  refine ⟨⟨rfl, rfl⟩, fun s t hm hs running h => ?_⟩
  have silent (got : List Byte) : Mirrors (s.tookHost 1 1 got) :=
    ⟨hm.i2c.trans (by simp [Event.busClock]), hm.spi.trans (by simp [Event.spiClock])⟩
  rw [step_running running] at h
  obtain ⟨-, rfl | ⟨b, hb⟩⟩ := runCommand_cases h
  · exact silent []
  · have mirrors : Mirrors ((s.tookHost 1 1 [b]).setOp b) := ⟨(silent [b]).i2c, (silent [b]).spi⟩
    have consistent : Consistent ((s.tookHost 1 1 [b]).setOp b) := { hs with }
    exact exec_mirrors mirrors consistent hb

/-! ### What changes a configuration -/

/-- Settles O54: all that a command can do to a configuration is in `exec_outcome`. -/
theorem configurationChangesOnlyByInitAndDeinit :
    Obligations.ConfigurationChangesOnlyByInitAndDeinit := by
  intro i s t hs h
  rcases exec_outcome hs h with
    served | ⟨rfl, p, k, hk, rfl⟩ | ⟨rfl, rfl⟩ | ⟨rfl, p, -, rfl⟩ | ⟨rfl, rfl⟩
  · exact ⟨(absurd served.i2c ·), (absurd served.spi ·)⟩
  · rw [configure_of_class hk]
    exact ⟨fun _ => .inl ⟨rfl, rfl, by simp⟩, (absurd rfl ·)⟩
  · exact ⟨fun _ => .inr ⟨rfl, rfl⟩, (absurd rfl ·)⟩
  · exact ⟨(absurd rfl ·), fun _ => .inl ⟨rfl, rfl, by simp⟩⟩
  · exact ⟨(absurd rfl ·), fun _ => .inr ⟨rfl, rfl⟩⟩

end

end Sys2Proof.Machine
end

section
/-! PROOFS. What a command reads of the latches and the buffer (spec/10_state.md, R13, R22): two runs whose
states differ in nothing but these go alike, because a command reads of them only what it has written itself. -/

namespace Sys2Proof.Machine

open Sys2Proof State

/-! ### Two states that differ in latches and buffer at most -/

/-- The state with other latches and another buffer. -/
def State.withScratch (l : Latches) (b : Memory) (s : State) : State := { s with latches := l, buf := b }

/-- What two values of the latches may have in common: a latch (R14, R17), or that the declared length is a
certain byte. -/
inductive Latch where
  | op | len | flag | idx | polls | st
  | declared (k : Byte)

/-- Two values of the latches have this in common. -/
def Latch.Agrees (a b : Latches) : Latch → Prop
  | .op => a.op = b.op
  | .len => a.len = b.len
  | .flag => a.flag = b.flag
  | .idx => a.idx = b.idx
  | .polls => a.polls = b.polls
  | .st => a.st = b.st
  | .declared k => a.len = k ∧ b.len = k

/-- Two states that differ at most in the latches and the buffer, and agree in what `L` lists of the latches,
in the buffer bytes at the indices below `n`, and, if `E`, in the whole buffer. Its theorems are named after the
operation that keeps states alike. -/
structure Alike (E : Prop) (L : Set Latch) (n : Nat) (s t : State) : Prop where
  rest : t = s.withScratch t.latches t.buf
  latches : ∀ x ∈ L, x.Agrees s.latches t.latches
  bytes : ∀ i < n, s.buf.read i = t.buf.read i
  buf : E → s.buf = t.buf

/-- Two operations answer the same value and leave alike states; which latches are known to agree then depends
on the value. -/
def AlikeAnswers {α : Type} (E : Prop) (L : α → Set Latch) (n : Nat) (x y : α × State) : Prop :=
  x.1 = y.1 ∧ Alike E (L x.1) n x.2 y.2

/-- Two operations end in the same fault, or both in a result, related by `R`. -/
inductive AlikeResults {α : Type} (R : α → α → Prop) : Except Fault α → Except Fault α → Prop where
  | ok {a b : α} (h : R a b) : AlikeResults R (.ok a) (.ok b)
  | error (f : Fault) : AlikeResults R (.error f) (.error f)

/-- Two commands end in the same fault or refusal, or both in a next state, and these are alike. -/
inductive AlikeOuts (E : Prop) (L : Set Latch) : Out → Out → Prop where
  | next {n : Nat} {s t : State} (h : Alike E L n s t) : AlikeOuts E L (.next s) (.next t)
  | fault (f : Fault) : AlikeOuts E L (.fault f) (.fault f)
  | refused (r : Refusal) : AlikeOuts E L (.refused r) (.refused r)

variable {E : Prop} {L L' : Set Latch} {m n : Nat} {s t : State}

namespace Alike

theorem refl (fresh : ∀ k, .declared k ∉ L) (s : State) : Alike E L n s s := by
  refine ⟨rfl, fun x hx => ?_, fun _ _ => rfl, fun _ => rfl⟩
  cases x with
  | declared k => exact absurd hx (fresh k)
  | _ => rfl

/-- The latches are the same if they agree in each. -/
theorem latches_eq (h : Alike E L n s t) (all : ∀ x, (∀ k, x ≠ .declared k) → x ∈ L) :
    s.latches = t.latches := by
  have agree (x : Latch) (hx : ∀ k, x ≠ .declared k) : x.Agrees s.latches t.latches :=
    h.latches x (all x hx)
  generalize s.latches = a at agree ⊢
  generalize t.latches = b at agree ⊢
  cases a
  cases b
  simp only [Latches.mk.injEq]
  exact ⟨agree .op nofun, agree .len nofun, agree .flag nofun, agree .idx nofun, agree .polls nofun,
    agree .st nofun⟩

/-- A length once declared is that of both states. -/
theorem declared_len (h : Alike E L n s t) {k : Byte} (hk : .declared k ∈ L) :
    s.latches.len = k ∧ t.latches.len = k := h.latches _ hk

theorem mono (h : Alike E L n s t) (hL : L' ⊆ L) (hn : m ≤ n) : Alike E L' m s t :=
  ⟨h.rest, fun x hx => h.latches x (hL hx), fun i hi => h.bytes i (hi.trans_le hn), h.buf⟩

/-- What does not depend on latches and buffer is the same in both states. -/
theorem same {α : Type} (h : Alike E L n s t) (f : State → α)
    (hf : ∀ l b, f (s.withScratch l b) = f s) : f s = f t :=
  ((congrArg f h.rest).trans (hf _ _)).symm

theorem params_eq (h : Alike E L n s t) : s.params = t.params := h.same _ fun _ _ => rfl
theorem pc_eq (h : Alike E L n s t) : s.pc = t.pc := h.same _ fun _ _ => rfl
theorem i2c_eq (h : Alike E L n s t) : s.i2c = t.i2c := h.same _ fun _ _ => rfl
theorem spi_eq (h : Alike E L n s t) : s.spi = t.spi := h.same _ fun _ _ => rfl
theorem env_eq (h : Alike E L n s t) : s.env = t.env := h.same _ fun _ _ => rfl
theorem trace_eq (h : Alike E L n s t) : s.trace = t.trace := h.same _ fun _ _ => rfl

/-- An update of other elements than latches and buffer keeps states alike. -/
theorem update (h : Alike E L n s t) (f : State → State)
    (hf : ∀ s l b, f (s.withScratch l b) = (f s).withScratch l b) : Alike E L n (f s) (f t) := by
  have hs : f s = (f s).withScratch s.latches s.buf := hf s s.latches s.buf
  have ht : f t = (f s).withScratch t.latches t.buf :=
    (congrArg f h.rest).trans (hf s t.latches t.buf)
  have ls : (f s).latches = s.latches := (congrArg State.latches hs :)
  have bs : (f s).buf = s.buf := (congrArg State.buf hs :)
  have lt : (f t).latches = t.latches := (congrArg State.latches ht :)
  have bt : (f t).buf = t.buf := (congrArg State.buf ht :)
  refine ⟨?_, ?_, ?_, ?_⟩
  · rw [lt, bt]; exact ht
  · rw [ls, lt]; exact h.latches
  · rw [bs, bt]; exact h.bytes
  · rw [bs, bt]; exact h.buf

/-- An operation that reads and updates other elements than latches and buffer answers the same in both. -/
theorem ask {α : Type} (h : Alike E L n s t) (f : State → α × State)
    (hf : ∀ s l b, f (s.withScratch l b) = ((f s).1, (f s).2.withScratch l b)) :
    AlikeAnswers E (fun _ => L) n (f s) (f t) :=
  ⟨h.same (fun u => (f u).1) fun l b => (congrArg Prod.fst (hf s l b) :),
    h.update (fun u => (f u).2) fun s l b => (congrArg Prod.snd (hf s l b) :)⟩

/-- An update of the latches keeps those of them in common that it sets or that were so. -/
theorem updateLatches (h : Alike E L n s t) (g : Latches → Latches)
    (hg : ∀ x ∈ L', ∀ a b : Latches, (x ∈ L → x.Agrees a b) → x.Agrees (g a) (g b)) :
    Alike E L' n { s with latches := g s.latches } { t with latches := g t.latches } :=
  ⟨congrArg (fun u : State => { u with latches := g t.latches }) h.rest,
    fun x hx => hg x hx _ _ (h.latches x), h.bytes, h.buf⟩

theorem setOp (h : Alike E L n s t) (b : Byte) : Alike E L n (s.setOp b) (t.setOp b) :=
  h.updateLatches (fun a => { a with op := b }) fun x hx _ _ e => by
    cases x <;> simp_all [Latch.Agrees]

theorem setIdx (h : Alike E L n s t) (k : Nat) : Alike E L n (s.setIdx k) (t.setIdx k) :=
  h.updateLatches (fun a => { a with idx := k }) fun x hx _ _ e => by
    cases x <;> simp_all [Latch.Agrees]

theorem setPolls (h : Alike E L n s t) (k : Nat) : Alike E L n (s.setPolls k) (t.setPolls k) :=
  h.updateLatches (fun a => { a with polls := k }) fun x hx _ _ e => by
    cases x <;> simp_all [Latch.Agrees]

/-- The count of polls goes up in both, from wherever it was. -/
theorem countPoll (h : Alike E L n s t) :
    Alike E L n (s.setPolls (s.latches.polls + 1)) (t.setPolls (t.latches.polls + 1)) :=
  h.updateLatches (fun a => { a with polls := a.polls + 1 }) fun x hx _ _ e => by
    cases x <;> simp_all [Latch.Agrees]

theorem setLen (h : Alike E L n s t) (fresh : ∀ k, .declared k ∉ L) (b : Byte) :
    Alike E (insert (.declared b) L) n (s.setLen b) (t.setLen b) :=
  h.updateLatches (fun a => { a with len := b }) fun x hx _ _ e => by
    cases x <;> simp_all [Latch.Agrees]

theorem setFlag (h : Alike E L n s t) (b : Bool) :
    Alike E (insert .flag L) n (s.setFlag b) (t.setFlag b) :=
  h.updateLatches (fun a => { a with flag := b }) fun x hx _ _ e => by
    cases x <;> simp_all [Latch.Agrees]

theorem setSt (h : Alike E L n s t) (x : Status) :
    Alike E (insert .st L) n (s.setSt x) (t.setSt x) :=
  h.updateLatches (fun a => { a with st := x }) fun x hx _ _ e => by
    cases x <;> simp_all [Latch.Agrees]

/-! ### The buffer -/

/-- A run written from an index up to which the buffers agree extends the agreement. -/
theorem memWrite (h : Alike E L n s t) {a : Nat} (ha : a ≤ n) (v : List Byte) :
    AlikeResults (Alike E L (a + v.length)) (memWrite a v s) (memWrite a v t) := by
  unfold Machine.memWrite
  rw [h.params_eq]
  split
  · refine .ok ⟨congrArg (State.setBuf _) h.rest, h.latches, fun i hi => ?_, fun e => ?_⟩
    · rw [setBuf_buf, setBuf_buf]
      by_cases hia : i < a
      · rw [Memory.read_writeRun_outside v _ (.inl hia), Memory.read_writeRun_outside v _ (.inl hia)]
        exact h.bytes i (hia.trans_le ha)
      · obtain ⟨k, rfl⟩ := Nat.exists_eq_add_of_le (Nat.le_of_not_lt hia)
        rw [Memory.read_writeRun_inside v _ a k (by omega), Memory.read_writeRun_inside v _ a k (by omega)]
    · rw [setBuf_buf, setBuf_buf, h.buf e]
  · exact .error _

theorem bufAt_eq (h : Alike E L n s t) {i : Nat} (hi : i < n) : s.bufAt i = t.bufAt i := by
  unfold State.bufAt
  rw [h.bytes i hi, h.env_eq]

theorem memRead_eq (h : Alike E L n s t) {k : Nat} (hk : k ≤ n) : memRead 0 k s = memRead 0 k t := by
  unfold Machine.memRead
  have bytes : (List.range k).map (fun i => s.bufAt (0 + i)) = (List.range k).map fun i => t.bufAt (0 + i) :=
    List.map_congr_left fun i hi => h.bufAt_eq (by have := List.mem_range.mp hi; omega)
  rw [h.params_eq, bytes]

theorem bufLoad_eq (h : Alike E L n s t) {i : Nat} (hi : i < n) : bufLoad i s = bufLoad i t := by
  unfold Machine.bufLoad
  rw [h.params_eq, h.bufAt_eq hi]

end Alike

theorem AlikeAnswers.cases {α : Type} {L : α → Set Latch} {x y : α × State} (h : AlikeAnswers E L n x y) :
    ∃ a u v, x = (a, u) ∧ y = (a, v) ∧ Alike E (L a) n u v := by
  obtain ⟨a, u⟩ := x
  obtain ⟨b, v⟩ := y
  obtain ⟨rfl, h⟩ : a = b ∧ Alike E (L a) n u v := h
  exact ⟨a, u, v, rfl, rfl, h⟩

theorem AlikeResults.cases {α : Type} {R : α → α → Prop} {x y : Except Fault α} (h : AlikeResults R x y) :
    (∃ f, x = .error f ∧ y = .error f) ∨ ∃ a b, x = .ok a ∧ y = .ok b ∧ R a b := by
  cases h with
  | ok h => exact .inr ⟨_, _, rfl, rfl, h⟩
  | error f => exact .inl ⟨f, rfl, rfl⟩

/-- Both cases of two operations that end alike and answer a value. -/
theorem AlikeResults.cases_answers {α : Type} {L : α → Set Latch} {x y : Except Fault (α × State)}
    (h : AlikeResults (AlikeAnswers E L n) x y) : (∃ f, x = .error f ∧ y = .error f) ∨
      ∃ a u v, x = .ok (a, u) ∧ y = .ok (a, v) ∧ Alike E (L a) n u v := by
  obtain ⟨f, ex, ey⟩ | ⟨a, b, ex, ey, hab⟩ := h.cases
  · exact .inl ⟨f, ex, ey⟩
  · obtain ⟨a, u, v, rfl, rfl, h⟩ := hab.cases
    exact .inr ⟨a, u, v, ex, ey, h⟩

theorem AlikeResults.mono {α : Type} {R R' : α → α → Prop} {x y : Except Fault α}
    (h : AlikeResults R x y) (hR : ∀ a b, R a b → R' a b) : AlikeResults R' x y := by
  cases h with
  | ok h => exact .ok (hR _ _ h)
  | error f => exact .error f

theorem AlikeResults.map {α β : Type} {R : α → α → Prop} {R' : β → β → Prop} {x y : Except Fault α}
    (h : AlikeResults R x y) {f g : α → β} (hf : ∀ a b, R a b → R' (f a) (g b)) :
    AlikeResults R' (x.map f) (y.map g) := by
  cases h with
  | ok h => exact .ok (hf _ _ h)
  | error f => exact .error f

/-- A byte that was not accepted leaves a status that says so (R64). -/
theorem readByte_none_st {nack : Bool} {s t : State}
    (h : readByte nack s = .ok (none, t)) : t.latches.st ≠ .ok := by
  unfold readByte at h
  split at h
  · cases h
  · obtain ⟨-, rfl⟩ := Prod.mk.inj (Except.ok.inj h)
    simp
  · simp only at h
    split at h
    · cases h
    · obtain ⟨-, rfl⟩ := Prod.mk.inj (Except.ok.inj h)
      simp

namespace Alike

theorem payloadToBuf (h : Alike E L n s t) (v : List Byte) :
    AlikeResults (Alike E L v.length) (payloadToBuf v s) (payloadToBuf v t) :=
  (h.memWrite (Nat.zero_le n) v).map fun _ _ h => by
    rw [Nat.zero_add] at h
    exact h.setIdx _

theorem bufToHost (h : Alike E L n s t) {k : Nat} (hk : k ≤ n) :
    AlikeResults (Alike E L n) (bufToHost k s) (bufToHost k t) := by
  unfold Machine.bufToHost
  rw [h.memRead_eq hk]
  cases memRead 0 k t with
  | error f => exact .error f
  | ok v => exact .ok ((h.setIdx k).update (trWrite v) fun _ _ _ => rfl)

theorem bufToSpi (h : Alike E L n s t) {k : Nat} (hk : k ≤ n) :
    AlikeResults (Alike E L n) (bufToSpi k s) (bufToSpi k t) := by
  unfold Machine.bufToSpi
  rw [h.memRead_eq hk]
  cases memRead 0 k t with
  | error f => exact .error f
  | ok v => exact .ok ((h.setIdx k).update (spiWrite v) fun _ _ _ => rfl)

theorem scramble (h : Alike E L n s t) (k : Nat) :
    AlikeResults (Alike E L k) (scramble k s) (scramble k t) := by
  have junk : junkBytes k s = junkBytes k t := h.same _ fun _ _ => rfl
  have drawn : Alike E L n (s.setJunk (s.env.junk + k)) (t.setJunk (t.env.junk + k)) :=
    h.update (fun u => u.setJunk (u.env.junk + k)) fun _ _ _ => rfl
  unfold Machine.scramble
  rw [junk]
  refine (drawn.memWrite (Nat.zero_le n) _).mono fun _ _ h => ?_
  rwa [length_junkBytes, Nat.zero_add] at h

/-! ### The Engine -/

theorem pollLoop (k : Nat) : ∀ {s t : State}, Alike E L n s t →
    AlikeAnswers E (fun _ => L) n (pollLoop k s) (pollLoop k t) := by
  induction k with
  | zero => exact fun h => ⟨rfl, h⟩
  | succ k ih =>
    intro s t h
    obtain ⟨a, s1, t1, es, et, h1⟩ := (h.ask phyFlag fun _ _ _ => rfl).cases
    simp only [Machine.pollLoop, es, et]
    cases a with
    | true => exact ⟨rfl, h1⟩
    | false => exact ih h1.countPoll

theorem pollFlag (h : Alike E L n s t) :
    AlikeResults (AlikeAnswers E (fun _ => L) n) (pollFlag s) (pollFlag t) := by
  unfold Machine.pollFlag
  rw [h.i2c_eq, h.params_eq]
  cases t.i2c with
  | none => exact .error _
  | some c => exact .ok (pollLoop _ (h.setPolls 0))

theorem configure (h : Alike E L n s t) (c : Byte) :
    Alike E (insert .st L) n (configure c s) (configure c t) := by
  unfold Machine.configure
  cases speedClass? c with
  | none => exact h.setSt _
  | some k =>
    exact (h.update (fun u => ((phyInit (speedHz k)
      (u.setI2c (some ⟨k, speedHz k, timeoutWindow (speedHz k)⟩))).setTxCur 0).setRxCur 0)
      fun _ _ _ => rfl).setSt .ok

theorem startAndPoll (h : Alike E L n s t) :
    AlikeResults (Alike E (insert .st L) n) (startAndPoll s) (startAndPoll t) := by
  unfold Machine.startAndPoll
  obtain ⟨f, es, et⟩ | ⟨r, s1, t1, es, et, h1⟩ :=
    (h.update phyStart fun _ _ _ => rfl).pollFlag.cases_answers
  · rw [es, et]; exact .error f
  · rw [es, et]
    cases r with
    | expired => exact .ok (h1.setSt _)
    | done =>
      obtain ⟨p, s2, t2, es, et, h2⟩ := (h1.ask phyPhase fun _ _ _ => rfl).cases
      simp only [es, et]
      exact .ok (h2.setSt _)

theorem recoverBus (h : Alike E L n s t) :
    AlikeResults (Alike E (insert .st L) n) (recoverBus s) (recoverBus t) := by
  unfold Machine.recoverBus
  rw [h.i2c_eq]
  cases t.i2c with
  | none => exact .error _
  | some c => exact .ok (h.configure _)

theorem sendStart (h : Alike E L n s t) :
    AlikeResults (Alike E (insert .st L) n) (sendStart s) (sendStart t) := by
  obtain ⟨p, s1, t1, es, et, h1⟩ := (h.ask phyPhase fun _ _ _ => rfl).cases
  simp only [Machine.sendStart, es, et]
  split
  · obtain ⟨f, es, et⟩ | ⟨s2, t2, es, et, h2⟩ := h1.recoverBus.cases
    · rw [es, et]; exact .error f
    · rw [es, et]
      exact Set.insert_idem (Latch.st) L ▸ h2.startAndPoll
  · exact h1.startAndPoll

theorem readByte (h : Alike E L n s t) (nack : Bool) :
    AlikeResults (AlikeAnswers E (fun _ => insert .st L) n) (readByte nack s) (readByte nack t) := by
  unfold Machine.readByte
  obtain ⟨f, es, et⟩ | ⟨r, s1, t1, es, et, h1⟩ :=
    (h.update (phyRxGo (!nack)) fun _ _ _ => rfl).pollFlag.cases_answers
  · rw [es, et]; exact .error f
  · rw [es, et]
    cases r with
    | expired => exact .ok ⟨rfl, h1.setSt _⟩
    | done =>
      obtain ⟨p, s2, t2, es, et, h2⟩ := (h1.ask phyPhase fun _ _ _ => rfl).cases
      simp only [es, et]
      split
      · obtain ⟨b, s3, t3, es, et, h3⟩ := (h2.ask phyData fun _ _ _ => rfl).cases
        simp only [es, et]
        exact .ok ⟨rfl, h3.setSt _⟩
      · exact .ok ⟨rfl, h2.setSt _⟩

/-- The byte loop of `readData`: on success it has written every byte it was to read. -/
theorem readLoop (nackLast : Bool) (k : Nat) : ∀ {L : Set Latch} {i : Nat} {s t : State},
    Alike E L i s t → AlikeResults
      (fun u v => Alike E (insert .st L) (if u.latches.st = .ok then i + k else 0) u v)
      (readLoop nackLast k i s) (readLoop nackLast k i t) := by
  induction k with
  | zero => exact fun h => .ok (h.setSt .ok)
  | succ k ih =>
    intro L i s t h
    unfold Machine.readLoop
    obtain ⟨f, es, et⟩ | ⟨r, s1, t1, es, et, h1⟩ :=
      ((h.setIdx i).readByte (k == 0 && nackLast)).cases_answers
    · rw [es, et]; exact .error f
    · rw [es, et]
      cases r with
      | none =>
        refine .ok ?_
        rw [if_neg (readByte_none_st es)]
        exact h1.mono le_rfl (Nat.zero_le _)
      | some b =>
        obtain ⟨f, es, et⟩ | ⟨s2, t2, es, et, h2⟩ := (h1.memWrite le_rfl [b]).cases
        · simp only [bufStore, es, et]; exact .error f
        · simp only [bufStore, es, et]
          have rest := ih h2
          rw [Set.insert_idem, List.length_singleton, Nat.add_assoc, Nat.add_comm 1] at rest
          exact rest

theorem readData (h : Alike E L n s t) (k : Nat) (nackLast : Bool) :
    AlikeResults (Alike E (insert .st L) k) (readData k nackLast s) (readData k nackLast t) := by
  obtain ⟨p, s1, t1, es, et, h1⟩ := (h.ask phyPhase fun _ _ _ => rfl).cases
  simp only [Machine.readData, es, et]
  split
  · obtain ⟨f, es, et⟩ | ⟨s2, t2, es, et, h2⟩ :=
      (readLoop nackLast k (h1.mono le_rfl (Nat.zero_le n))).cases
    · rw [es, et]; exact .error f
    · have st : s2.latches.st = t2.latches.st := h2.latches .st (Set.mem_insert _ _)
      simp only [es, et, ← st]
      by_cases ok : s2.latches.st = .ok
      · simp only [if_pos ok, Nat.zero_add] at h2 ⊢
        exact .ok h2
      · simp only [if_neg ok] at h2 ⊢
        exact h2.scramble k
  · exact (h1.setSt _).scramble k

/-- A byte sent: what became of it is in the answer, and in the status where it did not complete. -/
theorem sendByte (h : Alike E L n s t) (b : Byte) :
    AlikeResults (AlikeAnswers E (fun r => if r = none then insert .st L else L) n)
      (sendByte b s) (sendByte b t) := by
  unfold Machine.sendByte
  obtain ⟨f, es, et⟩ | ⟨r, s1, t1, es, et, h1⟩ :=
    (h.update (fun u => phyTxGo (phyLoad b u)) fun _ _ _ => rfl).pollFlag.cases_answers
  · rw [es, et]; exact .error f
  · rw [es, et]
    cases r with
    | expired => exact .ok ⟨rfl, h1.setSt _⟩
    | done =>
      obtain ⟨p, s2, t2, es, et, h2⟩ := (h1.ask phyPhase fun _ _ _ => rfl).cases
      simp only [es, et]
      exact .ok ⟨rfl, h2⟩

/-- The byte loop of `writeData`, over bytes that both buffers hold. -/
theorem writeLoop (k : Nat) : ∀ {i : Nat} {s t : State}, Alike E L n s t → i + k ≤ n →
    AlikeResults (Alike E (insert .st L) n) (writeLoop k i s) (writeLoop k i t) := by
  induction k with
  | zero => exact fun h _ => .ok (h.setSt .ok)
  | succ k ih =>
    intro i s t h hk
    unfold Machine.writeLoop
    rw [h.bufLoad_eq (by omega)]
    cases bufLoad i t with
    | error f => exact .error f
    | ok b =>
      obtain ⟨f, es, et⟩ | ⟨r, s1, t1, es, et, h1⟩ := ((h.setIdx i).sendByte b).cases_answers
      · simp only [es, et]; exact .error f
      · simp only [es, et]
        cases r with
        | none => exact .ok h1
        | some p =>
          simp only
          split
          · exact ih h1 (by omega)
          · exact .ok (h1.setSt _)

end Alike

/-! ### The elements of a frame

In these, `L'` is what is known to agree before the command and `L` what is by then. -/

theorem AlikeOuts.finish {x y : Except Fault State} {k : State → Out}
    (h : AlikeResults (Alike E L n) x y)
    (hk : ∀ u v, Alike E L n u v → AlikeOuts E L' (k u) (k v)) :
    AlikeOuts E L' (finish x k) (finish y k) := by
  cases h with
  | ok h => exact hk _ _ h
  | error f => exact .fault f

namespace Alike

/-- A frame that ends here, with the same terminating byte in both. -/
theorem respond (h : Alike E L n s t) (hL : L' ⊆ L) (op : Byte) (r : Result) :
    AlikeOuts E L' (.next (respond op r s)) (.next (respond op r t)) :=
  .next ((h.update (Machine.respond op r) fun _ _ _ => rfl).mono hL le_rfl)

theorem respondStatus (h : Alike E L n s t) (hL : L' ⊆ L) (st : .st ∈ L) (op : Byte) :
    AlikeOuts E L' (.next (respondStatus op s)) (.next (respondStatus op t)) := by
  have e : s.latches.st = t.latches.st := h.latches _ st
  unfold Machine.respondStatus
  rw [e]
  exact h.respond hL op _

theorem onOpenI2c (h : Alike E L n s t) {x y : Out} (hk : AlikeOuts E L' x y) :
    AlikeOuts E L' (onOpenI2c s x) (onOpenI2c t y) := by
  unfold Machine.onOpenI2c
  rw [h.same State.i2cOpen fun _ _ => rfl]
  split
  · exact hk
  · exact .refused _

theorem onOpenSpi (h : Alike E L n s t) {x y : Out} (hk : AlikeOuts E L' x y) :
    AlikeOuts E L' (onOpenSpi s x) (onOpenSpi t y) := by
  unfold Machine.onOpenSpi
  rw [h.same State.spiOpen fun _ _ => rfl]
  split
  · exact hk
  · exact .refused _

theorem takeParam (h : Alike E L n s t) (hL : L' ⊆ L) {op : Byte} {k : Byte → State → Out}
    (hk : ∀ p u v, Alike E L n u v → AlikeOuts E L' (k p u) (k p v)) :
    AlikeOuts E L' (takeParam op s k) (takeParam op t k) := by
  obtain ⟨bs, u, v, es, et, h1⟩ :=
    (h.ask (fun u => trRead 1 (u.setPc .readParams)) fun _ _ _ => rfl).cases
  simp only [Machine.takeParam, es, et]
  match bs with
  | [p] => exact hk p u v h1
  | [] | _ :: _ :: _ => exact h1.respond hL op _

theorem takeParams2 (h : Alike E L n s t) (hL : L' ⊆ L) {op : Byte} {k : Byte → Byte → State → Out}
    (hk : ∀ p q u v, Alike E L n u v → AlikeOuts E L' (k p q u) (k p q v)) :
    AlikeOuts E L' (takeParams2 op s k) (takeParams2 op t k) := by
  obtain ⟨bs, u, v, es, et, h1⟩ :=
    (h.ask (fun u => trRead 2 (u.setPc .readParams)) fun _ _ _ => rfl).cases
  simp only [Machine.takeParams2, es, et]
  match bs with
  | [p, q] => exact hk p q u v h1
  | [] | [_] | _ :: _ :: _ :: _ => exact h1.respond hL op _

theorem checkLen (h : Alike E L n s t) (hL : L' ⊆ L) {b : Byte} (len : .declared b ∈ L) {op : Byte}
    {bound : Nat} {k : State → Out} (hk : AlikeOuts E L' (k s) (k t)) :
    AlikeOuts E L' (checkLen op bound s k) (checkLen op bound t k) := by
  obtain ⟨hs, ht⟩ := h.declared_len len
  unfold Machine.checkLen
  rw [hs, ht]
  split
  · exact h.respond hL op _
  · exact hk

/-- After a payload that arrived whole both buffers hold it. -/
theorem takePayload (h : Alike E L m s t) (hL : L' ⊆ L) {op : Byte} {k : State → Out}
    (hk : ∀ u v, Alike E L n u v → AlikeOuts E L' (k u) (k v)) :
    AlikeOuts E L' (takePayload op n s k) (takePayload op n t k) := by
  obtain ⟨bs, u, v, es, et, h1⟩ :=
    (h.ask (fun u => trRead n (u.setPc .payloadIn)) fun _ _ _ => rfl).cases
  simp only [Machine.takePayload, es, et]
  split
  · exact h1.respond hL op _
  · next whole =>
    exact .finish (h1.payloadToBuf bs) fun u v h => hk u v (h.mono le_rfl (Nat.le_of_not_lt whole))

theorem linkTest (h : Alike E L n s t) (op : Byte) : AlikeOuts E L (linkTest op s) (linkTest op t) := by
  obtain ⟨bs, u, v, es, et, h1⟩ := (h.ask (fun u =>
    trRead 2 ((trWrite sentinel (u.setPc .payloadOut)).setPc .payloadIn)) fun _ _ _ => rfl).cases
  simp only [Machine.linkTest, es, et]
  match bs with
  | [a, b] =>
    simp only
    split
    · exact h1.respond le_rfl op _
    · exact h1.respond le_rfl op _
  | [] | [_] | _ :: _ :: _ :: _ => exact h1.respond le_rfl op _

/-! ### The commands -/

theorem execSpiInit (h : Alike E L n s t) : AlikeOuts E L (execSpiInit s) (execSpiInit t) := by
  refine h.takeParam le_rfl fun p u v h => ?_
  split
  · exact (h.update (fun u => (spiInit p (u.setPc .execute)).setSpi (some ⟨p⟩)) fun _ _ _ => rfl).respond
      le_rfl _ _
  · exact h.respond le_rfl _ _

theorem execSpiDeinit (h : Alike E L n s t) : AlikeOuts E L (execSpiDeinit s) (execSpiDeinit t) :=
  (h.update (fun u => (spiDeinit (u.setPc .execute)).setSpi none) fun _ _ _ => rfl).respond le_rfl _ _

theorem execSpiSelect (h : Alike E L n s t) : AlikeOuts E L (execSpiSelect s) (execSpiSelect t) :=
  h.onOpenSpi ((h.update (fun u => spiSelect (u.setPc .execute)) fun _ _ _ => rfl).respond le_rfl _ _)

theorem execSpiRelease (h : Alike E L n s t) : AlikeOuts E L (execSpiRelease s) (execSpiRelease t) :=
  h.onOpenSpi ((h.update (fun u => spiRelease (u.setPc .execute)) fun _ _ _ => rfl).respond le_rfl _ _)

/-- After an exchange both buffers hold the bytes received. -/
theorem spiToBuf (h : Alike E L n s t) (k : Nat) :
    AlikeResults (Alike E L k) (Machine.payloadToBuf (spiRead k s).1 (spiRead k s).2)
      (Machine.payloadToBuf (spiRead k t).1 (spiRead k t).2) := by
  obtain ⟨bs, u, v, es, et, h1⟩ := (h.ask (spiRead k) fun _ _ _ => rfl).cases
  have len : k = bs.length := by
    have := congrArg (fun r => r.1.length) es
    simpa [spiRead_eq] using this
  rw [es, et, len]
  exact h1.payloadToBuf bs

section

variable (fresh : ∀ k, .declared k ∉ L)

include fresh

theorem execSpiRead (h : Alike E L n s t) : AlikeOuts E L (execSpiRead s) (execSpiRead t) := by
  refine h.onOpenSpi (h.takeParam le_rfl fun k u v h => ?_)
  rw [h.params_eq]
  have known : L ⊆ insert (.declared k) L := Set.subset_insert _ _
  have mem : .declared k ∈ insert (.declared k) L := Set.mem_insert _ _
  have h := h.setLen fresh k
  refine h.checkLen known mem ?_
  have echoed := h.update (fun u => (earlyEcho 11 u).setPc .execute) fun _ _ _ => rfl
  refine .finish (echoed.spiToBuf k.toNat) fun u v h => ?_
  obtain ⟨hu, hv⟩ := h.declared_len mem
  rw [hu, hv]
  have out := h.update (State.setPc .payloadOut) fun _ _ _ => rfl
  exact .finish (out.bufToHost le_rfl) fun u v h => h.respond known _ _

theorem execSpiWrite (h : Alike E L n s t) : AlikeOuts E L (execSpiWrite s) (execSpiWrite t) := by
  refine h.onOpenSpi (h.takeParam le_rfl fun k u v h => ?_)
  rw [h.params_eq]
  have known : L ⊆ insert (.declared k) L := Set.subset_insert _ _
  have mem : .declared k ∈ insert (.declared k) L := Set.mem_insert _ _
  have h := h.setLen fresh k
  refine h.checkLen known mem ?_
  have echoed := h.update (earlyEcho 12) fun _ _ _ => rfl
  refine echoed.takePayload (n := k.toNat) known fun u v h => ?_
  obtain ⟨hu, hv⟩ := h.declared_len mem
  rw [hu, hv]
  have bus := h.update (State.setPc .execute) fun _ _ _ => rfl
  exact .finish (bus.bufToSpi le_rfl) fun u v h => h.respond known _ _

theorem execI2cRead (h : Alike E L n s t) : AlikeOuts E L (execI2cRead s) (execI2cRead t) := by
  refine h.onOpenI2c (h.takeParams2 le_rfl fun k nack u v h => ?_)
  have known : L ⊆ insert .st (insert .flag (insert (.declared k) L)) := fun x hx => by simp [hx]
  have h := (h.setLen fresh k).setFlag (nackFlag nack)
  have mem : .declared k ∈ insert Latch.flag (insert (.declared k) L) := by simp
  refine h.checkLen (fun x hx => by simp [hx]) mem ?_
  have echoed := h.update (fun u => (earlyEcho 22 u).setPc .execute) fun _ _ _ => rfl
  refine .finish (echoed.readData k.toNat (nackFlag nack)) fun u v h => ?_
  obtain ⟨hu, hv⟩ := h.declared_len (k := k) (by simp)
  rw [hu, hv]
  have out := h.update (State.setPc .payloadOut) fun _ _ _ => rfl
  exact .finish (out.bufToHost le_rfl) fun u v h => h.respondStatus known (by simp) _

theorem execI2cWrite (h : Alike E L n s t) : AlikeOuts E L (execI2cWrite s) (execI2cWrite t) := by
  refine h.onOpenI2c (h.takeParam le_rfl fun k u v h => ?_)
  have known : L ⊆ insert (.declared k) L := Set.subset_insert _ _
  have mem : .declared k ∈ insert (.declared k) L := Set.mem_insert _ _
  have h := h.setLen fresh k
  refine h.checkLen known mem ?_
  have echoed := h.update (earlyEcho 23) fun _ _ _ => rfl
  refine echoed.takePayload (n := k.toNat) known fun u v h => ?_
  obtain ⟨hu, hv⟩ := h.declared_len mem
  rw [hu, hv]
  have bus := h.update (State.setPc .execute) fun _ _ _ => rfl
  exact .finish (bus.writeLoop k.toNat (by omega)) fun u v h =>
    h.respondStatus (known.trans (Set.subset_insert _ _)) (Set.mem_insert _ _) _

end

theorem execI2cInit (h : Alike E L n s t) : AlikeOuts E L (execI2cInit s) (execI2cInit t) := by
  refine h.takeParam le_rfl fun p u v h => ?_
  cases speedClass? p with
  | none => exact h.respond le_rfl _ _
  | some k =>
    have bus := h.update (State.setPc .execute) fun _ _ _ => rfl
    exact (bus.configure p).respond (Set.subset_insert _ _) _ _

theorem execI2cDeinit (h : Alike E L n s t) : AlikeOuts E L (execI2cDeinit s) (execI2cDeinit t) :=
  (h.update (fun u => shutdown (u.setPc .execute)) fun _ _ _ => rfl).respond le_rfl _ _

theorem execI2cStart (h : Alike E L n s t) : AlikeOuts E L (execI2cStart s) (execI2cStart t) := by
  have bus := h.update (State.setPc .execute) fun _ _ _ => rfl
  exact h.onOpenI2c (.finish bus.sendStart fun u v h =>
    h.respondStatus (Set.subset_insert _ _) (Set.mem_insert _ _) _)

theorem execI2cStop (h : Alike E L n s t) : AlikeOuts E L (execI2cStop s) (execI2cStop t) := by
  have stopped := (h.update (fun u => phyStop (u.setPc .execute)) fun _ _ _ => rfl).setSt .ok
  exact h.onOpenI2c (stopped.respond (Set.subset_insert _ _) _ _)

/-- Every command goes alike from states that differ in latches and buffer: it reads of them only what it has
written itself. -/
theorem exec (h : Alike E L n s t) (fresh : ∀ k, .declared k ∉ L) (i : Instr) :
    AlikeOuts E L (exec i s) (exec i t) := by
  cases i with
  | spiInit => exact h.execSpiInit
  | spiDeinit => exact h.execSpiDeinit
  | spiSelect => exact h.execSpiSelect
  | spiRelease => exact h.execSpiRelease
  | spiRead => exact h.execSpiRead fresh
  | spiWrite => exact h.execSpiWrite fresh
  | spiTest => exact h.linkTest _
  | i2cInit => exact h.execI2cInit
  | i2cDeinit => exact h.execI2cDeinit
  | i2cRead => exact h.execI2cRead fresh
  | i2cWrite => exact h.execI2cWrite fresh
  | i2cStart => exact h.execI2cStart
  | i2cStop => exact h.execI2cStop
  | i2cTest => exact h.linkTest _
  | nosuch op => exact h.respond le_rfl _ _

/-! ### The step -/

theorem runCommand (h : Alike E L n s t) (fresh : ∀ k, .declared k ∉ L) :
    AlikeOuts E L (runCommand s) (runCommand t) := by
  obtain ⟨bs, u, v, es, et, h1⟩ := (h.ask (trRead 1) fun _ _ _ => rfl).cases
  simp only [Machine.runCommand, fetchOpcode, es, et, h.pc_eq]
  split
  · match bs with
    | [b] => exact (h1.setOp b).exec fresh _
    | [] | _ :: _ :: _ => exact .next h1
  · exact .fault _

/-- A command that a reset may cut short is cut short at the same operation in both. -/
theorem runCommandUnderReset (h : Alike E L n s t) (fresh : ∀ k, .declared k ∉ L) (j : Nat) :
    AlikeOuts E L (runCommandUnderReset j s) (runCommandUnderReset j t) := by
  have ran := (h.update (State.setResetIn none) fun _ _ _ => rfl).runCommand fresh
  unfold Machine.runCommandUnderReset
  generalize Machine.runCommand (s.setResetIn none) = x at ran
  generalize Machine.runCommand (t.setResetIn none) = y at ran
  cases ran with
  | fault f => exact .fault f
  | refused r => exact .refused r
  | next h1 =>
    simp only [← h1.trace_eq, ← h1.env_eq, ← h.trace_eq]
    split
    · rw [h.same (resetAfter _ _) fun _ _ => rfl]
      exact .next (n := 0) (refl fresh _)
    · exact .next (h1.update _ fun _ _ _ => rfl)

theorem step (h : Alike E L n s t) (fresh : ∀ k, .declared k ∉ L) : AlikeOuts E L (step s) (step t) := by
  unfold Machine.step
  rw [h.env_eq]
  split
  · exact h.runCommand fresh
  · rw [h.same resetBlock fun _ _ => rfl]
    exact .next (n := 0) (refl fresh _)
  · exact h.runCommandUnderReset fresh _

end Alike

/-! ### The latches and the buffer between commands -/

/-- Settles O57: nothing need be known of the latches for two steps to go alike. -/
theorem latchesDeadBetweenCommands : Obligations.LatchesDeadBetweenCommands := by
  intro s l
  have start : Alike True ∅ 0 s { s with latches := l } :=
    ⟨rfl, fun _ hx => absurd hx (Set.notMem_empty _), fun _ _ => rfl, fun _ => rfl⟩
  have stepped := start.step fun _ => Set.notMem_empty _
  generalize step s = x at stepped ⊢
  generalize step { s with latches := l } = y at stepped ⊢
  cases stepped with
  | fault f => rfl
  | refused r => rfl
  | @next n u v h =>
    have same : u.buf = v.buf := h.buf trivial
    exact h.rest.trans (by rw [← same]; rfl)

/-- Settles O58: nothing need be known of the buffer for two steps to go alike. -/
theorem bufferContentsDeadBetweenCommands : Obligations.BufferContentsDeadBetweenCommands := by
  intro s m
  have start : Alike False {x | ∀ k, x ≠ .declared k} 0 s { s with buf := m } := by
    refine ⟨rfl, fun x hx => ?_, fun _ hi => absurd hi (Nat.not_lt_zero _), False.elim⟩
    cases x with
    | declared k => exact absurd rfl (hx k)
    | _ => rfl
  have stepped := start.step fun k hk => hk k rfl
  generalize step s = x at stepped ⊢
  generalize step { s with buf := m } = y at stepped ⊢
  cases stepped with
  | fault f => rfl
  | refused r => rfl
  | @next n u v h => exact ⟨v.buf, h.rest.trans (by rw [← h.latches_eq fun _ hx => hx]; rfl)⟩

end Sys2Proof.Machine
end

section
/-! PROOFS. Buffer access (spec/20_memory.md, R32): what a write stores and leaves, what a read of the same run
gives, and the fault of both out of range. -/

namespace Sys2Proof.Machine

open Sys2Proof State

/-- Out of range a buffer write is the modelling fault R32 allows. -/
theorem memWrite_outOfRange {s : State} {addr : Nat} {v : List Byte} (h : s.params.bufCap < addr + v.length) :
    memWrite addr v s = .error .bufRange := if_neg (Nat.not_le.mpr h)

/-- Out of range a buffer read is the same fault. -/
theorem memRead_outOfRange {s : State} {addr n : Nat} (h : s.params.bufCap < addr + n) :
    memRead addr n s = .error .bufRange := if_neg (Nat.not_le.mpr h)

/-- A buffer write in range leaves a state from which the same run reads as the bytes written. -/
theorem memRead_setBuf_writeRun {s : State} {addr : Nat} {v : List Byte}
    (h : addr + v.length ≤ s.params.bufCap) :
    memRead addr v.length (s.setBuf (s.buf.writeRun addr v)) = .ok v :=
  memRead_written h fun k hk => Memory.read_writeRun_inside v s.buf addr k hk

/-- Settles O12: the state a write in range leaves has the run written into its buffer, so what it holds inside
and outside the run is what `Memory.writeRun` says. -/
theorem memWriteThenReadGivesBytes : Obligations.MemWriteThenReadGivesBytes := by
  intro s addr v
  refine ⟨fun h => ⟨s.setBuf (s.buf.writeRun addr v), memWrite_eq h, rfl, ?inside, ?outside,
    memRead_setBuf_writeRun h⟩, memWrite_outOfRange, fun _ => memRead_eq, fun _ => memRead_outOfRange,
    fun _ _ => bufAt_written⟩
  case inside => exact Memory.read_writeRun_inside v s.buf addr
  case outside => exact fun _ => Memory.read_writeRun_outside v s.buf

end Sys2Proof.Machine
end

section
/-! PROOFS. The encoding (spec/30_encoding.md): a byte and the command it encodes, a frame and the bytes the host
sends for it, a result and its terminating byte, and where the early echo stands in a frame. -/

namespace Sys2Proof.Machine

open Sys2Proof State

/-! ### Opcode bytes and commands (R43, R46, R48) -/

theorem nosuch_wf {b : Byte} (h : b ∉ closedOpcodes) : (Instr.nosuch b).wf = true := by
  simpa [Instr.wf] using h

theorem decode_nosuch {b : Byte} (h : b ∉ closedOpcodes) : decode b = .nosuch b :=
  decode_opcode (nosuch_wf h)

theorem decodeBytes_encode_append {i : Instr} (h : i.wf = true) (rest : List Byte) :
    decodeBytes (encode i ++ rest) = .ok (i, rest) := by
  have decoded : decodeBytes (encode i ++ rest) = .ok (decode i.opcode, rest) := rfl
  rw [decoded, decode_opcode h]

/-- Settles O1: the closed set row by row, and every other byte is the opcode of its own `NOSUCH`. -/
theorem opcodeMapDecodes : Obligations.OpcodeMapDecodes := by
  refine ⟨by decide, fun b outside => ?_⟩
  have decoded : decode b = .nosuch b := decode_nosuch outside
  exact ⟨decoded, by rw [decoded]; rfl⟩

/-- Settles O2: each word is evaluated. -/
theorem writtenWordsDecode : Obligations.WrittenWordsDecode := ⟨rfl, rfl, rfl, rfl, rfl⟩

/-- Settles O3: both directions are facts about the one opcode byte. -/
theorem decodeEncodeRoundTrip : Obligations.DecodeEncodeRoundTrip :=
  ⟨fun _ rest wf => decodeBytes_encode_append wf rest, decode_wf⟩

/-! ### Frames and the bytes the host sends (R44, R49, R52) -/

theorem hostFrame_wf_iff {f : HostFrame} : f.wf = true ↔
    f.instr.wf = true ∧ f.params.length = f.instr.format.paramCount ∧
      f.tail.length = f.instr.format.tailCount f.params := by
  simp [HostFrame.wf, and_assoc]

/-- After its opcode byte a frame is parsed exactly when the stream begins with as many parameter and then tail
bytes as the format of the command says. -/
theorem parseFrame_cons_ok_iff {b : Byte} {bs rest : List Byte} {f : HostFrame} :
    parseFrame (b :: bs) = .ok (f, rest) ↔
      f.instr = decode b ∧ f.params.length = (decode b).format.paramCount ∧
        f.tail.length = (decode b).format.tailCount f.params ∧ bs = f.params ++ (f.tail ++ rest) := by
  obtain ⟨i, params, tail⟩ := f
  simp only [parseFrame, decodeBytes]
  constructor
  · intro h
    split at h
    · cases h
    next enough =>
      split at h
      · cases h
      next enoughTail =>
        cases h
        refine ⟨rfl, ?_, ?_, by simp⟩
        · exact List.length_take_of_le (Nat.le_of_not_lt enough)
        · exact List.length_take_of_le (Nat.le_of_not_lt enoughTail)
  · rintro ⟨rfl, hp, ht, rfl⟩
    simp [← hp, ← ht]

/-- Settles O4: the opcode byte decodes to the command of the frame, whose format counts off the rest. -/
theorem frameParseInvertsEncode : Obligations.FrameParseInvertsEncode := by
  intro f rest wf
  obtain ⟨wfInstr, params, tail⟩ := hostFrame_wf_iff.mp wf
  have bytes : encodeFrame f ++ rest = f.instr.opcode :: (f.params ++ (f.tail ++ rest)) := by
    simp [encodeFrame, encode]
  rw [bytes, parseFrame_cons_ok_iff, decode_opcode wfInstr]
  exact ⟨rfl, params, tail, rfl⟩

/-- Settles O5: an empty stream gives no frame, and the first byte of any other is the encoding of the command
it decodes to. -/
theorem frameParseReadsOnlyEncodings : Obligations.FrameParseReadsOnlyEncodings := by
  intro bs rest f parsed
  cases bs with
  | nil => cases parsed
  | cons b bs =>
    obtain ⟨instr, params, tail, rfl⟩ := parseFrame_cons_ok_iff.mp parsed
    obtain ⟨wf, encoded⟩ := decode_wf b
    rw [← instr] at params tail wf encoded
    exact ⟨hostFrame_wf_iff.mpr ⟨wf, params, tail⟩, by simp [encodeFrame, encoded]⟩

theorem length_encodeFrame {f : HostFrame} (wf : f.wf = true) : (encodeFrame f).length =
    1 + f.instr.format.paramCount + f.instr.format.tailCount f.params := by
  obtain ⟨-, params, tail⟩ := hostFrame_wf_iff.mp wf
  simp only [encodeFrame, encode, List.length_append, List.length_singleton, params, tail]

/-- Settles O6: one opcode byte, then the parameters and the tail that each format counts. -/
theorem frameHostByteCounts : Obligations.FrameHostByteCounts := by
  intro f wf
  rw [length_encodeFrame wf]
  cases f.instr.format <;> rfl

/-! ### Results and terminating bytes (R47) -/

/-- The result a terminating byte stands for in a frame of opcode `op`, as the host reads it. -/
def resultOfByte (op b : Byte) : Result :=
  if b = op then .success
  else if b = 97 then .opFailed
  else if b = 98 then .inputTimeout
  else if b = 99 then .invalidInput
  else .noSuchCommand

/-- No error code is an opcode. -/
theorem errorCodes_not_closedOpcodes :
    ∀ op ∈ closedOpcodes, (97 : Byte) ≠ op ∧ (98 : Byte) ≠ op ∧ (99 : Byte) ≠ op ∧ (100 : Byte) ≠ op := by
  decide

/-- On the closed set the host reads back the result that was encoded. -/
theorem resultOfByte_encodeResult {op : Byte} (h : op ∈ closedOpcodes) :
    Function.LeftInverse (resultOfByte op) (encodeResult op) := by
  obtain ⟨h97, h98, h99, h100⟩ := errorCodes_not_closedOpcodes op h
  intro r
  cases r with
  | success => exact if_pos rfl
  | opFailed => exact if_neg h97
  | inputTimeout => exact if_neg h98
  | invalidInput => exact if_neg h99
  | noSuchCommand => exact if_neg h100

/-- Settles O7: the table of R47, and that the host can read it backwards. -/
theorem resultEncodingUnambiguous : Obligations.ResultEncodingUnambiguous :=
  ⟨fun _ => ⟨rfl, rfl, rfl, rfl, rfl⟩,
    fun _ _ _ h => (resultOfByte_encodeResult h).injective.eq_iff⟩

/-! ### Unknown opcodes (R48) -/

/-- Settles O14: the command such a byte decodes to only raises `NoSuchCommand`. -/
theorem unknownOpcodeAnswersNoSuch : Obligations.UnknownOpcodeAnswersNoSuch := by
  intro s b outside
  refine ⟨decode_nosuch outside, ?_⟩
  rw [exec_nosuch, raise, respond_eq, State.after, Answers.skip_zero]
  rfl

/-! ### The early echo (R50) -/

/-- The parameters are read first, `n` bytes of them; then the frame ends with 98 or 99, or the early echo
follows. -/
def EchoesAfterParams (n : Nat) (op : Byte) (s t : State) : Prop :=
  ∃ got rest, t.trace = s.trace ++ (Pc.readParams, Event.trRead n got) :: rest ∧
    ((∃ r, r ∈ [(98 : Byte), 99] ∧ rest = [(.respond, .trWrite [r])]) ∨
      ∃ more, rest = (.earlyEcho, .trWrite [op]) :: more)

namespace EchoesAfterParams

variable {n : Nat} {op : Byte} {s t : State} {got : List Byte}

/-- A frame that fails where only the parameters were read. -/
theorem of_raise {u : State} (read : u.trace = s.trace ++ [(.readParams, .trRead n got)]) {e : Result}
    (code : encodeResult op e ∈ [(98 : Byte), 99]) : EchoesAfterParams n op s (raise op e u) :=
  ⟨got, _, by rw [raise_trace, read, List.append_assoc]; rfl, .inl ⟨_, code, rfl⟩⟩

/-- A frame whose trace goes on from the early echo. -/
theorem of_echo
    (echoed : s.trace ++ [(.readParams, .trRead n got), (.earlyEcho, .trWrite [op])] <+: t.trace) :
    EchoesAfterParams n op s t := by
  obtain ⟨more, trace⟩ := echoed
  exact ⟨got, _, by rw [← trace, List.append_assoc]; rfl, .inr ⟨more, rfl⟩⟩

theorem of_execSpiRead (h : exec .spiRead s = .next t) : EchoesAfterParams 1 11 s t := by
  rcases execSpiRead_cases s with
    ⟨-, e⟩ | ⟨-, k, -, -, data, -, e⟩ | ⟨-, k, -, -, e⟩ | ⟨-, -, e⟩
  · cases e.symm.trans h
  all_goals obtain rfl := Host.Outcome.next.inj (e.symm.trans h)
  · exact of_echo (got := [k]) (by simp)
  · exact of_raise (got := [k]) rfl (by decide)
  · exact of_raise (got := []) rfl (by decide)

theorem of_execSpiWrite (h : exec .spiWrite s = .next t) : EchoesAfterParams 1 12 s t := by
  rcases execSpiWrite_cases s with
    ⟨-, e⟩ | ⟨-, k, bs, -, -, -, e⟩ | ⟨-, k, bs, -, -, -, e⟩ | ⟨-, k, -, -, e⟩ | ⟨-, -, e⟩
  · cases e.symm.trans h
  all_goals obtain rfl := Host.Outcome.next.inj (e.symm.trans h)
  · exact of_echo (got := [k]) (by simp)
  · exact of_echo (got := [k]) (by simp)
  · exact of_raise (got := [k]) rfl (by decide)
  · exact of_raise (got := []) rfl (by decide)

theorem of_execI2cRead (h : exec .i2cRead s = .next t) : EchoesAfterParams 2 22 s t := by
  rcases execI2cRead_cases s with
    ⟨-, e⟩ | ⟨c, k, nack, -, -, -, s1, u, new, data, rfl, -, ran, -, -, -, -, -, e⟩ |
    ⟨-, k, nack, -, -, e⟩ | ⟨-, bs, -, -, e⟩
  · cases e.symm.trans h
  all_goals obtain rfl := Host.Outcome.next.inj (e.symm.trans h)
  · exact of_echo (got := [k, nack]) (by simp [ran.trace])
  · exact of_raise (got := [k, nack]) rfl (by decide)
  · exact of_raise (got := bs) rfl (by decide)

theorem of_execI2cWrite (h : exec .i2cWrite s = .next t) : EchoesAfterParams 1 23 s t := by
  rcases execI2cWrite_cases s with
    ⟨-, e⟩ | ⟨c, k, bs, -, -, -, -, s1, u, new, rfl, -, ran, -, -, -, e⟩ |
    ⟨-, k, bs, -, -, -, e⟩ | ⟨-, k, -, -, e⟩ | ⟨-, -, e⟩
  · cases e.symm.trans h
  all_goals obtain rfl := Host.Outcome.next.inj (e.symm.trans h)
  · exact of_echo (got := [k]) (by simp [ran.trace])
  · exact of_echo (got := [k]) (by simp)
  · exact of_raise (got := [k]) rfl (by decide)
  · exact of_raise (got := []) rfl (by decide)

end EchoesAfterParams

/-- Settles O51: the four commands of these formats, each by its own cases. -/
theorem earlyEchoBeforePayloadAndBus : Obligations.EarlyEchoBeforePayloadAndBus := by
  intro i s t format h
  cases i with
  | spiRead => exact EchoesAfterParams.of_execSpiRead h
  | spiWrite => exact EchoesAfterParams.of_execSpiWrite h
  | i2cRead => exact EchoesAfterParams.of_execI2cRead h
  | i2cWrite => exact EchoesAfterParams.of_execI2cWrite h
  | _ => simp [Instr.format] at format

end Sys2Proof.Machine
end

section
/-! PROOFS. The I2C engine (spec/40_i2c_engine.md, R57 to R68): the timeout window and the poll budget, and each
engine operation on an open bus, for the flag seen set within the budget and for the flag not seen set. -/

namespace Sys2Proof.Machine

open Sys2Proof State

/-! ### Times (R57, R58) -/

/-- `ceilDiv a b` is the least number of steps of `b` that covers `a`. -/
theorem ceilDiv_bounds (a : Nat) {b : Nat} (hb : 0 < b) :
    a ≤ ceilDiv a b * b ∧ ceilDiv a b * b < a + b := by
  have division : (a + b - 1) / b * b + (a + b - 1) % b = a + b - 1 := Nat.div_add_mod' _ _
  have remainder : (a + b - 1) % b < b := Nat.mod_lt _ hb
  unfold ceilDiv
  omega

/-- Settles O35: the window is such a quotient, and its three values are computed. -/
theorem timeoutWindowIsCeiling : Obligations.TimeoutWindowIsCeiling :=
  ⟨fun _ hz => ceilDiv_bounds _ hz, rfl, rfl, rfl⟩

/-- Settles O36: the two outcomes of the loop, each by its own rule. -/
theorem pollFlagOutcome : Obligations.PollFlagOutcome :=
  fun s _ hc => ⟨ceilDiv_bounds _ s.params.pollDelay_pos, fun _ => pollFlag_done hc, pollFlag_expired hc⟩

/-- A timeout window that is not empty allows at least one flag read. -/
theorem budget_pos {s : State} {c : I2cConfig} (h : 0 < c.timeoutUs) : 0 < s.budget c := by
  obtain ⟨covers, -⟩ := ceilDiv_bounds c.timeoutUs s.params.pollDelay_pos
  exact Nat.pos_of_mul_pos_right (h.trans_le covers)

/-- A flag seen set within the first `b` reads is not one of which `b` reads saw nothing. -/
theorem flagDone_not_flagExpires {s : State} {n k b : Nat} (h : s.flagDone n k) (hk : k < b) :
    ¬ s.flagExpires n b := fun expired => by
  have unset := expired k hk
  rw [h.1] at unset
  cases unset

/-! ### Configuration (R59, R60) -/

theorem speedClass?_eq_none : ∀ p : Byte, p ∉ [(0 : Byte), 1, 2] → speedClass? p = none := by decide

theorem configure_of_no_class {p : Byte} (h : speedClass? p = none) (s : State) :
    configure p s = s.setSt .configError := by
  simp only [configure, h]

/-- The same class set again changes nothing but the trace. -/
theorem configure_configure {p : Byte} {k : SpeedClass} (h : speedClass? p = some k) (s : State) :
    configure p (configure p s) =
      { configure p s with
        trace := s.trace ++ [(s.pc, .phyInit (speedHz k)), (s.pc, .phyInit (speedHz k))] } := by
  simp [configure_of_class h]

/-- Settles O37: the three classes by the rule for a class, every other byte by the rule for none. -/
theorem configureOutcome : Obligations.ConfigureOutcome := by
  refine fun s => ⟨fun p c hp => ?_, fun p hp => configure_of_no_class (speedClass?_eq_none p hp) s⟩
  simp only [List.mem_cons, List.not_mem_nil, or_false, Prod.mk.injEq] at hp
  obtain ⟨rfl, rfl⟩ | ⟨rfl, rfl⟩ | ⟨rfl, rfl⟩ := hp
  · exact ⟨configure_of_class (k := .standard) rfl s, configure_configure (k := .standard) rfl s⟩
  · exact ⟨configure_of_class (k := .fast) rfl s, configure_configure (k := .fast) rfl s⟩
  · exact ⟨configure_of_class (k := .low) rfl s, configure_configure (k := .low) rfl s⟩

/-- Settles O38: each update of `shutdown` is evaluated. -/
theorem shutdownOutcome : Obligations.ShutdownOutcome :=
  fun s => ⟨rfl, rfl, rfl, rfl, rfl, by simp [emit, setI2c]⟩

/-! ### One byte on the wire (R64, R66, R68) -/

section

variable {s : State} {c : I2cConfig} {k : Nat}

theorem byteAccepted_iff {p : Phase} : byteAccepted p = true ↔ p = .dataRAcked ∨ p = .dataRNacked := by
  simp [byteAccepted]

theorem readByte_accepted (nack : Bool) (hc : s.i2c = some c) (hk : k < s.budget c) (done : s.flagDone 0 k)
    (accepted : byteAccepted (s.phaseAt 0) = true) :
    readByte nack s = .ok (some (s.dataAt 0), { s.phyTook (k + 1) 1 1 with
      latches := { s.latches with polls := k, st := .ok }
      trace := s.trace ++ (s.pc, .phyRxGo (!nack)) :: (pollDoneTrace s.pc k ++
        [(s.pc, .phyPhase (s.phaseAt 0)), (s.pc, .phyData (s.dataAt 0))]) }) := by
  simp only [readByte, pollFlag_done (s := phyRxGo (!nack) s) hc hk done, phyPhase_eq,
    Answers.skip_zero]
  refine (if_pos accepted).trans ?_
  simp [phyData_eq, phyRxGo, emit, setSt, setPhases, setData]

theorem readByte_notAccepted (nack : Bool) (hc : s.i2c = some c) (hk : k < s.budget c)
    (done : s.flagDone 0 k) (notAccepted : ¬ byteAccepted (s.phaseAt 0) = true) :
    readByte nack s = .ok (none, { s.phyTook (k + 1) 1 0 with
      latches := { s.latches with polls := k, st := .unexpectedState }
      trace := s.trace ++ (s.pc, .phyRxGo (!nack)) :: (pollDoneTrace s.pc k ++
        [(s.pc, .phyPhase (s.phaseAt 0))]) }) := by
  simp only [readByte, pollFlag_done (s := phyRxGo (!nack) s) hc hk done, phyPhase_eq,
    Answers.skip_zero]
  refine (if_neg notAccepted).trans ?_
  simp [phyRxGo, emit, setSt, setPhases]

theorem readByte_expired (nack : Bool) (hc : s.i2c = some c) (expired : s.flagExpires 0 (s.budget c)) :
    readByte nack s = .ok (none, { s.phyTook (s.budget c) 0 0 with
      latches := { s.latches with polls := s.budget c, st := .timeout }
      trace := s.trace ++ (s.pc, .phyRxGo (!nack)) :: pollExpiredTrace s.pc (s.budget c) }) := by
  simp only [readByte, pollFlag_expired (s := phyRxGo (!nack) s) hc expired]
  simp [phyRxGo, emit, setSt]

/-- Settles O39: the three outcomes of `readByte`, each by its own rule. -/
theorem readByteOutcome : Obligations.ReadByteOutcome := fun _ _ nack hc =>
  ⟨fun _ hk done accepted => readByte_accepted nack hc hk done (byteAccepted_iff.mpr accepted),
    fun _ hk done refused => readByte_notAccepted nack hc hk done (refused ∘ byteAccepted_iff.mp),
    readByte_expired nack hc⟩

theorem sendByte_done (b : Byte) (hc : s.i2c = some c) (hk : k < s.budget c) (done : s.flagDone 0 k) :
    sendByte b s = .ok (some (s.phaseAt 0), { s.phyTook (k + 1) 1 0 with
      latches := { s.latches with polls := k }
      trace := s.trace ++ (s.pc, .phyLoad b) :: (s.pc, .phyTxGo) :: (pollDoneTrace s.pc k ++
        [(s.pc, .phyPhase (s.phaseAt 0))]) }) := by
  simp only [sendByte, pollFlag_done (s := phyTxGo (phyLoad b s)) hc hk done, phyPhase_eq]
  simp [phyTxGo, phyLoad, emit, setPhases]

theorem sendByte_expired (b : Byte) (hc : s.i2c = some c) (expired : s.flagExpires 0 (s.budget c)) :
    sendByte b s = .ok (none, { s.phyTook (s.budget c) 0 0 with
      latches := { s.latches with polls := s.budget c, st := .timeout }
      trace := s.trace ++ (s.pc, .phyLoad b) :: (s.pc, .phyTxGo) :: pollExpiredTrace s.pc (s.budget c) }) := by
  simp only [sendByte, pollFlag_expired (s := phyTxGo (phyLoad b s)) hc expired]
  simp [phyTxGo, phyLoad, emit, setSt]

/-- Settles O40: the byte sent is the address with the read bit, and the phase it completes in gives the
status. -/
theorem sendAddressReadOutcome : Obligations.SendAddressReadOutcome := by
  intro s c address hc
  refine ⟨fun k hk done => ?_, fun expired => ?_⟩
  · simp only [sendAddressRead, sendByte_done (addressByte address true) hc hk done]
    rfl
  · simp only [sendAddressRead, sendByte_expired (addressByte address true) hc expired]
    rfl

/-! ### START (R61, R62) -/

theorem startAccepted_iff {p : Phase} : startAccepted p = true ↔ p = .startSent ∨ p = .repStartSent := by
  simp [startAccepted]

theorem startAndPoll_done (hc : s.i2c = some c) (hk : k < s.budget c) (done : s.flagDone 0 k) :
    startAndPoll s = .ok { s.phyTook (k + 1) 1 0 with
      latches := { s.latches with
        polls := k, st := if startAccepted (s.phaseAt 0) then .ok else .unexpectedState }
      trace := s.trace ++ (s.pc, .phyStart) :: (pollDoneTrace s.pc k ++
        [(s.pc, .phyPhase (s.phaseAt 0))]) } := by
  simp only [startAndPoll, pollFlag_done (s := phyStart s) hc hk done, phyPhase_eq]
  simp [phyStart, emit, setSt, setPhases]

theorem startAndPoll_expired (hc : s.i2c = some c) (expired : s.flagExpires 0 (s.budget c)) :
    startAndPoll s = .ok { s.phyTook (s.budget c) 0 0 with
      latches := { s.latches with polls := s.budget c, st := .timeout }
      trace := s.trace ++ (s.pc, .phyStart) :: pollExpiredTrace s.pc (s.budget c) } := by
  simp only [startAndPoll, pollFlag_expired (s := phyStart s) hc expired]
  simp [phyStart, emit, setSt]

/-- START is OK exactly if the flag is seen set within the budget and the phase then is an accepted one. -/
theorem startAndPoll_st_eq_ok_iff {t : State} (hc : s.i2c = some c) (h : startAndPoll s = .ok t) :
    t.latches.st = .ok ↔
      (∃ k, k < s.budget c ∧ s.flagDone 0 k) ∧ startAccepted (s.phaseAt 0) = true := by
  rcases flag_cases s (s.budget c) with ⟨k, hk, done⟩ | expired
  · obtain rfl := Except.ok.inj ((startAndPoll_done hc hk done).symm.trans h)
    have seen : ∃ k, k < s.budget c ∧ s.flagDone 0 k := ⟨k, hk, done⟩
    by_cases accepted : startAccepted (s.phaseAt 0) = true
    · simp only [accepted, if_true, seen, and_true]
    · simp [accepted]
  · obtain rfl := Except.ok.inj ((startAndPoll_expired hc expired).symm.trans h)
    have unseen : ¬ ∃ k, k < s.budget c ∧ s.flagDone 0 k :=
      fun ⟨k, hk, done⟩ => flagDone_not_flagExpires done hk expired
    simp only [unseen, false_and, reduceCtorEq]

/-- On a bus that is not wedged `sendStart` is START after one phase read (R62). -/
theorem sendStart_notWedged (notWedged : s.phaseAt 0 ≠ .idleError) :
    sendStart s = startAndPoll (phyPhase s).2 := by
  rw [sendStart, phyPhase_eq]
  exact if_neg notWedged

theorem sendStart_accepted (hc : s.i2c = some c) (notWedged : s.phaseAt 0 ≠ .idleError)
    (hk : k < s.budget c) (done : s.flagDone 0 k) (accepted : startAccepted (s.phaseAt 1) = true) :
    sendStart s = .ok { s.phyTook (k + 1) 2 0 with
      latches := { s.latches with polls := k, st := .ok }
      trace := s.trace ++ (s.pc, .phyPhase (s.phaseAt 0)) :: (s.pc, .phyStart) :: (pollDoneTrace s.pc k ++
        [(s.pc, .phyPhase (s.phaseAt 1))]) } := by
  have phase : (phyPhase s).2.phaseAt 0 = s.phaseAt 1 := by simp [phyPhase_eq, phaseAt]
  rw [sendStart_notWedged notWedged, startAndPoll_done (s := (phyPhase s).2) hc hk done,
    phase]
  simp [accepted, emit, setPhases, phyPhase_eq]

end

end Sys2Proof.Machine
end

section
/-! PROOFS. The composed read of the I2C engine (spec/40_i2c_engine.md, R65 to R67): runs of bytes that complete and
are accepted, and the two phases of `requestFrom`. -/

namespace Sys2Proof.Machine

open Sys2Proof State

theorem Memory.writeRun_append (m : Memory) (a : Nat) (u v : List Byte) :
    m.writeRun a (u ++ v) = (m.writeRun a u).writeRun (a + u.length) v := by
  induction u generalizing m a with
  | nil => rfl
  | cons x u ih => simpa [Memory.writeRun, Nat.add_assoc, Nat.add_comm 1] using ih (m.write a x) (a + 1)

/-! ### Runs of bytes: what they take and add to the trace -/

section

variable (s : State) (p : Pc) (w : Nat → Nat) (m : Nat)

theorem flagsBefore_succ : flagsBefore w (m + 1) = flagsBefore w m + (w m + 1) := by
  simp [flagsBefore, List.range_succ]

theorem bytesSentTrace_succ (bs : List Byte) (ph : Nat) : bytesSentTrace s p bs ph w (m + 1) =
    bytesSentTrace s p bs ph w m ++ byteSentTrace s p bs ph w m := by
  simp [bytesSentTrace, List.range_succ]

theorem bytesReadTrace_succ (nackLast : Bool) (count ph : Nat) :
    bytesReadTrace s p nackLast count ph w (m + 1) =
      bytesReadTrace s p nackLast count ph w m ++ byteReadTrace s p nackLast count ph w m := by
  simp [bytesReadTrace, List.range_succ]

/-- Each of `m` bytes in a row is seen to complete within the budget, byte `j` after `w j` reads that saw
nothing. -/
abbrev State.bytesComplete (s : State) (c : I2cConfig) (w : Nat → Nat) (m : Nat) : Prop :=
  ∀ j < m, w j < s.budget c ∧ s.flagDone (flagsBefore w j) (w j)

end

section

variable {s : State} {c : I2cConfig} {w : Nat → Nat}

theorem flagAt_of_skip {u : State} {n : Nat} (hu : u.env.flags = s.env.flags.skip n) (k : Nat) :
    u.flagAt k = s.flagAt (n + k) := by
  simp [flagAt, hu]

/-- When a run has read the flag for the bytes before `j`, the next answers are those for byte `j`. -/
theorem flagDone_of_skip {u : State} {n k : Nat} (h : s.flagDone n k)
    (hu : u.env.flags = s.env.flags.skip n) : u.flagDone 0 k := by
  have same (j : Nat) : u.flagAt (0 + j) = s.flagAt (n + j) := by
    rw [flagAt_of_skip hu, Nat.zero_add]
  exact ⟨(same k).trans h.1, fun j hj => (same j).trans (h.2 j hj)⟩

theorem phaseAt_of_skip {u : State} {n : Nat} (hu : u.env.phases = s.env.phases.skip n) (k : Nat) :
    u.phaseAt k = s.phaseAt (n + k) := by
  simp [phaseAt, hu]

theorem dataAt_of_skip {u : State} {n : Nat} (hu : u.env.data = s.env.data.skip n) (k : Nat) :
    u.dataAt k = s.dataAt (n + k) := by
  simp [dataAt, hu]

/-! ### Sending a run (R66) -/

theorem writeLoop_step {n k idx : Nat} {v : Byte} (hc : s.i2c = some c) (hk : k < s.budget c)
    (done : s.flagDone 0 k) (stored : bufLoad idx s = .ok v) (acked : writeAcked (s.phaseAt 0) = true) :
    writeLoop (n + 1) idx s = writeLoop n (idx + 1)
      { s.phyTook (k + 1) 1 0 with
        latches := { s.latches with idx := idx, polls := k }
        trace := s.trace ++ (s.pc, .phyLoad v) :: (s.pc, .phyTxGo) :: (pollDoneTrace s.pc k ++
          [(s.pc, .phyPhase (s.phaseAt 0))]) } := by
  simp only [writeLoop, stored, sendByte_done (s := s.setIdx idx) v hc hk done]
  exact if_pos acked

/-- While at least `m` bytes are left to send and they are acknowledged, `writeLoop` sends them and goes on. -/
theorem writeLoop_acked {bs : List Byte} {idx : Nat} (hc : s.i2c = some c) (m n : Nat)
    (complete : s.bytesComplete c w m) (acked : ∀ j < m, writeAcked (s.phaseAt j) = true)
    (stored : ∀ j < m, bufLoad (idx + j) s = .ok (bs.getD j 0)) :
    ∃ i p, writeLoop (m + n) idx s = writeLoop n (idx + m)
      { s.phyTook (flagsBefore w m) m 0 with
        latches := { s.latches with idx := i, polls := p }
        trace := s.trace ++ bytesSentTrace s s.pc bs 0 w m } := by
  induction m generalizing n with
  | zero => exact ⟨s.latches.idx, s.latches.polls, by simp [bytesSentTrace, flagsBefore]⟩
  | succ m ih =>
    obtain ⟨i, p, sent⟩ := ih (n + 1) (fun j hj => complete j (by omega)) (fun j hj => acked j (by omega))
      (fun j hj => stored j (by omega))
    obtain ⟨hk, done⟩ := complete m (by omega)
    refine ⟨idx + m, w m, ?_⟩
    rw [Nat.add_right_comm, Nat.add_assoc, sent]
    refine (writeLoop_step (by exact hc) (by exact hk) (by exact flagDone_of_skip done rfl)
      (by exact stored m (by omega)) ?_).trans ?_
    · rw [phaseAt_of_skip (s := s) rfl]
      exact acked m (by omega)
    · rw [phaseAt_of_skip (s := s) rfl, flagsBefore_succ]
      simp [bytesSentTrace_succ, byteSentTrace, Nat.add_assoc, Nat.add_left_comm]

/-! ### Receiving a run (R65, R67) -/

theorem requestLoop_step {n k idx : Nat} (hc : s.i2c = some c) (hk : k < s.budget c)
    (done : s.flagDone 0 k) (accepted : byteAccepted (s.phaseAt 0) = true) (fits : idx < s.params.bufCap) :
    requestLoop (n + 1) idx s = requestLoop n (idx + 1)
      { s.phyTook (k + 1) 1 1 with
        latches := { s.latches with idx := idx, polls := k, st := .ok }
        buf := s.buf.writeRun idx [s.dataAt 0]
        trace := s.trace ++ (s.pc, .phyRxGo (!decide (n = 0))) :: (pollDoneTrace s.pc k ++
          [(s.pc, .phyPhase (s.phaseAt 0)), (s.pc, .phyData (s.dataAt 0))]) } := by
  simp only [requestLoop, readByte_accepted (s := s.setIdx idx) (n == 0) hc hk done accepted, bufStore]
  rw [memWrite_eq (by simpa using fits)]
  rfl

/-- While at least `m` bytes are left to ask for and they are accepted, `requestLoop` stores them and goes on. -/
theorem requestLoop_accepted {idx : Nat} (hc : s.i2c = some c) (m n : Nat)
    (complete : s.bytesComplete c w m) (accepted : ∀ j < m, byteAccepted (s.phaseAt j) = true)
    (fits : idx + m ≤ s.params.bufCap) :
    ∃ l, requestLoop (m + n) idx s = requestLoop n (idx + m)
      { s.phyTook (flagsBefore w m) m m with
        latches := l
        buf := s.buf.writeRun idx ((List.range m).map s.dataAt)
        trace := s.trace ++ bytesReadTrace s s.pc true (m + n) 0 w m } := by
  induction m generalizing n with
  | zero => exact ⟨s.latches, by simp [bytesReadTrace, flagsBefore, Memory.writeRun]⟩
  | succ m ih =>
    obtain ⟨l, read⟩ := ih (n + 1) (fun j hj => complete j (by omega)) (fun j hj => accepted j (by omega))
      (by omega)
    obtain ⟨hk, done⟩ := complete m (by omega)
    refine ⟨{ l with idx := idx + m, polls := w m, st := .ok }, ?_⟩
    rw [Nat.add_right_comm, Nat.add_assoc, read]
    refine (requestLoop_step (by exact hc) (by exact hk) (by exact flagDone_of_skip done rfl) ?_
      (by exact fits)).trans ?_
    · rw [phaseAt_of_skip (s := s) rfl]
      exact accepted m (by omega)
    · rw [phaseAt_of_skip (s := s) rfl, dataAt_of_skip (s := s) rfl, flagsBefore_succ]
      simp [bytesReadTrace_succ, byteReadTrace, List.range_succ, Memory.writeRun_append, Nat.add_assoc,
        Nat.add_left_comm]

/-! ### Runs that complete at once -/

theorem flagDone_zero {n : Nat} (h : s.flagAt n = true) : s.flagDone n 0 :=
  ⟨h, fun _ hj => absurd hj (Nat.not_lt_zero _)⟩

/-- A flag that every read sees set completes each byte at its first read. -/
theorem bytesComplete_zero {m : Nat} (hb : 0 < s.budget c) (flags : ∀ j < m, s.flagAt j = true) :
    s.bytesComplete c (fun _ => 0) m := fun j hj =>
  ⟨hb, flagDone_zero (by simpa using flags j hj)⟩

/-- The trace of a run in a state that has taken `n` phase answers already. -/
theorem bytesReadTrace_of_skip {u : State} {n : Nat} (phases : u.env.phases = s.env.phases.skip n)
    (data : u.env.data = s.env.data) (p : Pc) (nackLast : Bool) (count m : Nat) :
    bytesReadTrace u p nackLast count 0 w m = bytesReadTrace s p nackLast count n w m := by
  have byte (j : Nat) : byteReadTrace u p nackLast count 0 w j = byteReadTrace s p nackLast count n w j := by
    simp [byteReadTrace, phaseAt, dataAt, phases, data, Nat.add_comm]
  rw [bytesReadTrace, bytesReadTrace, funext byte]

theorem bytesSentTrace_of_skip {u : State} {n : Nat} (phases : u.env.phases = s.env.phases.skip n)
    (p : Pc) (bs : List Byte) (m : Nat) :
    bytesSentTrace u p bs 0 w m = bytesSentTrace s p bs n w m := by
  have byte (j : Nat) : byteSentTrace u p bs 0 w j = byteSentTrace s p bs n w j := by
    simp [byteSentTrace, phaseAt, phases, Nat.add_comm]
  rw [bytesSentTrace, bytesSentTrace, funext byte]

/-! ### The read phase of `requestFrom` (R67) -/

/-- A loop whose bytes are all accepted reads and stores every one of them. -/
theorem requestLoop_allAccepted {q : Nat} (hc : s.i2c = some c) (complete : s.bytesComplete c w q)
    (accepted : ∀ j < q, byteAccepted (s.phaseAt j) = true) (fits : q ≤ s.params.bufCap) :
    ∃ l, requestLoop q 0 s = .ok (q, { s.phyTook (flagsBefore w q) q q with
      latches := l
      buf := s.buf.writeRun 0 ((List.range q).map s.dataAt)
      trace := s.trace ++ bytesReadTrace s s.pc true q 0 w q }) := by
  obtain ⟨l, read⟩ := requestLoop_accepted hc q 0 complete accepted (by rwa [Nat.zero_add])
  rw [Nat.add_zero, Nat.zero_add] at read
  exact ⟨l, read⟩

/-- The state in which a device answers its read address, when START and the address byte complete at once. -/
def State.addressed (s : State) (address : BitVec 7) : State :=
  { s.phyTook 2 3 0 with
    latches := { s.latches with polls := 0, st := .ok }
    trace := s.trace ++ [(s.pc, .phyPhase (s.phaseAt 0)), (s.pc, .phyStart), (s.pc, .phyFlag true),
      (s.pc, .phyPhase (s.phaseAt 1)), (s.pc, .phyLoad (BitVec.ofNat 8 (address.toNat * 2 + 1))),
      (s.pc, .phyTxGo), (s.pc, .phyFlag true), (s.pc, .phyPhase .addrRAcked)] }

theorem sendAddressRead_addressed {address : BitVec 7} (hc : s.i2c = some c) (hb : 0 < s.budget c)
    (notWedged : s.phaseAt 0 ≠ .idleError) (started : startAccepted (s.phaseAt 1) = true)
    (acked : s.phaseAt 2 = .addrRAcked) (flags : ∀ j < 2, s.flagAt j = true) :
    ∃ s1, sendStart s = .ok s1 ∧ s1.latches.st = .ok ∧
      sendAddressRead address s1 = .ok (s.addressed address) := by
  refine ⟨_, sendStart_accepted hc notWedged hb (flagDone_zero (flags 0 (by omega))) started, rfl, ?_⟩
  rw [(sendAddressReadOutcome _ c address (by exact hc)).1 0 (by exact hb)
    (by exact flagDone_of_skip (flagDone_zero (flags 1 (by omega))) rfl)]
  have acked' : s.env.phases.peek Config.freePhase 2 = .addrRAcked := acked
  simp [State.addressed, phaseAt, acked']

theorem requestReadPhase_done {address : BitVec 7} {q n : Nat} {stop : Bool} {s1 s2 s3 : State}
    (started : sendStart s = .ok s1) (startOk : s1.latches.st = .ok)
    (addressed : sendAddressRead address s1 = .ok s2) (addressOk : s2.latches.st = .ok)
    (read : requestLoop q 0 s2 = .ok (n, s3)) :
    requestReadPhase address q stop s =
      .ok (n, if n = q && stop then sendStop (s3.setRxCur n) else s3.setRxCur n) := by
  simp only [requestReadPhase, started, startOk, addressed, addressOk, read, if_true]

/-- When every answer is favourable the read phase reads and stores all bytes, then sends the STOP asked for. -/
theorem requestReadPhase_allAccepted (address : BitVec 7) {q : Nat} (stop : Bool) (hc : s.i2c = some c)
    (hb : 0 < s.budget c) (fits : q ≤ s.params.bufCap) (notWedged : s.phaseAt 0 ≠ .idleError)
    (started : startAccepted (s.phaseAt 1) = true) (acked : s.phaseAt 2 = .addrRAcked)
    (accepted : ∀ j < q, byteAccepted (s.phaseAt (j + 3)) = true) (flags : ∀ j < q + 2, s.flagAt j = true) :
    ∃ l, requestReadPhase address q stop s = .ok (q, { s.phyTook (q + 2) (q + 3) q with
      latches := l, buf := s.buf.writeRun 0 ((List.range q).map s.dataAt), rxCur := q
      trace := s.trace ++ (s.pc, .phyPhase (s.phaseAt 0)) :: (s.pc, .phyStart) ::
        (s.pc, .phyFlag true) :: (s.pc, .phyPhase (s.phaseAt 1)) ::
        (s.pc, .phyLoad (BitVec.ofNat 8 (address.toNat * 2 + 1))) :: (s.pc, .phyTxGo) ::
        (s.pc, .phyFlag true) :: (s.pc, .phyPhase .addrRAcked) ::
        (bytesReadTrace s s.pc true q 3 (fun _ => 0) q ++ (if stop then [(s.pc, .phyStop)] else [])) }) := by
  obtain ⟨s1, start, startOk, addressed⟩ := sendAddressRead_addressed (address := address) hc hb notWedged
    started acked fun j hj => flags j (by omega)
  have complete : (s.addressed address).bytesComplete c (fun _ => 0) q :=
    bytesComplete_zero hb fun j hj => by
      rw [flagAt_of_skip (s := s) (n := 2) rfl]
      exact flags (2 + j) (by omega)
  have accepted' : ∀ j < q, byteAccepted ((s.addressed address).phaseAt j) = true := fun j hj => by
    rw [phaseAt_of_skip (s := s) (n := 3) rfl, Nat.add_comm]
    exact accepted j hj
  have data (j : Nat) : (s.addressed address).dataAt j = s.dataAt j := by
    simp [State.addressed, dataAt]
  obtain ⟨l, read⟩ := requestLoop_allAccepted (s := s.addressed address) hc complete accepted' fits
  rw [bytesReadTrace_of_skip (s := s) (n := 3) rfl (Answers.skip_zero _), funext data] at read
  have done := requestReadPhase_done (stop := stop) start startOk addressed rfl read
  cases stop
  · exact ⟨l, done.trans (by simp [State.addressed, setRxCur, Nat.add_comm])⟩
  · exact ⟨{ l with st := .ok }, done.trans (by simp [State.addressed, setRxCur, emit, setSt, Nat.add_comm])⟩

/-- Settles O41: the read phase with the quantity clamped to the capacity. -/
theorem requestFromClampsQuantity : Obligations.RequestFromClampsQuantity := by
  intro s c address quantity iaddr stop hc timeout q notWedged started acked accepted flags
  obtain ⟨l, read⟩ := requestReadPhase_allAccepted address stop hc (budget_pos timeout)
    (Nat.min_le_right quantity _) notWedged (startAccepted_iff.mpr started) acked
    (fun j hj => byteAccepted_iff.mpr (accepted j hj)) flags
  refine ⟨_, l, read, rfl, fun j hj => ?_, fun a ha => ?_⟩
  · have stored := Memory.read_writeRun_inside ((List.range q).map s.dataAt) s.buf 0 j (by simpa using hj)
    simpa using stored
  · exact Memory.read_writeRun_outside _ _ (.inr (by rwa [List.length_map, List.length_range, Nat.zero_add]))

/-! ### The write phase of `requestFrom` (R67) -/

theorem writeAcked_iff {p : Phase} : writeAcked p = true ↔ p = .addrWAcked ∨ p = .dataWAcked := by
  simp [writeAcked]

theorem bufLoad_written {i : Nat} {v : Byte} (h : s.buf.read i = some v) (hi : i < s.params.bufCap) :
    bufLoad i s = .ok v := by
  rw [bufLoad, if_pos hi, bufAt_written h]

/-- A run that stands in the buffer and is acknowledged byte by byte is sent whole (R66). -/
theorem writeData_allAcked {bs : List Byte} (hc : s.i2c = some c) (complete : s.bytesComplete c w bs.length)
    (acked : ∀ j < bs.length, writeAcked (s.phaseAt j) = true) (fits : bs.length ≤ s.params.bufCap)
    (stored : ∀ j, (h : j < bs.length) → s.buf.read j = some bs[j]) :
    ∃ i p, writeData bs.length s = .ok { s.phyTook (flagsBefore w bs.length) bs.length 0 with
      latches := { s.latches with idx := i, polls := p, st := .ok }
      trace := s.trace ++ bytesSentTrace s s.pc bs 0 w bs.length } := by
  have loaded : ∀ j < bs.length, bufLoad (0 + j) s = .ok (bs.getD j 0) := fun j hj => by
    rw [Nat.zero_add, List.getD_eq_getElem _ _ hj]
    exact bufLoad_written (stored j hj) (by omega)
  obtain ⟨i, p, sent⟩ := writeLoop_acked hc bs.length 0 complete acked loaded
  exact ⟨i, p, sent⟩

/-- The bytes of the write phase: the address with the write bit, then the internal address. -/
theorem writePhase_bytes (address : BitVec 7) (iaddr : BitVec 24) (isz : Nat) :
    addressByte address false :: iaddrBytes iaddr isz = BitVec.ofNat 8 (address.toNat * 2) ::
      (List.range isz).map fun j => BitVec.ofNat 8 (iaddr.toNat / 256 ^ (isz - (j + 1)) % 256) := by
  have low (n : Nat) : BitVec.ofNat 8 (n % 256) = BitVec.ofNat 8 n := BitVec.eq_of_toNat_eq (by simp)
  simp only [addressByte, iaddrBytes, low]
  rfl

/-- The state in which the write phase sends its bytes, when START completes at once. -/
def State.writeReady (s : State) (bs : List Byte) : State :=
  { s.phyTook 1 2 0 with
    latches := { s.latches with polls := 0, st := .ok }
    buf := s.buf.writeRun 0 bs
    txCur := bs.length
    trace := s.trace ++ [(s.pc, .phyPhase (s.phaseAt 0)), (s.pc, .phyStart), (s.pc, .phyFlag true),
      (s.pc, .phyPhase (s.phaseAt 1))] }

theorem requestWritePhase_started {address : BitVec 7} {iaddr : BitVec 24} {isize : Nat} {bs : List Byte}
    (hc : s.i2c = some c) (hb : 0 < s.budget c) (notWedged : s.phaseAt 0 ≠ .idleError)
    (started : startAccepted (s.phaseAt 1) = true) (flags : s.flagAt 0 = true)
    (bytes : addressByte address false :: iaddrBytes iaddr (min isize iaddrMax) = bs)
    (fits : bs.length ≤ s.params.bufCap) :
    requestWritePhase address iaddr isize s = writeData bs.length (s.writeReady bs) := by
  have start := sendStart_accepted hc notWedged hb (flagDone_zero flags) started
  have count : bs.length = min isize iaddrMax + 1 := by simp [← bytes, iaddrBytes]
  simp only [requestWritePhase, start, if_true, bytes, ← count]
  rw [memWrite_eq (by rwa [Nat.zero_add])]
  rfl

/-- Settles O43: after START the bytes are stored from index 0 and sent as a run that is acknowledged. -/
theorem requestFromWritePhaseBytes : Obligations.RequestFromWritePhaseBytes := by
  intro s c address iaddr isize hc timeout _ isz bytes notWedged started acked flags
  have hb : 0 < s.budget c := budget_pos timeout
  have count : bytes.length = isz + 1 := by simp [bytes]
  have fits : bytes.length ≤ s.params.bufCap := by
    have : isz ≤ 3 := Nat.min_le_right _ _
    have := s.params.bufCap_ge
    omega
  have stored (j : Nat) (h : j < bytes.length) : (s.buf.writeRun 0 bytes).read j = some bytes[j] := by
    simpa using Memory.read_writeRun_inside bytes s.buf 0 j h
  have complete : (s.writeReady bytes).bytesComplete c (fun _ => 0) bytes.length :=
    bytesComplete_zero hb fun j hj => by
      rw [flagAt_of_skip (s := s) (n := 1) rfl]
      exact flags (1 + j) (by omega)
  have acked' : ∀ j < bytes.length, writeAcked ((s.writeReady bytes).phaseAt j) = true := fun j hj => by
    rw [phaseAt_of_skip (s := s) (n := 2) rfl, Nat.add_comm]
    exact writeAcked_iff.mpr (acked j (by omega))
  obtain ⟨i, p, sent⟩ := writeData_allAcked (s := s.writeReady bytes) hc complete acked' fits stored
  rw [bytesSentTrace_of_skip (s := s) (n := 2) rfl, ← requestWritePhase_started (isize := isize) hc hb notWedged
    (startAccepted_iff.mpr started) (flags 0 (by omega)) (writePhase_bytes address iaddr isz) fits] at sent
  refine ⟨_, { s.latches with idx := i, polls := p, st := .ok }, sent, rfl, ?_, stored, fun a ha => ?_⟩
  · simp [State.writeReady, count, Nat.add_comm 1, Nat.add_comm 2]
  · exact Memory.read_writeRun_outside bytes s.buf (.inr (by omega))

end

end Sys2Proof.Machine
end

section
/-! PROOFS. The composed read of the I2C engine for every answer of the PHY (spec/40_i2c_engine.md, R67, R69): what
`requestFrom` issues and what its count counts. -/

namespace Sys2Proof.Machine

open Sys2Proof State

section

variable {s t u : State} {c : I2cConfig}

theorem sendAddressRead_requestRan (address : BitVec 7) (hc : s.i2c = some c) :
    ∃ t new, sendAddressRead address s = .ok t ∧ RequestRan s t new 0 := by
  obtain ⟨r, t, new, sent, ran, -⟩ := sendByte_requestRan (addressByte address true) hc
  simp only [sendAddressRead, sent]
  cases r with
  | none => exact ⟨t, new, rfl, ran⟩
  | some p => exact ⟨_, new, rfl, ran.setSt _⟩

theorem requestWritePhase_requestRan (address : BitVec 7) (iaddr : BitVec 24) (isize : Nat)
    (hc : s.i2c = some c) (legal : c.legal = true) :
    ∃ t new, requestWritePhase address iaddr isize s = .ok t ∧ RequestRan s t new 0 := by
  obtain ⟨s1, new, start, ran, -⟩ := sendStart_requestRan hc legal
  simp only [requestWritePhase, start]
  split
  · let bs := addressByte address false :: iaddrBytes iaddr (min isize iaddrMax)
    have count : bs.length = min isize iaddrMax + 1 := by simp [bs, iaddrBytes]
    have fits : 0 + bs.length ≤ s1.params.bufCap := by
      have few : min isize iaddrMax ≤ 3 := Nat.min_le_right _ _
      have room := s1.params.bufCap_ge
      omega
    have ready : RequestRan s ((s1.setBuf (s1.buf.writeRun 0 bs)).setTxCur (min isize iaddrMax + 1)) new 0 :=
      ran.congr rfl rfl rfl rfl rfl rfl rfl
    obtain ⟨t, new', sent, ran'⟩ := writeLoop_requestRan (min isize iaddrMax + 1) 0
      ((s1.setBuf (s1.buf.writeRun 0 bs)).setTxCur (min isize iaddrMax + 1)) (ready.i2c.trans hc)
      (by rw [← count]; exact fits) (fun j _ hj => by
        have stored := Memory.read_writeRun_inside bs s1.buf 0 j (by omega)
        rw [Nat.zero_add] at stored
        exact Option.isSome_of_eq_some stored)
    rw [memWrite_eq fits]
    exact ⟨t, _, sent, ready.trans ran'⟩
  · exact ⟨s1, new, rfl, ran⟩

theorem dataReads_append (a b : List Entry) : dataReads (a ++ b) = dataReads a + dataReads b :=
  List.countP_append

/-- From `s` to `t` a composed read of up to `q` bytes retrieved `n`: so many reads of the data register were
issued, a STOP only if none of the bytes is missing, and configurations, parameters and dispatcher state are as
they were. -/
structure Retrieved (s t : State) (new : List Entry) (q n : Nat) : Prop where
  trace : t.trace = s.trace ++ new
  count : n ≤ q
  reads : n = dataReads new
  stop : n < q → (s.pc, Event.phyStop) ∉ new
  i2c : t.i2c = s.i2c
  spi : t.spi = s.spi
  params : t.params = s.params
  pc : t.pc = s.pc

theorem RequestRan.no_stop {new : List Entry} {n : Nat} (h : RequestRan s t new n) (p : Pc) :
    (p, Event.phyStop) ∉ new := fun mem => by
  obtain ⟨-, -, -, stop⟩ := h.ops _ mem
  exact stop rfl

theorem RequestRan.retrieved {new : List Entry} {q n : Nat} (h : RequestRan s t new n) (hn : n ≤ q) :
    Retrieved s t new q n :=
  ⟨h.trace, hn, h.reads.symm, fun _ => h.no_stop s.pc, h.i2c, h.spi, h.params, h.pc⟩

/-- A STOP after all the bytes. -/
theorem RequestRan.retrieved_stop {new : List Entry} {q : Nat} (h : RequestRan s t new q) :
    Retrieved s (sendStop t) (new ++ [(t.pc, .phyStop)]) q q where
  trace := by simp [h.trace]
  count := le_rfl
  reads := by
    rw [dataReads_append, h.reads]
    rfl
  stop hlt := absurd hlt (Nat.lt_irrefl q)
  i2c := h.i2c
  spi := h.spi
  params := h.params
  pc := h.pc

/-- What comes before a composed read, if it reads no data, belongs to it. -/
theorem RequestRan.trans_retrieved {new new' : List Entry} {q n : Nat} (h : RequestRan s t new 0)
    (h' : Retrieved t u new' q n) : Retrieved s u (new ++ new') q n where
  trace := by rw [h'.trace, h.trace, List.append_assoc]
  count := h'.count
  reads := by rw [dataReads_append, h.reads, Nat.zero_add, ← h'.reads]
  stop hlt mem := (List.mem_append.mp mem).elim (h.no_stop s.pc) (h.pc ▸ h'.stop hlt)
  i2c := h'.i2c.trans h.i2c
  spi := h'.spi.trans h.spi
  params := h'.params.trans h.params
  pc := h'.pc.trans h.pc

theorem requestReadPhase_retrieved (address : BitVec 7) {q : Nat} (stop : Bool) (hc : s.i2c = some c)
    (legal : c.legal = true) (fits : q ≤ s.params.bufCap) :
    ∃ n t new, requestReadPhase address q stop s = .ok (n, t) ∧ Retrieved s t new q n := by
  obtain ⟨s1, new1, start, ran1, -⟩ := sendStart_requestRan hc legal
  by_cases startOk : s1.latches.st = .ok
  case neg =>
    exact ⟨0, s1, new1, by simp only [requestReadPhase, start, startOk, if_false],
      ran1.retrieved (Nat.zero_le q)⟩
  obtain ⟨s2, new2, addressed, ran2⟩ := sendAddressRead_requestRan address (ran1.i2c.trans hc)
  have ran12 := ran1.trans ran2
  by_cases addressOk : s2.latches.st = .ok
  case neg =>
    exact ⟨0, s2, _, by simp only [requestReadPhase, start, startOk, addressed, addressOk, if_true, if_false],
      ran12.retrieved (Nat.zero_le q)⟩
  obtain ⟨n, s3, new3, read, ran3, hn⟩ := requestLoop_requestRan q 0 s2 (ran12.i2c.trans hc)
    (by rw [Nat.zero_add, ran12.params]; exact fits)
  rw [Nat.zero_add] at read
  have ran : RequestRan s (s3.setRxCur n) _ n :=
    (Nat.zero_add n ▸ ran12.trans ran3).congr rfl rfl rfl rfl rfl rfl rfl
  rw [requestReadPhase_done start startOk addressed addressOk read]
  split
  · next h =>
    obtain ⟨rfl, -⟩ : n = q ∧ stop = true := by simpa using h
    exact ⟨n, _, _, rfl, ran.retrieved_stop⟩
  · exact ⟨n, _, _, rfl, ran.retrieved hn⟩

/-- Settles O42: the write phase, when there is one, reads no data; the count is that of the read phase. -/
theorem requestFromCountsRetrieved : Obligations.RequestFromCountsRetrieved := by
  intro s c address quantity iaddr isize stop hc legal
  have outcome : ∃ n t new, requestFrom address quantity iaddr isize stop s = .ok (n, t) ∧
      Retrieved s t new (min quantity s.params.bufCap) n := by
    by_cases noWrite : isize = 0
    · simp only [requestFrom, noWrite, if_true]
      exact requestReadPhase_retrieved address stop hc legal (Nat.min_le_right _ _)
    · obtain ⟨s1, new, written, ran⟩ := requestWritePhase_requestRan address iaddr isize hc legal
      simp only [requestFrom, noWrite, if_false, written]
      split
      · obtain ⟨n, t, new', read, retrieved⟩ := requestReadPhase_retrieved address stop (ran.i2c.trans hc)
          legal (q := min quantity s.params.bufCap) (by rw [ran.params]; exact Nat.min_le_right _ _)
        exact ⟨n, t, _, read, ran.trans_retrieved retrieved⟩
      · exact ⟨0, s1, new, rfl, ran.retrieved (Nat.zero_le _)⟩
  obtain ⟨n, t, new, requested, h⟩ := outcome
  exact ⟨n, t, new, requested, h.trace, h.count, h.reads, h.stop, h.i2c, h.spi, h.params, h.pc⟩

end

end Sys2Proof.Machine
end

section
/-! PROOFS. What the commands do to the I2C bus (spec/40_i2c_engine.md, R59 to R62, R69, R71): the operations each
may issue, how often it reads the completion flag, and when `I2C_START` echoes. -/

namespace Sys2Proof.Machine

open Sys2Proof State

/-! ### The operations a command adds to the trace -/

/-- Where the operations that initialise or disable the bus hardware or end a transfer may come from: each from its
own command, and the initialisation from the recovery of a wedged bus too (R59, R60, R62, R69). -/
def MayIssue (i : Instr) (s : State) : Event → Prop
  | .phyOff => i = .i2cDeinit
  | .phyStop => i = .i2cStop
  | .phyInit _ => i = .i2cInit ∨ (i = .i2cStart ∧ s.phaseAt 0 = .idleError)
  | _ => True

/-- From `s` to `t` only operations that `P` allows were added to the trace, at most `b` flag reads among them. A
field that is left out is one that the trace of `t`, written out, shows. -/
structure Issued (P : Event → Prop) (s t : State) (b : Nat) : Prop where
  grew : s.trace <+: t.trace := by simp
  ops : ∀ e ∈ t.trace.drop s.trace.length, P e.2 := by simp [MayIssue]
  reads : flagReads (t.trace.drop s.trace.length) ≤ b := by simp [flagReads, Event.isFlagRead]

section

variable {P : Event → Prop} {s t u : State} {b b' : Nat} {c : I2cConfig}

theorem flagReads_append (x y : List Entry) : flagReads (x ++ y) = flagReads x + flagReads y :=
  List.countP_append

theorem issued_iff : Issued P s t b ↔
    ∃ new, t.trace = s.trace ++ new ∧ (∀ e ∈ new, P e.2) ∧ flagReads new ≤ b := by
  constructor
  · rintro ⟨⟨new, trace⟩, ops, reads⟩
    rw [← trace, List.drop_left] at ops reads
    exact ⟨new, trace.symm, ops, reads⟩
  · rintro ⟨new, trace, ops, reads⟩
    have added : t.trace.drop s.trace.length = new := by rw [trace, List.drop_left]
    exact ⟨⟨new, trace.symm⟩, added ▸ ops, added ▸ reads⟩

theorem Issued.trans (h : Issued P s t b) (h' : Issued P t u b') : Issued P s u (b + b') := by
  obtain ⟨new, trace, ops, reads⟩ := issued_iff.mp h
  obtain ⟨new', trace', ops', reads'⟩ := issued_iff.mp h'
  refine issued_iff.mpr ⟨new ++ new', by rw [trace', trace, List.append_assoc], fun e he => ?_, ?_⟩
  · exact (List.mem_append.mp he).elim (ops e) (ops' e)
  · rw [flagReads_append]
    exact Nat.add_le_add reads reads'

/-- A transfer initialises and disables nothing and sends no STOP, so every command may issue it. -/
theorem BusRan.issued {new : List Entry} (h : BusRan s t new b) {i : Instr} {s0 : State} :
    Issued (MayIssue i s0) s t b := by
  refine issued_iff.mpr ⟨new, h.trace, fun ⟨p, o⟩ he => ?_, h.reads⟩
  obtain ⟨-, -, off, stop, init⟩ := h.ops _ he
  cases o with
  | phyOff => exact absurd rfl off
  | phyStop => exact absurd rfl stop
  | phyInit hz => exact absurd rfl (init hz)
  | _ => trivial

/-! ### Each command -/

theorem execSpiInit_issued (h : exec .spiInit s = .next t) : Issued (MayIssue .spiInit s) s t 0 := by
  rcases execSpiInit_cases s with ⟨p, -, -, e⟩ | ⟨p, -, -, e⟩ | ⟨-, e⟩
  all_goals
    obtain rfl := Host.Outcome.next.inj (e.symm.trans h)
    exact {}

theorem execSpiRead_issued (h : exec .spiRead s = .next t) : Issued (MayIssue .spiRead s) s t 0 := by
  rcases execSpiRead_cases s with
    ⟨-, e⟩ | ⟨-, n, -, -, data, -, e⟩ | ⟨-, n, -, -, e⟩ | ⟨-, -, e⟩
  · cases e.symm.trans h
  all_goals
    obtain rfl := Host.Outcome.next.inj (e.symm.trans h)
    exact {}

theorem execSpiWrite_issued (h : exec .spiWrite s = .next t) : Issued (MayIssue .spiWrite s) s t 0 := by
  rcases execSpiWrite_cases s with
    ⟨-, e⟩ | ⟨-, n, bs, -, -, -, e⟩ | ⟨-, n, bs, -, -, -, e⟩ | ⟨-, n, -, -, e⟩ | ⟨-, -, e⟩
  · cases e.symm.trans h
  all_goals
    obtain rfl := Host.Outcome.next.inj (e.symm.trans h)
    exact {}

theorem linkTest_issued {i : Instr} {op : Byte} (h : linkTest op s = .next t) :
    Issued (MayIssue i s) s t 0 := by
  rcases linkTest_cases op s with ⟨-, e⟩ | ⟨a, b, -, -, e⟩ | ⟨bs, -, -, e⟩
  all_goals
    obtain rfl := Host.Outcome.next.inj (e.symm.trans h)
    exact {}

theorem execI2cInit_issued (h : exec .i2cInit s = .next t) : Issued (MayIssue .i2cInit s) s t 0 := by
  rcases execI2cInit_cases s with ⟨p, k, -, hk, e⟩ | ⟨p, -, -, e⟩ | ⟨-, e⟩
  all_goals obtain rfl := Host.Outcome.next.inj (e.symm.trans h)
  · rw [configure_of_class hk]
    exact {}
  · exact {}
  · exact {}

theorem execI2cRead_issued (h : exec .i2cRead s = .next t) :
    ∃ c, s.i2c = some c ∧ Issued (MayIssue .i2cRead s) s t (32 * s.budget c) := by
  rcases execI2cRead_cases s with
    ⟨-, e⟩ | ⟨c, n, nack, hc, -, hn, s1, u, new, data, hs1, -, ran, -, -, -, -, -, e⟩ |
    ⟨ho, n, nack, -, -, e⟩ | ⟨ho, bs, -, -, e⟩
  · cases e.symm.trans h
  all_goals obtain rfl := Host.Outcome.next.inj (e.symm.trans h)
  · have before : Issued (MayIssue .i2cRead s) s s1 0 := hs1 ▸ {}
    have bus := (ran.mono (Nat.mul_le_mul_right (s.budget c) hn)).issued (i := .i2cRead) (s0 := s)
    exact ⟨c, hc, Nat.zero_add (32 * s.budget c) ▸ (before.trans bus).trans (b' := 0) {}⟩
  all_goals
    obtain ⟨c, hc⟩ := Option.isSome_iff_exists.mp ho
    exact ⟨c, hc, {}⟩

theorem execI2cWrite_issued (h : exec .i2cWrite s = .next t) :
    ∃ c, s.i2c = some c ∧ Issued (MayIssue .i2cWrite s) s t (32 * s.budget c) := by
  rcases execI2cWrite_cases s with
    ⟨-, e⟩ | ⟨c, n, bs, hc, -, -, hn, s1, u, new, hs1, -, ran, -, -, -, e⟩ |
    ⟨ho, n, bs, -, -, -, e⟩ | ⟨ho, n, -, -, e⟩ | ⟨ho, -, e⟩
  · cases e.symm.trans h
  all_goals obtain rfl := Host.Outcome.next.inj (e.symm.trans h)
  · have before : Issued (MayIssue .i2cWrite s) s s1 0 := hs1 ▸ {}
    have bus := (ran.mono (Nat.mul_le_mul_right (s.budget c) hn)).issued (i := .i2cWrite) (s0 := s)
    exact ⟨c, hc, Nat.zero_add (32 * s.budget c) ▸ (before.trans bus).trans (b' := 0) {}⟩
  all_goals
    obtain ⟨c, hc⟩ := Option.isSome_iff_exists.mp ho
    exact ⟨c, hc, {}⟩

/-- The class of a configuration is one `configure` accepts. -/
theorem speedClass?_byte (k : SpeedClass) : speedClass? k.byte = some k := by cases k <;> rfl

/-- Before START there is one phase read and, on a wedged bus only, the initialisation. -/
theorem beforeStart_issued (c : I2cConfig) (s : State) :
    Issued (MayIssue .i2cStart s) s (s.beforeStart c) 0 := by
  by_cases wedged : s.phaseAt 0 = .idleError
  · simp only [State.beforeStart, if_pos wedged, configure_of_class (speedClass?_byte c.cls), phyPhase_eq]
    exact { ops := by simp [MayIssue, wedged] }
  · simp only [State.beforeStart, if_neg wedged, phyPhase_eq]
    exact {}

theorem execI2cStart_issued (h : exec .i2cStart s = .next t) :
    ∃ c c', s.i2c = some c ∧ (s.beforeStart c).i2c = some c' ∧
      Issued (MayIssue .i2cStart s) s t (s.budget c') := by
  rcases execI2cStart_cases s with ⟨-, e⟩ | ⟨c, c', u, new, hc, hc', -, ran, -, -, -, e⟩
  · cases e.symm.trans h
  · obtain rfl := Host.Outcome.next.inj (e.symm.trans h)
    exact ⟨c, c', hc, hc', Nat.zero_add (s.budget c') ▸
      ((beforeStart_issued c s).trans ran.issued).trans (b' := 0) {}⟩

/-- Every command but the three that transfer bytes or request START polls nothing, and each issues only what it
may. -/
theorem exec_issued {i : Instr} (h : exec i s = .next t) :
    ∃ b, Issued (MayIssue i s) s t b ∧ (i ∉ [Instr.i2cRead, .i2cWrite, .i2cStart] → b = 0) := by
  cases i with
  | spiInit => exact ⟨0, execSpiInit_issued h, fun _ => rfl⟩
  | spiDeinit =>
    obtain rfl := Host.Outcome.next.inj ((exec_spiDeinit s).symm.trans h)
    exact ⟨0, {}, fun _ => rfl⟩
  | spiSelect =>
    obtain rfl := execSpiSelect_next h
    exact ⟨0, {}, fun _ => rfl⟩
  | spiRelease =>
    obtain rfl := execSpiRelease_next h
    exact ⟨0, {}, fun _ => rfl⟩
  | spiRead => exact ⟨0, execSpiRead_issued h, fun _ => rfl⟩
  | spiWrite => exact ⟨0, execSpiWrite_issued h, fun _ => rfl⟩
  | spiTest => exact ⟨0, linkTest_issued h, fun _ => rfl⟩
  | i2cInit => exact ⟨0, execI2cInit_issued h, fun _ => rfl⟩
  | i2cDeinit =>
    obtain rfl := Host.Outcome.next.inj ((exec_i2cDeinit s).symm.trans h)
    exact ⟨0, {}, fun _ => rfl⟩
  | i2cRead =>
    obtain ⟨c, -, issued⟩ := execI2cRead_issued h
    exact ⟨_, issued, by simp⟩
  | i2cWrite =>
    obtain ⟨c, -, issued⟩ := execI2cWrite_issued h
    exact ⟨_, issued, by simp⟩
  | i2cStart =>
    obtain ⟨c, c', -, -, issued⟩ := execI2cStart_issued h
    exact ⟨_, issued, by simp⟩
  | i2cStop =>
    obtain rfl := execI2cStop_next h
    exact ⟨0, {}, fun _ => rfl⟩
  | i2cTest => exact ⟨0, linkTest_issued h, fun _ => rfl⟩
  | nosuch op =>
    obtain rfl := Host.Outcome.next.inj ((exec_nosuch op s).symm.trans h)
    exact ⟨0, {}, fun _ => rfl⟩

/-- Settles O53: what a command may issue says where each of the three operations comes from. -/
theorem phyInitAndOffOnlyWhereStated : Obligations.PhyInitAndOffOnlyWhereStated := by
  intro i s t h
  obtain ⟨b, issued, -⟩ := exec_issued h
  obtain ⟨new, trace, ops, -⟩ := issued_iff.mp issued
  have may (e : Entry) (he : e ∈ new) (o : Event) (is : e.2 = o) : MayIssue i s o := is ▸ ops e he
  exact ⟨new, trace, fun e he => may e he .phyOff, fun e he => may e he .phyStop,
    fun e he hz => may e he (.phyInit hz)⟩

/-- A legal bus has the same configuration when START is requested as before the command. -/
theorem beforeStart_i2c (hc : s.i2c = some c) (legal : c.legal = true) : (s.beforeStart c).i2c = some c :=
  (beforeStart_served hc legal).i2c.trans hc

/-- Settles O52: the three commands that poll by their own bounds, where a consistent bus has kept its
configuration when START is requested; the others poll nothing. -/
theorem flagReadsBounded : Obligations.FlagReadsBounded := by
  intro i s t hs h
  cases i with
  | i2cStart =>
    obtain ⟨c, c', hc, hc', issued⟩ := execI2cStart_issued h
    have legal : c.legal = true := by simpa [hc] using hs.i2c_legal
    obtain rfl := Option.some.inj ((beforeStart_i2c hc legal).symm.trans hc')
    obtain ⟨new, trace, -, reads⟩ := issued_iff.mp issued
    exact ⟨new, trace, fun _ h => Option.some.inj (hc.symm.trans h) ▸ reads⟩
  | i2cRead =>
    obtain ⟨c, hc, issued⟩ := execI2cRead_issued h
    obtain ⟨new, trace, -, reads⟩ := issued_iff.mp issued
    exact ⟨new, trace, fun _ h => Option.some.inj (hc.symm.trans h) ▸ reads⟩
  | i2cWrite =>
    obtain ⟨c, hc, issued⟩ := execI2cWrite_issued h
    obtain ⟨new, trace, -, reads⟩ := issued_iff.mp issued
    exact ⟨new, trace, fun _ h => Option.some.inj (hc.symm.trans h) ▸ reads⟩
  | _ =>
    obtain ⟨b, issued, none⟩ := exec_issued h
    obtain rfl := none (by simp)
    obtain ⟨new, trace, -, reads⟩ := issued_iff.mp issued
    exact ⟨new, trace, Nat.le_zero.mp reads⟩

/-! ### When START echoes (R61) -/

theorem beforeStart_env (s : State) (legal : c.legal = true) :
    (s.beforeStart c).env = { s.env with phases := s.env.phases.skip 1 } := by
  by_cases wedged : s.phaseAt 0 = .idleError
  · simp only [State.beforeStart, if_pos wedged, configure_legal legal, phyPhase_eq]
    rfl
  · simp only [State.beforeStart, if_neg wedged, phyPhase_eq]
    rfl

/-- Settles O26: the answer is the echo exactly if the status is OK, which START decides from the flag and the
second phase read, also after a recovery. -/
theorem i2cStartEchoesIffStarted : Obligations.I2cStartEchoesIffStarted := by
  intro s c hc legal
  rcases execI2cStart_cases s with ⟨closed, -⟩ | ⟨c, c', u, new, hc0, hc', started, -, -, -, wire, e⟩
  · simp [i2cOpen, hc] at closed
  obtain rfl := Option.some.inj (hc.symm.trans hc0)
  obtain rfl := Option.some.inj ((beforeStart_i2c hc legal).symm.trans hc')
  have echoes : (∃ t, exec .i2cStart s = .next t ∧
      t.trace.getLast? = some (.respond, .trWrite [24])) ↔ u.latches.st = .ok := by
    simp [e, Result.ofStatus_wire wire]
  have env := beforeStart_env s legal
  have budget : (s.beforeStart c).budget c = s.budget c :=
    congrArg (fun p : Params => pollBudget c.timeoutUs p.pollDelayUs) (beforeStart_served hc legal).params
  have phase : (s.beforeStart c).phaseAt 0 = s.phaseAt 1 := phaseAt_of_skip (by rw [env]) 0
  have done (k : Nat) : (s.beforeStart c).flagDone 0 k ↔ s.flagDone 0 k := by
    simp only [flagDone, flagAt, env]
  rw [echoes, startAndPoll_st_eq_ok_iff hc' started, startAccepted_iff, budget, phase]
  simp only [done]

end

end Sys2Proof.Machine
end

section
/-! PROOFS. The dispatcher (spec/41_dispatcher.md): how every command ends its frame, said once (`exec_ends`), and
from it the terminating byte and what a rejected frame leaves alone; the link test; what a step runs. -/

namespace Sys2Proof.Machine

open Sys2Proof State

/-! ### How a frame ends -/

/-- The results of a command that has passed its checks (R79, R100): only the Engine operations can fail. -/
def completions : Instr → List Result
  | .i2cRead | .i2cWrite | .i2cStart => [.success, .opFailed]
  | .spiInit | .spiDeinit | .spiSelect | .spiRelease | .spiRead | .spiWrite | .spiTest => [.success]
  | .i2cInit | .i2cDeinit | .i2cStop | .i2cTest => [.success]
  | .nosuch _ => []

/-- The results with which a frame is turned away (R76, R77, R78, R81, R82): a command that reads bytes may not get
them or may not accept them. -/
def rejections (i : Instr) : List Result :=
  match i.format with
  | .n => []
  | .p1 | .rd1 | .rd2 | .wr | .t => [.inputTimeout, .invalidInput]
  | .x => [.noSuchCommand]

/-- From `s` to `u` no operation was issued at `RESPOND`. In this structure and the next, a field that is left out
is one that the state `u`, written out, shows. -/
structure Unanswered (s u : State) : Prop where
  params : u.params = s.params := by simp
  grew : s.trace <+: u.trace := by simp
  unanswered : ∀ e ∈ u.trace.drop s.trace.length, e.1 ≠ .respond := by simp

/-- From `s` to `u` there was no operation but of the Transport, and nothing that outlives a command changed. -/
structure OnlyTransport (s u : State) : Prop extends Unanswered s u where
  buf : u.buf = s.buf := by simp
  i2c : u.i2c = s.i2c := by simp
  spi : u.spi = s.spi := by simp
  tx : u.txCur = s.txCur := by simp
  rx : u.rxCur = s.rxCur := by simp
  noBus : ∀ e ∈ u.trace.drop s.trace.length, e.2.isPhy = false ∧ e.2.isSpi = false := by
    simp [Event.isPhy, Event.isSpi]

/-- The states in which a frame of `i` begun in `s` can end: it was rejected before any bus was touched, or it ran
to its end, and the response to its result is the last operation. -/
inductive Ends (i : Instr) (s : State) : State → Prop
  | rejected {u : State} {r : Result} (code : r ∈ rejections i) (only : OnlyTransport s u) :
      Ends i s (raise i.opcode r u)
  | completed {u : State} {r : Result} (result : r ∈ completions i) (body : Unanswered s u) :
      Ends i s (respond i.opcode r u)

section

variable {s t u : State}

theorem unanswered_iff : Unanswered s u ↔ u.params = s.params ∧
    ∃ body, u.trace = s.trace ++ body ∧ ∀ e ∈ body, e.1 ≠ .respond := by
  constructor
  · rintro ⟨params, ⟨body, trace⟩, unanswered⟩
    rw [← trace, List.drop_left] at unanswered
    exact ⟨params, body, trace.symm, unanswered⟩
  · rintro ⟨params, body, trace, unanswered⟩
    exact ⟨params, ⟨body, trace.symm⟩, by rwa [trace, List.drop_left]⟩

theorem Unanswered.trans (h : Unanswered s t) (h' : Unanswered t u) : Unanswered s u := by
  obtain ⟨params, body, trace, unanswered⟩ := unanswered_iff.mp h
  obtain ⟨params', body', trace', unanswered'⟩ := unanswered_iff.mp h'
  refine unanswered_iff.mpr ⟨params'.trans params, body ++ body', ?_, fun e he => ?_⟩
  · rw [trace', trace, List.append_assoc]
  · exact (List.mem_append.mp he).elim (unanswered e) (unanswered' e)

/-- A transfer is issued where it began, and that is not at `RESPOND`. -/
theorem BusRan.unanswered {new : List Entry} {b : Nat} (h : BusRan s t new b) (pc : s.pc = .execute) :
    Unanswered s t :=
  unanswered_iff.mpr ⟨h.params, new, h.trace, fun e he => by simp [(h.ops e he).1, pc]⟩

/-- The statuses with which a transfer ends are reported as success or as failure (R79, R101). -/
theorem ofStatus_mem {x : Status} (h : x ≠ .configError) :
    Result.ofStatus x ∈ [Result.success, .opFailed] := by
  cases x <;> simp_all [Result.ofStatus]

/-! ### Each command -/

theorem execSpiInit_ends (h : exec .spiInit s = .next t) : Ends .spiInit s t := by
  rcases execSpiInit_cases s with ⟨p, -, -, e⟩ | ⟨p, -, -, e⟩ | ⟨-, e⟩
  all_goals obtain rfl := Host.Outcome.next.inj (e.symm.trans h)
  · exact .completed (by decide) {}
  all_goals exact .rejected (by decide) {}

theorem execSpiRead_ends (h : exec .spiRead s = .next t) : Ends .spiRead s t := by
  rcases execSpiRead_cases s with
    ⟨-, e⟩ | ⟨-, n, -, -, data, -, e⟩ | ⟨-, n, -, -, e⟩ | ⟨-, -, e⟩
  · cases e.symm.trans h
  all_goals obtain rfl := Host.Outcome.next.inj (e.symm.trans h)
  · exact .completed (by decide) {}
  all_goals exact .rejected (by decide) {}

theorem execSpiWrite_ends (h : exec .spiWrite s = .next t) : Ends .spiWrite s t := by
  rcases execSpiWrite_cases s with
    ⟨-, e⟩ | ⟨-, n, bs, -, -, -, e⟩ | ⟨-, n, bs, -, -, -, e⟩ | ⟨-, n, -, -, e⟩ | ⟨-, -, e⟩
  · cases e.symm.trans h
  all_goals obtain rfl := Host.Outcome.next.inj (e.symm.trans h)
  · exact .completed (by decide) {}
  all_goals exact .rejected (by decide) {}

theorem execI2cInit_ends (h : exec .i2cInit s = .next t) : Ends .i2cInit s t := by
  rcases execI2cInit_cases s with ⟨p, k, -, hk, e⟩ | ⟨p, -, -, e⟩ | ⟨-, e⟩
  all_goals obtain rfl := Host.Outcome.next.inj (e.symm.trans h)
  · rw [configure_of_class hk]
    exact .completed (by decide) {}
  all_goals exact .rejected (by decide) {}

theorem execI2cRead_ends (h : exec .i2cRead s = .next t) : Ends .i2cRead s t := by
  rcases execI2cRead_cases s with
    ⟨-, e⟩ | ⟨c, n, nack, -, -, -, s1, u, new, data, hs1, -, ran, -, -, wire, -, -, e⟩ |
    ⟨-, n, nack, -, -, e⟩ | ⟨-, bs, -, -, e⟩
  · cases e.symm.trans h
  all_goals obtain rfl := Host.Outcome.next.inj (e.symm.trans h)
  · have before : Unanswered s s1 := hs1 ▸ {}
    have transfer : Unanswered s1 u := ran.unanswered (hs1 ▸ rfl)
    exact .completed (ofStatus_mem wire) ((before.trans transfer).trans {})
  all_goals exact .rejected (by decide) {}

theorem execI2cWrite_ends (h : exec .i2cWrite s = .next t) : Ends .i2cWrite s t := by
  rcases execI2cWrite_cases s with
    ⟨-, e⟩ | ⟨c, n, bs, -, -, -, -, s1, u, new, hs1, -, ran, -, -, wire, e⟩ |
    ⟨-, n, bs, -, -, -, e⟩ | ⟨-, n, -, -, e⟩ | ⟨-, -, e⟩
  · cases e.symm.trans h
  all_goals obtain rfl := Host.Outcome.next.inj (e.symm.trans h)
  · have before : Unanswered s s1 := hs1 ▸ {}
    exact .completed (ofStatus_mem wire) (before.trans (ran.unanswered (hs1 ▸ rfl)))
  all_goals exact .rejected (by decide) {}

/-- START is requested at `EXECUTE`, after a phase read and, on a wedged bus, the recovery. -/
theorem beforeStart_unanswered (c : I2cConfig) (s : State) :
    (s.beforeStart c).pc = .execute ∧ Unanswered s (s.beforeStart c) := by
  by_cases wedged : s.phaseAt 0 = .idleError
  · simp only [State.beforeStart, if_pos wedged, configure_of_class (speedClass?_byte c.cls), phyPhase_eq]
    exact ⟨rfl, {}⟩
  · simp only [State.beforeStart, if_neg wedged, phyPhase_eq]
    exact ⟨rfl, {}⟩

theorem execI2cStart_ends (h : exec .i2cStart s = .next t) : Ends .i2cStart s t := by
  rcases execI2cStart_cases s with ⟨-, e⟩ | ⟨c, c', u, new, -, -, -, ran, -, -, wire, e⟩
  · cases e.symm.trans h
  · obtain rfl := Host.Outcome.next.inj (e.symm.trans h)
    obtain ⟨pc, before⟩ := beforeStart_unanswered c s
    exact .completed (ofStatus_mem wire) (before.trans (ran.unanswered pc))

theorem linkTest_ends {i : Instr} (h : linkTest i.opcode s = .next t)
    (success : .success ∈ completions i) (reject : rejections i = [.inputTimeout, .invalidInput]) :
    Ends i s t := by
  rcases linkTest_cases i.opcode s with ⟨-, e⟩ | ⟨a, b, -, -, e⟩ | ⟨bs, -, -, e⟩
  all_goals obtain rfl := Host.Outcome.next.inj (e.symm.trans h)
  · exact .completed success {}
  · exact .rejected (by simp [reject]) {}
  · exact .rejected (by simp [reject]) {}

/-- All the ways a command that has a next state can end. -/
theorem exec_ends {i : Instr} (h : exec i s = .next t) : Ends i s t := by
  cases i with
  | spiInit => exact execSpiInit_ends h
  | spiDeinit =>
    obtain rfl := Host.Outcome.next.inj ((exec_spiDeinit s).symm.trans h)
    exact .completed (by decide) {}
  | spiSelect =>
    obtain rfl := execSpiSelect_next h
    exact .completed (by decide) {}
  | spiRelease =>
    obtain rfl := execSpiRelease_next h
    exact .completed (by decide) {}
  | spiRead => exact execSpiRead_ends h
  | spiWrite => exact execSpiWrite_ends h
  | spiTest => exact linkTest_ends h (by decide) rfl
  | i2cInit => exact execI2cInit_ends h
  | i2cDeinit =>
    obtain rfl := Host.Outcome.next.inj ((exec_i2cDeinit s).symm.trans h)
    exact .completed (by decide) {}
  | i2cRead => exact execI2cRead_ends h
  | i2cWrite => exact execI2cWrite_ends h
  | i2cStart => exact execI2cStart_ends h
  | i2cStop =>
    obtain rfl := execI2cStop_next h
    exact .completed (by decide) {}
  | i2cTest => exact linkTest_ends h (by decide) rfl
  | nosuch op =>
    obtain rfl := Host.Outcome.next.inj ((exec_nosuch op s).symm.trans h)
    exact .rejected (List.mem_singleton_self _) {}

/-- Either way the frame ends with the response to one result of the command. -/
theorem Ends.responds {i : Instr} (h : Ends i s t) :
    ∃ r ∈ completions i ++ rejections i, ∃ u, Unanswered s u ∧ t = respond i.opcode r u := by
  cases h with
  | rejected code only => exact ⟨_, List.mem_append_right _ code, _, only.toUnanswered, rfl⟩
  | completed result body => exact ⟨_, List.mem_append_left _ result, _, body, rfl⟩

/-- Settles O49: the bytes of R100 are the encoded results with which the command can end. -/
theorem oneTerminatingBytePerCommand : Obligations.OneTerminatingBytePerCommand := by
  intro i s t h
  obtain ⟨r, result, u, unanswered, rfl⟩ := (exec_ends h).responds
  obtain ⟨params, body, trace, quiet⟩ := unanswered_iff.mp unanswered
  have code := List.mem_map_of_mem (f := encodeResult i.opcode) result
  refine ⟨rfl, params, body, encodeResult i.opcode r, by rw [respond_eq, trace], quiet, ?_⟩
  cases i <;> exact code

/-- No command that passed its checks answers with the byte of a rejection. -/
theorem encodeResult_completions {i : Instr} {r : Result} (h : r ∈ completions i) :
    encodeResult i.opcode r ∉ [(98 : Byte), 99, 100] := by
  revert r
  cases i with
  | nosuch op => exact fun h => absurd h List.not_mem_nil
  | _ => decide

/-- Settles O50: a frame that ran to its end has another last byte, and one that was rejected did nothing but
Transport operations; no command need be well-formed for that. -/
theorem rejectedFramesTouchNoBus : Obligations.RejectedFramesTouchNoBus := by
  intro i s t b h hb _ last
  cases exec_ends h with
  | @rejected u r _ only =>
    obtain ⟨new, trace⟩ := only.grew
    have noBus := only.noBus
    rw [← trace, List.drop_left] at noBus
    refine ⟨only.buf, only.i2c, only.spi, only.tx, only.rx,
      new ++ [(.respond, .trWrite [encodeResult i.opcode r])], ?_, ?_⟩
    · rw [raise_trace, ← trace, List.append_assoc]
    · exact List.forall_mem_append.mpr ⟨noBus, by simp [Event.isPhy, Event.isSpi]⟩
  | @completed u r result _ =>
    have code : encodeResult i.opcode r = b := by simpa [respond_eq] using last
    exact absurd (code ▸ hb) (encodeResult_completions result)

end

/-! ### The link test (R82) -/

/-- The operations of a link test that got `got` and answers `b`. -/
def linkTestTrace (got : List Byte) (b : Byte) : List Entry :=
  [(.payloadOut, .trWrite sentinel), (.payloadIn, .trRead 2 got), (.respond, .trWrite [b])]

section

variable {s : State}

/-- The end of a link test: but for the host bytes taken and its three operations the state is as it was. -/
theorem respond_linkTest (op : Byte) (r : Result) (k : Nat) (got : List Byte) :
    respond op r (((trWrite sentinel (s.setPc .payloadOut)).setPc .payloadIn).tookHost k 2 got) =
      s.after k (linkTestTrace got (encodeResult op r)) := by
  simp [respond_eq, linkTestTrace, State.after, emit, setPc]

theorem linkTest_sends {op a b : Byte} (h : s.hostSends [a, b]) : linkTest op s =
    .next (s.after 2 (linkTestTrace [a, b] (if [a, b] = sentinel then op else 99))) := by
  have read := trRead_sends (s := (trWrite sentinel (s.setPc .payloadOut)).setPc .payloadIn) (n := 2) h rfl
  simp only [linkTest, read]
  split
  · exact congrArg _ (respond_linkTest op .success 2 [a, b])
  · exact congrArg _ (respond_linkTest op .invalidInput 2 [a, b])

theorem linkTest_stops {op : Byte} {bs : List Byte} (h : s.hostStops bs) (short : bs.length < 2) :
    linkTest op s = .next (s.after (bs.length + 1) (linkTestTrace bs 98)) := by
  have read := trRead_stops (s := (trWrite sentinel (s.setPc .payloadOut)).setPc .payloadIn) (n := 2) h short
  refine Eq.trans ?_ (congrArg _ (respond_linkTest op .inputTimeout (bs.length + 1) bs))
  match bs, short with
  | [], _ | [_], _ => simp only [linkTest, read, raise]

/-- Settles O15: both commands are the link test under their own opcode, whose outcomes are those of its one
read. -/
theorem linkTestAnswers : Obligations.LinkTestAnswers := by
  intro s i hi
  have run : exec i s = linkTest i.opcode s := by rcases hi with rfl | rfl <;> rfl
  simp only [run]
  refine ⟨fun h => ⟨_, linkTest_sends h, rfl⟩, fun a b h other => ⟨_, linkTest_sends h, ?_⟩,
    fun a h => ⟨_, linkTest_stops h (by simp), rfl⟩, fun h => ⟨_, linkTest_stops h (by simp), rfl⟩⟩
  rw [if_neg (by simpa [sentinel] using other)]
  rfl

end

/-! ### What a step runs (R72, R73, R74) -/

section

variable {s : State}

/-- A Transport read between commands is issued at `AWAIT_OPCODE` and leaves the block there. -/
theorem tookHost_eq_after (awaiting : s.pc = .awaitOpcode) (k n : Nat) (got : List Byte) :
    s.tookHost k n got = s.after k [(.awaitOpcode, .trRead n got)] := by
  rw [State.after, ← awaiting]

theorem step_byte {b : Byte} (awaiting : s.pc = .awaitOpcode) (running : s.env.resetIn = none)
    (h : s.hostAt 0 = .byte b) : step s = exec (decode b)
      { s.after 1 [(.awaitOpcode, .trRead 1 [b])] with latches := { s.latches with op := b } } := by
  rw [step_running running, runCommand, if_pos awaiting, fetchOpcode_byte h,
    tookHost_eq_after awaiting]
  rfl

theorem step_silence (awaiting : s.pc = .awaitOpcode) (running : s.env.resetIn = none)
    (h : s.hostAt 0 = .timeout) : step s = .next (s.after 1 [(.awaitOpcode, .trRead 1 [])]) := by
  rw [step_running running, runCommand, if_pos awaiting, fetchOpcode_timeout h,
    tookHost_eq_after awaiting]

/-- Settles O10: the opcode of a well-formed command is a byte that decodes to it. -/
theorem stepRunsDecodedCommand : Obligations.StepRunsDecodedCommand :=
  fun _ awaiting running =>
    ⟨fun _ wf h => (step_byte awaiting running h).trans (by rw [decode_opcode wf]),
      fun _ => step_byte awaiting running, step_silence awaiting running⟩

end

end Sys2Proof.Machine
end

section
/-! PROOFS. The SPI commands (spec/42_spi_commands.md, R85 to R90): every outcome of opcodes 7 to 12, with the
whole state it ends in. -/

namespace Sys2Proof.Machine

open Sys2Proof State

section

variable {s : State} {op n : Byte}

/-! ### Short frames -/

/-- A command that issues one operation and answers. -/
theorem respond_emit (op : Byte) (r : Result) (p : Pc) (e : Event) :
    respond op r ((s.setPc p).emit e) = s.after 0 [(p, e), (.respond, .trWrite [encodeResult op r])] := by
  simp [respond_eq, emit, setPc]

/-- A command that reads its parameters and answers. -/
theorem respond_tookHost (op : Byte) (r : Result) (k n : Nat) (got : List Byte) :
    respond op r ((s.setPc .readParams).tookHost k n got) =
      s.after k [(.readParams, .trRead n got), (.respond, .trWrite [encodeResult op r])] := by
  simp [respond_eq, setPc]

/-- A command whose one parameter byte does not arrive (R76). -/
theorem takeParam_silent {k : Byte → State → Out} (silent : s.hostAt 0 = .timeout) :
    takeParam op s k = .next (s.after 1 [(.readParams, .trRead 1 []), (.respond, .trWrite [98])]) :=
  (takeParam_timeout silent).trans (congrArg _ (respond_tookHost op .inputTimeout 1 1 []))

/-- A command whose length byte is over the capacity: it is latched and rejected (R77). -/
theorem takeParam_checkLen_over {k : State → Out} (h : s.hostAt 0 = .byte n)
    (long : s.params.bufCap < n.toNat) :
    takeParam op s (fun n s1 => checkLen op s1.params.bufCap (s1.setLen n) k) = .next
      { s.after 1 [(.readParams, .trRead 1 [n]), (.respond, .trWrite [99])] with
        latches := { s.latches with len := n } } := by
  have answer := respond_tookHost (s := s) op .invalidInput 1 1 [n]
  exact (takeParam_byte h).trans ((checkLen_over long).trans (congrArg _ (congrArg (setLen n) answer)))

/-! ### Commands without a payload (R85 to R88) -/

/-- Settles O16: an accepted divisor, any other and none, each by the rule for the parameter read. -/
theorem spiInitOutcome : Obligations.SpiInitOutcome := by
  refine fun s => ⟨fun p h accepted => ?_, fun p h other => ?_, takeParam_silent⟩
  · refine (takeParam_byte h).trans ((if_pos (List.contains_iff_mem.mpr accepted)).trans ?_)
    simp [respondOk, respond_eq, spiInit, emit, setPc, setSpi, encodeResult, Instr.opcode]
  · refine (takeParam_byte h).trans ((if_neg (other ∘ List.contains_iff_mem.mp)).trans ?_)
    exact congrArg _ (respond_tookHost 7 .invalidInput 1 1 [p])

/-- Settles O17: one operation and the echo, and apart from them the bus is closed. -/
theorem spiDeinitOutcome : Obligations.SpiDeinitOutcome := fun s => by
  have answer := respond_emit (s := s) 8 .success .execute .spiDeinit
  exact (exec_spiDeinit s).trans (congrArg _ (congrArg (setSpi none) answer))

/-- Settles O18: one operation and the echo. -/
theorem spiSelectOutcome : Obligations.SpiSelectOutcome := fun _ opened =>
  (onOpenSpi_open opened).trans (congrArg _ (respond_emit 9 .success .execute .spiSelect))

/-- Settles O19: one operation and the echo. -/
theorem spiReleaseOutcome : Obligations.SpiReleaseOutcome := fun _ opened =>
  (onOpenSpi_open opened).trans (congrArg _ (respond_emit 10 .success .execute .spiRelease))

/-! ### Commands with a payload (R89, R90) -/

/-- A run stored from index 0 is what the buffer then holds there, and every other index is as it was. -/
theorem read_writeRun_zero (m : Memory) {vs : List Byte} {n : Nat} (len : vs.length = n) :
    (∀ j, (h : j < vs.length) → (m.writeRun 0 vs).read j = some vs[j]) ∧
      ∀ a, n ≤ a → (m.writeRun 0 vs).read a = m.read a :=
  ⟨fun j h => by simpa using Memory.read_writeRun_inside vs m 0 j h,
    fun _ h => Memory.read_writeRun_outside vs m (.inr (by omega))⟩

/-- The run of `SPI_READ` with an accepted length: the other cases of the command have another first host
answer. -/
theorem execSpiRead_accepted (opened : s.spiOpen = true) (h : s.hostAt 0 = .byte n)
    (fits : n.toNat ≤ s.params.bufCap) :
    ∃ data, data = (List.range n.toNat).map s.spiAt ∧ exec .spiRead s = .next
      (respondOk 11 (trWrite data ((((((s.echoedLen 11 n).setPc .execute).setSpiIn
        (s.env.spi.skip n.toNat)).emit (.spiRead data)).setBuf (s.buf.writeRun 0 data)).setIdx
          n.toNat |>.setPc .payloadOut |>.setIdx n.toNat))) := by
  rcases execSpiRead_cases s with
    ⟨closed, -⟩ | ⟨-, m, hm, -, run⟩ | ⟨-, m, hm, long, -⟩ | ⟨-, silent, -⟩
  · simp [closed] at opened
  · obtain rfl : n = m := by simpa [h] using hm
    exact run
  · obtain rfl : n = m := by simpa [h] using hm
    omega
  · simp [h] at silent

/-- Settles O20: an accepted length by the run it leads to, the two rejections by the rules for the length
byte. -/
theorem spiReadOutcome : Obligations.SpiReadOutcome := by
  refine fun s => ⟨fun n opened h fits => ?_,
    fun n opened h long => (onOpenSpi_open opened).trans (takeParam_checkLen_over h long),
    fun opened silent => (onOpenSpi_open opened).trans (takeParam_silent silent)⟩
  obtain ⟨data, hdata, run⟩ := execSpiRead_accepted opened h fits
  refine ⟨data, hdata, _, n.toNat, run, ?_, read_writeRun_zero s.buf (by simp [hdata])⟩
  simp [respondOk, respond_eq, trWrite, emit, setPc, setLen, setIdx, setBuf, setSpiIn, encodeResult]

/-- `SPI_WRITE` with an accepted length: after the early echo all depends on the payload. -/
theorem execSpiWrite_accepted (opened : s.spiOpen = true) (h : s.hostAt 0 = .byte n)
    (fits : n.toNat ≤ s.params.bufCap) :
    exec .spiWrite s = takePayload 12 n.toNat (s.echoedLen 12 n) fun u =>
      finish (bufToSpi u.latches.len.toNat (u.setPc .execute)) fun v => .next (respondOk 12 v) :=
  (onOpenSpi_open opened).trans ((takeParam_byte h).trans (checkLen_ok fits))

/-- Settles O21: with an accepted length by the rules for the payload, the two rejections by those for the length
byte. -/
theorem spiWriteOutcome : Obligations.SpiWriteOutcome := by
  refine fun s => ⟨fun n bs opened sends len fits => ?_, fun n bs opened stops short fits => ?_,
    fun n opened h long => (onOpenSpi_open opened).trans (takeParam_checkLen_over h long),
    fun opened silent => (onOpenSpi_open opened).trans (takeParam_silent silent)⟩
  · obtain ⟨h, payload⟩ := hostSends_cons.mp sends
    have sent := bufToSpi_writeRun (v := bs) (m := s.buf)
      (s := ((s.echoedLen 12 n).gotPayload n.toNat bs).setPc .execute) rfl (len ▸ fits)
    rw [len] at sent
    have run := (execSpiWrite_accepted opened h fits).trans
      ((takePayload_sends (s := s.echoedLen 12 n) payload len fits).trans (congrArg (finish · _) sent))
    refine ⟨_, n.toNat, run, ?_, read_writeRun_zero s.buf len⟩
    simp [respondOk, respond_eq, spiWrite, emit, setPc, setLen, setIdx, setBuf, encodeResult]
  · obtain ⟨h, payload⟩ := hostStops_cons.mp stops
    refine (execSpiWrite_accepted opened h fits).trans
      ((takePayload_stops (s := s.echoedLen 12 n) payload short).trans ?_)
    have taken : 1 + (bs.length + 1) = 2 + bs.length := by omega
    simp [raise, respond_eq, setPc, setLen, encodeResult, taken]

end

end Sys2Proof.Machine
end

section
/-! PROOFS. The I2C commands without a payload (spec/43_i2c_commands.md, R92, R93, R96, R97): every outcome of opcodes
20, 21, 24 and 25, with the whole state it ends in. -/

namespace Sys2Proof.Machine

open Sys2Proof State

section

variable {s : State} {c : I2cConfig} {p : Byte}

theorem i2cOpen_of_config (hc : s.i2c = some c) : s.i2cOpen = true := by simp [i2cOpen, hc]

/-! ### Opening and closing the bus (R92, R93, R97) -/

theorem execI2cInit_accepted {k : SpeedClass} (h : s.hostAt 0 = .byte p) (cls : speedClass? p = some k) :
    exec .i2cInit s = .next
      { s.after 1 [(.readParams, .trRead 1 [p]), (.execute, .phyInit (speedHz k)),
          (.respond, .trWrite [20])] with
        i2c := some ⟨k, speedHz k, timeoutWindow (speedHz k)⟩, txCur := 0, rxCur := 0
        latches := { s.latches with st := .ok } } := by
  refine (takeParam_byte h).trans ?_
  simp [cls, configure_of_class cls, emit, setPc, Instr.opcode]

theorem execI2cInit_rejected (h : s.hostAt 0 = .byte p) (cls : speedClass? p = none) :
    exec .i2cInit s =
      .next (s.after 1 [(.readParams, .trRead 1 [p]), (.respond, .trWrite [99])]) := by
  refine (takeParam_byte h).trans ?_
  simp only [cls]
  exact congrArg _ (respond_tookHost 20 .invalidInput 1 1 [p])

/-- Settles O22: the three classes and any other byte by whether the byte names a class, and no byte by the rule for
the parameter read. -/
theorem i2cInitOutcome : Obligations.I2cInitOutcome := by
  refine fun s => ⟨fun p c h hp => ?_,
    fun p h other => execI2cInit_rejected h (speedClass?_eq_none p other), takeParam_silent⟩
  simp only [List.mem_cons, List.not_mem_nil, or_false, Prod.mk.injEq] at hp
  obtain ⟨rfl, rfl⟩ | ⟨rfl, rfl⟩ | ⟨rfl, rfl⟩ := hp
  · exact execI2cInit_accepted (k := .standard) h rfl
  · exact execI2cInit_accepted (k := .fast) h rfl
  · exact execI2cInit_accepted (k := .low) h rfl

/-- Settles O23: one operation and the echo, and apart from them the bus is closed. -/
theorem i2cDeinitOutcome : Obligations.I2cDeinitOutcome := fun s => by
  have answer := respond_emit (s := s) 21 .success .execute .phyOff
  exact (exec_i2cDeinit s).trans (congrArg _ (congrArg (setI2c none) answer))

/-- Settles O24: one operation and the echo, and apart from them the status is OK. -/
theorem i2cStopOutcome : Obligations.I2cStopOutcome := fun s opened => by
  have answer := respond_emit (s := s) 25 .success .execute .phyStop
  exact (onOpenI2c_open opened).trans (congrArg _ (congrArg (setSt .ok) answer))

/-! ### START (R96) -/

/-- What a legal bus is like when START is requested: one phase was read, and a wedged bus was configured again. -/
theorem beforeStart_eq (hc : s.i2c = some c) (legal : c.legal = true) :
    s.beforeStart c = { s.phyTook 0 1 0 with
      pc := .execute
      txCur := if s.phaseAt 0 = .idleError then 0 else s.txCur
      rxCur := if s.phaseAt 0 = .idleError then 0 else s.rxCur
      latches := { s.latches with st := if s.phaseAt 0 = .idleError then .ok else s.latches.st }
      trace := s.trace ++ (.execute, .phyPhase (s.phaseAt 0)) ::
        if s.phaseAt 0 = .idleError then [(.execute, .phyInit c.clkHz)] else [] } := by
  by_cases wedged : s.phaseAt 0 = .idleError
  · simp only [State.beforeStart, if_pos wedged, configure_legal legal, phyPhase_eq, ← hc]
    simp [setPc, setPhases, emit]
  · simp only [State.beforeStart, if_neg wedged, phyPhase_eq]
    simp [setPc, setPhases, emit]

/-- `I2C_START` on an open, legal bus answers what START makes of it. -/
theorem execI2cStart_of_startAndPoll {t : State} (hc : s.i2c = some c)
    (started : startAndPoll (s.beforeStart c) = .ok t) :
    exec .i2cStart s = .next (respondStatus 24 t) := by
  rcases execI2cStart_cases s with ⟨closed, -⟩ | ⟨c0, -, u, -, hc0, -, run, -, -, -, -, e⟩
  · simp [i2cOpen_of_config hc] at closed
  · obtain rfl := Option.some.inj (hc.symm.trans hc0)
    obtain rfl := Except.ok.inj (started.symm.trans run)
    exact e

/-- Settles O25: START in the state after the phase read and the recovery, for the flag seen set and not. -/
theorem i2cStartOutcome : Obligations.I2cStartOutcome := by
  intro s c hc legal wedged started u
  have before := beforeStart_eq hc legal
  have config := beforeStart_i2c hc legal
  have phase : (s.beforeStart c).phaseAt 0 = s.phaseAt 1 := phaseAt_of_skip (by rw [before]) 0
  refine ⟨fun k hk done => ?_, fun expired => ?_⟩
  · refine (execI2cStart_of_startAndPoll hc (startAndPoll_done config (by rw [before]; exact hk)
      (by rw [before]; simpa [flagDone] using done))).trans ?_
    rw [phase, before]
    by_cases ok : startAccepted (s.phaseAt 1) = true
    · simp [startAccepted_iff.mp ok, ok, setPc, emit, Result.ofStatus, encodeResult, wedged, started, u]
    · simp [mt startAccepted_iff.mpr ok, ok, setPc, emit, Result.ofStatus, encodeResult, wedged, started, u]
  · refine (execI2cStart_of_startAndPoll hc (startAndPoll_expired config
      (by rw [before]; simpa [flagExpires] using expired))).trans ?_
    rw [before]
    simp [setPc, emit, Result.ofStatus, encodeResult, wedged, started, u]

end

end Sys2Proof.Machine
end

section
/-! PROOFS. `I2C_READ` (spec/43_i2c_commands.md, R94): what it rejects, the run of bytes `readData` receives
(spec/40_i2c_engine.md, R64, R65), and how its frame ends when they all arrive, when one fails and when none is asked
for. -/

namespace Sys2Proof.Machine

open Sys2Proof State

section

variable {s : State} {c : I2cConfig} {n nack : Byte}

/-! ### Rejected parameters (R94) -/

theorem execI2cRead_short {bs : List Byte} (opened : s.i2cOpen = true) (stops : s.hostStops bs)
    (short : bs.length < 2) : exec .i2cRead s = .next
      (s.after (bs.length + 1) [(.readParams, .trRead 2 bs), (.respond, .trWrite [98])]) :=
  (onOpenI2c_open opened).trans ((takeParams2_stops stops short).trans
    (congrArg _ (respond_tookHost 22 .inputTimeout _ 2 bs)))

/-- Settles O27: the two short parameter reads by one rule, and both parameters latched before the length is
checked. -/
theorem i2cReadRejections : Obligations.I2cReadRejections := by
  refine fun s => ⟨fun opened stops => execI2cRead_short opened stops (by simp),
    fun n opened stops => execI2cRead_short opened stops (by simp), fun n nack opened sends long => ?_⟩
  have answer := respond_tookHost (s := s) 22 .invalidInput 2 2 [n, nack]
  exact (onOpenI2c_open opened).trans ((takeParams2_sends sends).trans ((checkLen_over long).trans
    (congrArg _ (congrArg (fun t => (t.setLen n).setFlag (nackFlag nack)) answer))))

/-! ### The byte loop (R64, R65) -/

theorem readReady_iff {p : Phase} : readReady p = true ↔ p = .addrRAcked ∨ p = .dataRAcked := by
  simp [readReady]

/-- The answers with which the polling loop expires, for a state in which the flag was read `m` times. -/
theorem flagExpires_of_skip {u : State} {m b : Nat} (h : s.flagExpires m b)
    (hu : u.env.flags = s.env.flags.skip m) : u.flagExpires 0 b := fun j hj => by
  rw [flagAt_of_skip hu, Nat.zero_add]
  exact h j hj

theorem readLoop_step {m k idx : Nat} (nackLast : Bool) (hc : s.i2c = some c) (hk : k < s.budget c)
    (done : s.flagDone 0 k) (accepted : byteAccepted (s.phaseAt 0) = true) (fits : idx < s.params.bufCap) :
    readLoop nackLast (m + 1) idx s = readLoop nackLast m (idx + 1)
      { s.phyTook (k + 1) 1 1 with
        latches := { s.latches with idx := idx, polls := k, st := .ok }
        buf := s.buf.writeRun idx [s.dataAt 0]
        trace := s.trace ++ (s.pc, .phyRxGo (!(decide (m = 0) && nackLast))) :: (pollDoneTrace s.pc k ++
          [(s.pc, .phyPhase (s.phaseAt 0)), (s.pc, .phyData (s.dataAt 0))]) } := by
  simp only [readLoop, readByte_accepted (s := s.setIdx idx) (m == 0 && nackLast) hc hk done accepted, bufStore]
  rw [memWrite_eq (by simpa using fits)]
  rfl

/-- The state of `readData` after its phase read and the first `m` of `count` bytes, each accepted. -/
def State.received (s : State) (nackLast : Bool) (count : Nat) (w : Nat → Nat) (m : Nat) (l : Latches) : State :=
  { s.phyTook (flagsBefore w m) (m + 1) m with
    latches := l
    buf := s.buf.writeRun 0 ((List.range m).map s.dataAt)
    trace := s.trace ++ (s.pc, .phyPhase (s.phaseAt 0)) :: bytesReadTrace s s.pc nackLast count 1 w m }

/-- While at least `m` bytes are left to ask for and they are accepted, `readLoop` stores them and goes on. -/
theorem readLoop_accepted (nackLast : Bool) {w : Nat → Nat} (hc : s.i2c = some c) (m k : Nat)
    (complete : s.bytesComplete c w m) (accepted : ∀ j < m, byteAccepted (s.phaseAt (j + 1)) = true)
    (fits : m ≤ s.params.bufCap) :
    ∃ l, readLoop nackLast (m + k) 0 (phyPhase s).2 =
      readLoop nackLast k m (s.received nackLast (m + k) w m l) := by
  induction m generalizing k with
  | zero =>
    exact ⟨s.latches, by
      simp [State.received, phyPhase_eq, setPhases, emit, bytesReadTrace, flagsBefore, Memory.writeRun]⟩
  | succ m ih =>
    obtain ⟨l, read⟩ := ih (k + 1) (fun j hj => complete j (by omega)) (fun j hj => accepted j (by omega))
      (by omega)
    obtain ⟨hk, done⟩ := complete m (by omega)
    have phase (u : State) (hu : u.env.phases = s.env.phases.skip (m + 1)) : u.phaseAt 0 = s.phaseAt (m + 1) :=
      phaseAt_of_skip hu 0
    have data (u : State) (hu : u.env.data = s.env.data.skip m) : u.dataAt 0 = s.dataAt m :=
      dataAt_of_skip hu 0
    refine ⟨{ l with idx := m, polls := w m, st := .ok }, ?_⟩
    rw [Nat.add_right_comm, Nat.add_assoc, read]
    refine (readLoop_step nackLast (by exact hc) (by exact hk) (flagDone_of_skip done rfl)
      (by rw [phase _ rfl]; exact accepted m (by omega)) (by exact fits)).trans ?_
    rw [phase _ rfl, data _ rfl]
    simp [State.received, bytesReadTrace_succ, byteReadTrace, List.range_succ, Memory.writeRun_append,
      Nat.add_assoc, Nat.add_left_comm]

/-! ### `readData` (R65) -/

theorem phyPhase_answer (s : State) : (phyPhase s).1 = s.phaseAt 0 := by rw [phyPhase_eq]

/-- What a failed `readData` leaves in its destination, and how many free bytes that takes, is left open (U2). -/
theorem scramble_some {count : Nat} (fits : count ≤ s.params.bufCap) :
    ∃ junk buf, scramble count s = .ok ((s.setJunk junk).setBuf buf) :=
  ⟨_, _, scramble_eq fits⟩

/-- When all bytes are accepted `readData` ends OK with each of them stored. -/
theorem readData_accepted (nackLast : Bool) {w : Nat → Nat} {m : Nat} (hc : s.i2c = some c)
    (ready : readReady (s.phaseAt 0) = true) (complete : s.bytesComplete c w m)
    (accepted : ∀ j < m, byteAccepted (s.phaseAt (j + 1)) = true) (fits : m ≤ s.params.bufCap) :
    ∃ l, readData m nackLast s = .ok ((s.received nackLast m w m l).setSt .ok) := by
  obtain ⟨l, read⟩ := readLoop_accepted nackLast hc m 0 complete accepted fits
  have read' : readLoop nackLast m 0 (phyPhase s).2 = .ok ((s.received nackLast m w m l).setSt .ok) := read
  exact ⟨l, by simp only [readData, phyPhase_answer, ready, read', setSt_latches, if_true]⟩

/-- When the byte after the first `m` is not accepted `readData` ends with its status (U2). -/
theorem readData_failed (nackLast : Bool) {w : Nat → Nat} {m count : Nat} (hc : s.i2c = some c)
    (ready : readReady (s.phaseAt 0) = true) (complete : s.bytesComplete c w m)
    (accepted : ∀ j < m, byteAccepted (s.phaseAt (j + 1)) = true) (more : m < count)
    (fits : count ≤ s.params.bufCap) :
    ∃ l, ∀ t, readByte (decide (m + 1 = count) && nackLast) (s.received nackLast count w m l) = .ok (none, t) →
      t.latches.st ≠ .ok → t.params = s.params →
      ∃ junk buf, readData count nackLast s = .ok ((t.setJunk junk).setBuf buf) := by
  obtain ⟨k, rfl⟩ : ∃ k, count = m + (k + 1) := ⟨count - m - 1, by omega⟩
  obtain ⟨l, read⟩ := readLoop_accepted nackLast hc m (k + 1) complete accepted (by omega)
  refine ⟨{ l with idx := m }, fun t failed st params => ?_⟩
  have last : (k == 0) = decide (m + 1 = m + (k + 1)) := by
    rw [Bool.eq_iff_iff]; simp
  have stopped : readLoop nackLast (m + (k + 1)) 0 (phyPhase s).2 = .ok t := by
    rw [read, readLoop, last]
    exact failed ▸ rfl
  obtain ⟨junk, buf, scrambled⟩ := scramble_some (s := t) (params ▸ fits)
  exact ⟨junk, buf, by simp only [readData, phyPhase_answer, ready, stopped, st, scrambled, if_true, if_false]⟩

/-- In a phase in which no byte can be asked for `readData` reads the phase and ends (R65, R125). -/
theorem readData_notReady (nackLast : Bool) {count : Nat} (notReady : ¬ readReady (s.phaseAt 0) = true)
    (fits : count ≤ s.params.bufCap) :
    ∃ junk buf, readData count nackLast s =
      .ok ((((phyPhase s).2.setSt .seqError).setJunk junk).setBuf buf) := by
  obtain ⟨junk, buf, scrambled⟩ := scramble_some (s := (phyPhase s).2.setSt .seqError) (count := count)
    (by rw [phyPhase_eq]; exact fits)
  exact ⟨junk, buf, by simp only [readData, phyPhase_answer, notReady, scrambled, Bool.false_eq_true, if_false]⟩

/-! ### The frame of an accepted `I2C_READ` (R94, D12) -/

/-- The state in which `I2C_READ` runs `readData`: the parameters are latched and the early echo is written. -/
abbrev State.readAsked (s : State) (n nack : Byte) : State :=
  (earlyEcho 22 ((((s.setPc .readParams).tookHost 2 2 [n, nack]).setLen n).setFlag (nack != 0))).setPc .execute

/-- What `readData` received, in the terms of the state in which `I2C_READ` began. -/
theorem received_readAsked (nackLast : Bool) (count : Nat) (w : Nat → Nat) (m : Nat) (l : Latches) :
    (s.readAsked n nack).received nackLast count w m l =
      { (s.phyTook (flagsBefore w m) (m + 1) m).after 2
          ((.readParams, .trRead 2 [n, nack]) :: (.earlyEcho, .trWrite [22]) ::
            (.execute, .phyPhase (s.phaseAt 0)) :: bytesReadTrace s .execute nackLast count 1 w m) with
        pc := .execute, latches := l, buf := s.buf.writeRun 0 ((List.range m).map s.dataAt) } := by
  have trace : bytesReadTrace (s.readAsked n nack) .execute nackLast count 1 w m =
      bytesReadTrace s .execute nackLast count 1 w m := rfl
  have phase : (s.readAsked n nack).phaseAt 0 = s.phaseAt 0 := rfl
  have data : (s.readAsked n nack).dataAt = s.dataAt := rfl
  simp [State.received, trace, phase, data]

/-- The run of `I2C_READ` on an open bus with an accepted length: the other cases of the command have another
answer of the host. -/
theorem execI2cRead_accepted (hc : s.i2c = some c) (sends : s.hostSends [n, nack]) (fits : n.toNat ≤ 32) :
    ∃ t new data, readData n.toNat (nack != 0) (s.readAsked n nack) = .ok t ∧
      BusRan (s.readAsked n nack) t new (n.toNat * s.budget c) ∧ BufKept s t 0 n.toNat ∧
      t.latches.st ≠ .configError ∧ data.length = n.toNat ∧
      (∀ k, (hk : k < data.length) → t.buf.read k = some data[k]) ∧
      exec .i2cRead s = .next (respondStatus 22 (trWrite data ((t.setPc .payloadOut).setIdx n.toNat))) := by
  have first : s.hostAt 0 = .byte n := sends 0 (by simp)
  have second : s.hostAt 1 = .byte nack := sends 1 (by simp)
  rcases execI2cRead_cases s with ⟨closed, -⟩ |
    ⟨c', n', nack', hc', sends', -, s1, t, new, data, rfl, read, ran, kept, -, wire, len, stored, run⟩ |
    ⟨-, n', nack', sends', long, -⟩ | ⟨-, bs, stops, short, -⟩
  · simp [i2cOpen_of_config hc] at closed
  · obtain rfl := Option.some.inj (hc.symm.trans hc')
    obtain rfl := HostEvent.byte.inj (first.symm.trans (sends' 0 (by simp)))
    obtain rfl := HostEvent.byte.inj (second.symm.trans (sends' 1 (by simp)))
    exact ⟨t, new, data, read, ran, kept, wire, len, stored, run⟩
  · obtain rfl := HostEvent.byte.inj (first.symm.trans (sends' 0 (by simp)))
    omega
  · match bs, short with
    | [], _ => cases first.symm.trans stops.2
    | [_], _ => cases second.symm.trans stops.2

/-- The whole state in which an accepted `I2C_READ` ends, by the state `t` in which `readData` ended. -/
theorem execI2cRead_of_readData {t : State} (hc : s.i2c = some c) (sends : s.hostSends [n, nack])
    (fits : n.toNat ≤ 32) (read : readData n.toNat (nack != 0) (s.readAsked n nack) = .ok t) :
    ∃ l data, exec .i2cRead s = .next { t with
        pc := .awaitOpcode, latches := l
        trace := t.trace ++ [(.payloadOut, .trWrite data),
          (.respond, .trWrite [if t.latches.st = .ok then 22 else 97])] } ∧
      data.length = n.toNat ∧ (∀ k, (hk : k < data.length) → t.buf.read k = some data[k]) ∧
      l.op = s.latches.op ∧ l.len = n ∧ l.flag = (nack != 0) ∧ l.st = t.latches.st ∧
      ∀ a, n.toNat ≤ a → t.buf.read a = s.buf.read a := by
  obtain ⟨u, new, data, read', ran, kept, wire, len, stored, run⟩ := execI2cRead_accepted hc sends fits
  obtain rfl := Except.ok.inj (read.symm.trans read')
  refine ⟨{ t.latches with idx := n.toNat }, data, run.trans ?_, len, stored, ran.op, ran.len, ran.flag, rfl,
    fun a ha => kept.outside a (.inr ha)⟩
  simp [Result.ofStatus_wire wire, setPc, setIdx, emit]

/-- Settles O28: the bytes `readData` stored are those that the buffer then gives the host. -/
theorem i2cReadSucceeds : Obligations.I2cReadSucceeds := by
  intro s c n nack w hc sends fits ready bytes
  obtain ⟨l, read⟩ := readData_accepted (s := s.readAsked n nack) (nack != 0) hc (readReady_iff.mpr ready)
    (fun j hj => ⟨(bytes j hj).1, (bytes j hj).2.1⟩) (fun j hj => byteAccepted_iff.mpr (bytes j hj).2.2)
    (fits.trans s.params.bufCap_ge)
  obtain ⟨l', data, run, len, stored, op, hlen, flag, st, outside⟩ := execI2cRead_of_readData hc sends fits read
  rw [received_readAsked] at run stored outside
  have received (j : Nat) (hj : j < n.toNat) :
      (s.buf.writeRun 0 ((List.range n.toNat).map s.dataAt)).read j = some (s.dataAt j) :=
    ((read_writeRun_zero s.buf rfl).1 j (by simpa using hj)).trans (by simp)
  have payload : data = (List.range n.toNat).map s.dataAt := by
    refine List.ext_getElem (by simp [len]) fun j hj _ => ?_
    simpa using (stored j hj).symm.trans (received j (len ▸ hj))
  refine ⟨_, l', run, ?_, op, hlen, flag, st, received, outside⟩
  simp [payload, setSt]

/-- Settles O29: with no byte asked for, the operations of `readData` are its phase read. -/
theorem i2cReadOutOfSequence : Obligations.I2cReadOutOfSequence := by
  intro s n nack opened sends fits notReady
  obtain ⟨c, hc⟩ := Option.isSome_iff_exists.mp opened
  obtain ⟨junk, buf, read⟩ := readData_notReady (s := s.readAsked n nack) (nack != 0)
    (mt readReady_iff.mp notReady) (fits.trans s.params.bufCap_ge)
  obtain ⟨l, data, run, len, -, op, hlen, flag, st, outside⟩ := execI2cRead_of_readData hc sends fits read
  refine ⟨_, l, data, run, len, ?_, op, hlen, flag, st, outside⟩
  have phase : (s.readAsked n nack).phaseAt 0 = s.phaseAt 0 := rfl
  simp [phyPhase_eq, phase]

/-- Settles O30: both ways byte `m` can fail are outcomes of `readByte` after the bytes before it. -/
theorem i2cReadFailsAtByte : Obligations.I2cReadFailsAtByte := by
  intro s c n nack w m hc sends fits more ready bytes before asked
  obtain ⟨l, failed⟩ := readData_failed (s := s.readAsked n nack) (nack != 0) hc (readReady_iff.mpr ready)
    (fun j hj => ⟨(bytes j hj).1, (bytes j hj).2.1⟩) (fun j hj => byteAccepted_iff.mpr (bytes j hj).2.2)
    more (fits.trans s.params.bufCap_ge)
  rw [received_readAsked] at failed
  refine ⟨fun k hk done refused => ?_, fun expired => ?_⟩
  · obtain ⟨junk, buf, read⟩ := failed _ (readByte_notAccepted _ hc hk (flagDone_of_skip done rfl)
      (by rw [phaseAt_of_skip (s := s) rfl]; exact mt byteAccepted_iff.mp refused)) (by simp) rfl
    obtain ⟨l, data, run, len, -, op, hlen, flag, st, outside⟩ := execI2cRead_of_readData hc sends fits read
    refine ⟨_, l, data, run, len, ?_, ?_, op, hlen, flag, st, outside⟩
    · simp [asked, phaseAt]
    · simp [before, Nat.add_assoc]
  · obtain ⟨junk, buf, read⟩ := failed _ (readByte_expired _ hc
      (flagExpires_of_skip expired rfl)) (by simp) rfl
    obtain ⟨l, data, run, len, -, op, hlen, flag, st, outside⟩ := execI2cRead_of_readData hc sends fits read
    refine ⟨_, l, data, run, len, ?_, ?_, op, hlen, flag, st, outside⟩
    · simp [asked]
    · simp [before, Nat.add_assoc]

theorem hostBytes_append (a b : List Entry) : hostBytes (a ++ b) = hostBytes a ++ hostBytes b :=
  List.flatMap_append

/-- Settles O31: `readData` sends nothing to the host, so its bytes are those of the frame around it. -/
theorem i2cReadAlwaysFramesPayload : Obligations.I2cReadAlwaysFramesPayload := by
  intro s n nack opened sends fits
  obtain ⟨c, hc⟩ := Option.isSome_iff_exists.mp opened
  obtain ⟨t, new, data, -, ran, kept, wire, len, stored, run⟩ := execI2cRead_accepted hc sends fits
  refine ⟨_, [(.readParams, .trRead 2 [n, nack]), (.earlyEcho, .trWrite [22])] ++ new ++
    [(.payloadOut, .trWrite data), (.respond, .trWrite [if t.latches.st = .ok then 22 else 97])], data,
    if t.latches.st = .ok then 22 else 97, run, ?_, len, ?_, ?_, fun _ => stored,
    fun a ha => kept.outside a (.inr ha), ran.params, rfl, ran.i2c, ran.spi, ran.tx, ran.rx, ran.host, ran.spiIn,
    ran.op, ran.len, ran.flag⟩
  · simp [Result.ofStatus_wire wire, ran.trace]
  · rw [hostBytes_append, hostBytes_append, ran.quiet.1]
    simp [hostBytes, Event.toHost]
  · split
    · exact .inl rfl
    · exact .inr rfl

end

end Sys2Proof.Machine
end

section
/-! PROOFS. `I2C_WRITE` (spec/43_i2c_commands.md, R95): what it rejects, the run of bytes `writeData` sends
(spec/40_i2c_engine.md, R66), and how its frame ends when they are all acknowledged and when one fails. -/

namespace Sys2Proof.Machine

open Sys2Proof State

section

variable {s : State} {c : I2cConfig} {n : Byte} {bs : List Byte}

/-! ### Rejected frames (R95) -/

/-- `I2C_WRITE` with an accepted length: after the early echo all depends on the payload. -/
theorem execI2cWrite_accepted (opened : s.i2cOpen = true) (h : s.hostAt 0 = .byte n) (fits : n.toNat ≤ 32) :
    exec .i2cWrite s = takePayload 23 n.toNat (s.echoedLen 23 n) fun u =>
      finish (writeData u.latches.len.toNat (u.setPc .execute)) fun v => .next (respondStatus 23 v) :=
  (onOpenI2c_open opened).trans ((takeParam_byte h).trans (checkLen_ok fits))

/-- Settles O32: no length byte and one over 32 by the rules for the parameter, a short payload by the rule for an
accepted length. -/
theorem i2cWriteRejections : Obligations.I2cWriteRejections := by
  refine fun s => ⟨fun opened silent => (onOpenI2c_open opened).trans (takeParam_silent silent),
    fun n opened h long => ?_, fun n bs opened stops short fits => ?_⟩
  · have answer := respond_tookHost (s := s) 23 .invalidInput 1 1 [n]
    exact (onOpenI2c_open opened).trans ((takeParam_byte h).trans ((checkLen_over long).trans
      (congrArg _ (congrArg (setLen n) answer))))
  · obtain ⟨h, payload⟩ := hostStops_cons.mp stops
    refine (execI2cWrite_accepted opened h fits).trans
      ((takePayload_stops (s := s.echoedLen 23 n) payload short).trans ?_)
    have taken : 1 + (bs.length + 1) = 2 + bs.length := by omega
    simp [setPc, setLen, emit, encodeResult, taken]

/-! ### The byte loop (R66) -/

section

variable {m k idx : Nat} {v : Byte}

theorem writeLoop_notAcked (hc : s.i2c = some c) (hk : k < s.budget c) (done : s.flagDone 0 k)
    (stored : bufLoad idx s = .ok v) (refused : ¬ writeAcked (s.phaseAt 0) = true) :
    writeLoop (m + 1) idx s = .ok { s.phyTook (k + 1) 1 0 with
      latches := { s.latches with idx := idx, polls := k, st := .notAcked }
      trace := s.trace ++ (s.pc, .phyLoad v) :: (s.pc, .phyTxGo) :: (pollDoneTrace s.pc k ++
        [(s.pc, .phyPhase (s.phaseAt 0))]) } := by
  simp only [writeLoop, stored, sendByte_done (s := s.setIdx idx) v hc hk done]
  exact if_neg refused

theorem writeLoop_expired (hc : s.i2c = some c) (expired : s.flagExpires 0 (s.budget c))
    (stored : bufLoad idx s = .ok v) :
    writeLoop (m + 1) idx s = .ok { s.phyTook (s.budget c) 0 0 with
      latches := { s.latches with idx := idx, polls := s.budget c, st := .timeout }
      trace := s.trace ++ (s.pc, .phyLoad v) :: (s.pc, .phyTxGo) :: pollExpiredTrace s.pc (s.budget c) } := by
  simp only [writeLoop, stored, sendByte_expired (s := s.setIdx idx) v hc expired]
  rfl

end

/-! ### The frame of a whole payload (R95) -/

/-- The state in which `I2C_WRITE` runs `writeData`: the length was echoed and the payload is in the buffer. -/
abbrev State.writeAsked (s : State) (n : Byte) (bs : List Byte) : State :=
  ((s.echoedLen 23 n).gotPayload n.toNat bs).setPc .execute

/-- The whole state in which an accepted `I2C_WRITE` ends, by the state `t` in which `writeData` ended. -/
theorem execI2cWrite_of_writeData {t : State} (hc : s.i2c = some c) (sends : s.hostSends (n :: bs))
    (len : bs.length = n.toNat) (fits : n.toNat ≤ 32)
    (sent : writeData n.toNat (s.writeAsked n bs) = .ok t) :
    exec .i2cWrite s = .next { t with
      pc := .awaitOpcode
      trace := t.trace ++ [(.respond, .trWrite [encodeResult 23 (.ofStatus t.latches.st)])] } := by
  obtain ⟨h, payload⟩ := hostSends_cons.mp sends
  exact (execI2cWrite_accepted (i2cOpen_of_config hc) h fits).trans
    ((takePayload_sends (s := s.echoedLen 23 n) payload len (fits.trans s.params.bufCap_ge)).trans
      (congrArg (finish · _) sent))

/-- What a run of bytes adds to the trace does not depend on the part of the frame before it. -/
theorem bytesSentTrace_writeAsked (w : Nat → Nat) (m : Nat) :
    bytesSentTrace (s.writeAsked n bs) (s.writeAsked n bs).pc bs 0 w m = bytesSentTrace s .execute bs 0 w m := rfl

/-- Settles O33: the payload stands in the buffer and is sent whole. -/
theorem i2cWriteSucceeds : Obligations.I2cWriteSucceeds := by
  intro s c n bs w hc sends len fits bytes
  obtain ⟨stored, outside⟩ := read_writeRun_zero s.buf len
  obtain ⟨i, p, sent⟩ := writeData_allAcked (s := s.writeAsked n bs) (w := w) hc
    (fun j hj => ⟨(bytes j (len ▸ hj)).1, (bytes j (len ▸ hj)).2.1⟩)
    (fun j hj => writeAcked_iff.mpr (bytes j (len ▸ hj)).2.2) (len ▸ fits.trans s.params.bufCap_ge) stored
  rw [len, bytesSentTrace_writeAsked] at sent
  have run := execI2cWrite_of_writeData hc sends len fits sent
  refine ⟨_, { s.latches with len := n, idx := i, polls := p, st := .ok }, run, ?_, rfl, rfl, rfl, rfl,
      stored, outside⟩
  simp [Result.ofStatus, encodeResult]

/-- Settles O34: both ways byte `m` can fail end the loop after the bytes before it were sent. -/
theorem i2cWriteFailsAtByte : Obligations.I2cWriteFailsAtByte := by
  intro s c n bs w m hc sends len fits more bytes before sent
  obtain ⟨stored, outside⟩ := read_writeRun_zero s.buf len
  have cap := s.params.bufCap_ge
  have loaded (j : Nat) (hj : j < n.toNat) {u : State} (buf : u.buf = s.buf.writeRun 0 bs)
      (params : u.params = s.params) : bufLoad j u = .ok (bs.getD j 0) := by
    rw [List.getD_eq_getElem _ _ (len ▸ hj)]
    exact bufLoad_written (buf ▸ stored j (len ▸ hj)) (params ▸ by omega)
  obtain ⟨k, count⟩ : ∃ k, n.toNat = m + (k + 1) := ⟨n.toNat - m - 1, by omega⟩
  obtain ⟨i, p, acked⟩ := writeLoop_acked (s := s.writeAsked n bs) (bs := bs) (w := w) (idx := 0) hc m (k + 1)
    (fun j hj => ⟨(bytes j hj).1, (bytes j hj).2.1⟩) (fun j hj => writeAcked_iff.mpr (bytes j hj).2.2)
    (fun j hj => by rw [Nat.zero_add]; exact loaded j (by omega) rfl rfl)
  rw [← count, Nat.zero_add, bytesSentTrace_writeAsked] at acked
  refine ⟨fun k hk done refused => ?_, fun expired => ?_⟩
  · have run := execI2cWrite_of_writeData hc sends len fits (acked.trans
      (writeLoop_notAcked hc hk (flagDone_of_skip done rfl) (loaded m more rfl rfl)
        (by rw [phaseAt_of_skip (s := s) rfl]; exact mt writeAcked_iff.mp refused)))
    refine ⟨_, { s.latches with len := n, idx := m, polls := k, st := .notAcked }, run, ?_, rfl, rfl, rfl, rfl,
      stored, outside⟩
    simp [sent, before, phaseAt, Result.ofStatus, encodeResult, Nat.add_assoc]
  · have run := execI2cWrite_of_writeData hc sends len fits (acked.trans
      (writeLoop_expired hc (flagExpires_of_skip expired rfl) (loaded m more rfl rfl)))
    refine ⟨_, { s.latches with len := n, idx := m, polls := s.budget c, st := .timeout }, run, ?_, rfl, rfl,
      rfl, rfl, stored, outside⟩
    simp [sent, before, Result.ofStatus, encodeResult]

end

end Sys2Proof.Machine
end

section
/-! PROOFS. Errors (spec/60_exceptions.md, R105, R109): what an error entry does, and that nothing is fatal: no
command faults in any state, so no step faults between commands. -/

namespace Sys2Proof.Machine

open Sys2Proof State

/-! ### Error entries (R105) -/

/-- Settles O13: an error entry ends the frame with the code of its result (`respond_eq`). -/
theorem errorEntryWritesCodeOnly : Obligations.ErrorEntryWritesCodeOnly := by
  intro s op code e entry
  have coded : encodeResult op e = code := by
    simp only [List.mem_cons, Prod.mk.injEq, List.not_mem_nil, or_false] at entry
    rcases entry with ⟨rfl, rfl⟩ | ⟨rfl, rfl⟩ | ⟨rfl, rfl⟩ | ⟨rfl, rfl⟩ <;> rfl
  exact coded ▸ respond_eq op e s

section

variable {s : State} {f : Fault}

/-! ### No command faults -/

theorem onOpenI2c_ne_fault {k : Out} (h : k ≠ .fault f) : onOpenI2c s k ≠ .fault f := by
  cases opened : s.i2cOpen with
  | true => rwa [onOpenI2c_open opened]
  | false => rw [onOpenI2c_closed opened]; nofun

theorem onOpenSpi_ne_fault {k : Out} (h : k ≠ .fault f) : onOpenSpi s k ≠ .fault f := by
  cases opened : s.spiOpen with
  | true => rwa [onOpenSpi_open opened]
  | false => rw [onOpenSpi_closed opened]; nofun

theorem execSpiInit_ne_fault : exec .spiInit s ≠ .fault f := by
  rcases execSpiInit_cases s with ⟨p, -, -, e⟩ | ⟨p, -, -, e⟩ | ⟨-, e⟩
  all_goals rw [e]; nofun

theorem execSpiRead_ne_fault : exec .spiRead s ≠ .fault f := by
  rcases execSpiRead_cases s with
    ⟨-, e⟩ | ⟨-, n, -, -, data, -, e⟩ | ⟨-, n, -, -, e⟩ | ⟨-, -, e⟩
  all_goals rw [e]; nofun

theorem execSpiWrite_ne_fault : exec .spiWrite s ≠ .fault f := by
  rcases execSpiWrite_cases s with
    ⟨-, e⟩ | ⟨-, n, bs, -, -, -, e⟩ | ⟨-, n, bs, -, -, -, e⟩ | ⟨-, n, -, -, e⟩ | ⟨-, -, e⟩
  all_goals rw [e]; nofun

theorem linkTest_ne_fault {op : Byte} : linkTest op s ≠ .fault f := by
  rcases linkTest_cases op s with ⟨-, e⟩ | ⟨a, b, -, -, e⟩ | ⟨bs, -, -, e⟩
  all_goals rw [e]; nofun

theorem execI2cInit_ne_fault : exec .i2cInit s ≠ .fault f := by
  rcases execI2cInit_cases s with ⟨p, k, -, -, e⟩ | ⟨p, -, -, e⟩ | ⟨-, e⟩
  all_goals rw [e]; nofun

theorem execI2cRead_ne_fault : exec .i2cRead s ≠ .fault f := by
  rcases execI2cRead_cases s with
    ⟨-, e⟩ | ⟨c, n, nack, -, -, -, s1, t, new, data, -, -, -, -, -, -, -, -, e⟩ | ⟨-, n, nack, -, -, e⟩ |
    ⟨-, bs, -, -, e⟩
  all_goals rw [e]; nofun

theorem execI2cWrite_ne_fault : exec .i2cWrite s ≠ .fault f := by
  rcases execI2cWrite_cases s with
    ⟨-, e⟩ | ⟨c, n, bs, -, -, -, -, s1, t, new, -, -, -, -, -, -, e⟩ | ⟨-, n, bs, -, -, -, e⟩ |
    ⟨-, n, -, -, e⟩ | ⟨-, -, e⟩
  all_goals rw [e]; nofun

theorem execI2cStart_ne_fault : exec .i2cStart s ≠ .fault f := by
  rcases execI2cStart_cases s with ⟨-, e⟩ | ⟨c, c', t, new, -, -, -, -, -, -, -, e⟩
  all_goals rw [e]; nofun

/-- A command ends or is refused, in every state: its handler bounds each buffer access and refuses before it
reads a configuration that has no value (R32, R121). -/
theorem exec_ne_fault (i : Instr) : exec i s ≠ .fault f := by
  cases i with
  | spiInit => exact execSpiInit_ne_fault
  | spiDeinit => rw [exec_spiDeinit]; nofun
  | spiSelect => exact onOpenSpi_ne_fault nofun
  | spiRelease => exact onOpenSpi_ne_fault nofun
  | spiRead => exact execSpiRead_ne_fault
  | spiWrite => exact execSpiWrite_ne_fault
  | spiTest => exact linkTest_ne_fault
  | i2cInit => exact execI2cInit_ne_fault
  | i2cDeinit => rw [exec_i2cDeinit]; nofun
  | i2cRead => exact execI2cRead_ne_fault
  | i2cWrite => exact execI2cWrite_ne_fault
  | i2cStart => exact execI2cStart_ne_fault
  | i2cStop => exact onOpenI2c_ne_fault nofun
  | i2cTest => exact linkTest_ne_fault
  | nosuch op => rw [exec_nosuch]; nofun

/-! ### No step faults (R109) -/

theorem runCommand_ne_fault (awaiting : s.pc = .awaitOpcode) : runCommand s ≠ .fault f := by
  rw [runCommand, if_pos awaiting]
  cases h0 : s.hostAt 0 with
  | timeout => rw [fetchOpcode_timeout h0]; nofun
  | byte b => rw [fetchOpcode_byte h0]; exact exec_ne_fault _

/-- The reset input adds no fault of its own: it only cuts short what a command without it does. -/
theorem runCommandUnderReset_ne_fault {j : Nat} (awaiting : s.pc = .awaitOpcode) :
    runCommandUnderReset j s ≠ .fault f := by
  unfold runCommandUnderReset
  split
  · next g ran => exact absurd ran (runCommand_ne_fault awaiting)
  · nofun
  · dsimp only
    split <;> nofun

end

/-- Settles O47: between commands a step runs a command, with or without the reset input, or is the reset
itself. -/
theorem noStepFaults : Obligations.NoStepFaults := by
  rintro s f ⟨-, awaiting⟩
  unfold step
  split
  · exact runCommand_ne_fault awaiting
  · nofun
  · exact runCommandUnderReset_ne_fault awaiting

end Sys2Proof.Machine
end

section
/-! PROOFS. Reset and the hazards between the buses (spec/70_reset_and_hazards.md): which commands a closed bus
refuses (R121), that neither bus's commands touch the other bus (R120), the first operation after reset and what
the external reset input leaves (R117, R118). -/

namespace Sys2Proof.Machine

open Sys2Proof State

/-! ### Refusals (R121) -/

/-- How a command that needs a bus comes out: with a next state if the bus is open, else refused under the name of
that bus. -/
def RunsIfOpen (opened : Bool) (q : Refusal) (o : Out) : Prop :=
  (opened = false ∧ o = .refused q) ∨ (opened = true ∧ ∃ t, o = .next t)

section

variable {s t : State} {r : Refusal}

theorem RunsIfOpen.refused_iff {opened : Bool} {q : Refusal} {o : Out} (h : RunsIfOpen opened q o) :
    o = .refused r ↔ opened = false ∧ r = q := by
  rcases h with ⟨rfl, rfl⟩ | ⟨rfl, t, rfl⟩
  · simp [eq_comm]
  · simp

theorem onOpenI2c_runsIfOpen {k : Out} (h : ∃ t, k = .next t) :
    RunsIfOpen s.i2cOpen .i2cBusClosed (onOpenI2c s k) := by
  cases opened : s.i2cOpen with
  | true => exact .inr ⟨rfl, onOpenI2c_open opened ▸ h⟩
  | false => exact .inl ⟨rfl, onOpenI2c_closed opened⟩

theorem onOpenSpi_runsIfOpen {k : Out} (h : ∃ t, k = .next t) :
    RunsIfOpen s.spiOpen .spiBusClosed (onOpenSpi s k) := by
  cases opened : s.spiOpen with
  | true => exact .inr ⟨rfl, onOpenSpi_open opened ▸ h⟩
  | false => exact .inl ⟨rfl, onOpenSpi_closed opened⟩

theorem execSpiRead_runsIfOpen : RunsIfOpen s.spiOpen .spiBusClosed (exec .spiRead s) := by
  rcases execSpiRead_cases s with
    closed | ⟨opened, n, -, -, data, -, e⟩ | ⟨opened, n, -, -, e⟩ | ⟨opened, -, e⟩
  · exact .inl closed
  all_goals exact .inr ⟨opened, _, e⟩

theorem execSpiWrite_runsIfOpen : RunsIfOpen s.spiOpen .spiBusClosed (exec .spiWrite s) := by
  rcases execSpiWrite_cases s with
    closed | ⟨opened, n, bs, -, -, -, e⟩ | ⟨opened, n, bs, -, -, -, e⟩ | ⟨opened, n, -, -, e⟩ |
    ⟨opened, -, e⟩
  · exact .inl closed
  all_goals exact .inr ⟨opened, _, e⟩

theorem execI2cRead_runsIfOpen : RunsIfOpen s.i2cOpen .i2cBusClosed (exec .i2cRead s) := by
  rcases execI2cRead_cases s with
    closed | ⟨c, n, nack, hc, -, -, s1, t, new, data, -, -, -, -, -, -, -, -, e⟩ |
    ⟨opened, n, nack, -, -, e⟩ | ⟨opened, bs, -, -, e⟩
  · exact .inl closed
  · exact .inr ⟨i2cOpen_of_config hc, _, e⟩
  all_goals exact .inr ⟨opened, _, e⟩

theorem execI2cWrite_runsIfOpen : RunsIfOpen s.i2cOpen .i2cBusClosed (exec .i2cWrite s) := by
  rcases execI2cWrite_cases s with
    closed | ⟨c, n, bs, hc, -, -, -, s1, t, new, -, -, -, -, -, -, e⟩ | ⟨opened, n, bs, -, -, -, e⟩ |
    ⟨opened, n, -, -, e⟩ | ⟨opened, -, e⟩
  · exact .inl closed
  · exact .inr ⟨i2cOpen_of_config hc, _, e⟩
  all_goals exact .inr ⟨opened, _, e⟩

theorem execI2cStart_runsIfOpen : RunsIfOpen s.i2cOpen .i2cBusClosed (exec .i2cStart s) := by
  rcases execI2cStart_cases s with closed | ⟨c, c', t, new, hc, -, -, -, -, -, -, e⟩
  · exact .inl closed
  · exact .inr ⟨i2cOpen_of_config hc, _, e⟩

theorem execSpiInit_next : ∃ t, exec .spiInit s = .next t := by
  rcases execSpiInit_cases s with ⟨p, -, -, e⟩ | ⟨p, -, -, e⟩ | ⟨-, e⟩ <;> exact ⟨_, e⟩

theorem execI2cInit_next : ∃ t, exec .i2cInit s = .next t := by
  rcases execI2cInit_cases s with ⟨p, k, -, -, e⟩ | ⟨p, -, -, e⟩ | ⟨-, e⟩ <;> exact ⟨_, e⟩

theorem linkTest_next (op : Byte) : ∃ t, linkTest op s = .next t := by
  rcases linkTest_cases op s with ⟨-, e⟩ | ⟨a, b, -, -, e⟩ | ⟨bs, -, -, e⟩ <;> exact ⟨_, e⟩

/-- The I2C commands of R121, on either bus state. -/
theorem exec_i2cBus_runsIfOpen {i : Instr} (h : i ∈ [Instr.i2cRead, .i2cWrite, .i2cStart, .i2cStop]) :
    RunsIfOpen s.i2cOpen .i2cBusClosed (exec i s) := by
  simp only [List.mem_cons, List.not_mem_nil, or_false] at h
  rcases h with rfl | rfl | rfl | rfl
  · exact execI2cRead_runsIfOpen
  · exact execI2cWrite_runsIfOpen
  · exact execI2cStart_runsIfOpen
  · exact onOpenI2c_runsIfOpen ⟨_, rfl⟩

/-- The SPI commands of R121, on either bus state. -/
theorem exec_spiBus_runsIfOpen {i : Instr} (h : i ∈ [Instr.spiSelect, .spiRelease, .spiRead, .spiWrite]) :
    RunsIfOpen s.spiOpen .spiBusClosed (exec i s) := by
  simp only [List.mem_cons, List.not_mem_nil, or_false] at h
  rcases h with rfl | rfl | rfl | rfl
  · exact onOpenSpi_runsIfOpen ⟨_, rfl⟩
  · exact onOpenSpi_runsIfOpen ⟨_, rfl⟩
  · exact execSpiRead_runsIfOpen
  · exact execSpiWrite_runsIfOpen

/-- Every other command has a next state, whatever the buses are. -/
theorem exec_next_of_no_bus {i : Instr} (i2c : i ∉ [Instr.i2cRead, .i2cWrite, .i2cStart, .i2cStop])
    (spi : i ∉ [Instr.spiSelect, .spiRelease, .spiRead, .spiWrite]) : ∃ t, exec i s = .next t := by
  cases i with
  | spiInit => exact execSpiInit_next
  | spiDeinit => exact ⟨_, exec_spiDeinit s⟩
  | i2cInit => exact execI2cInit_next
  | i2cDeinit => exact ⟨_, exec_i2cDeinit s⟩
  | spiTest | i2cTest => exact linkTest_next _
  | nosuch op => exact ⟨_, exec_nosuch op s⟩
  | i2cRead | i2cWrite | i2cStart | i2cStop => simp at i2c
  | spiSelect | spiRelease | spiRead | spiWrite => simp at spi

/-- Settles O48: a command needs the I2C bus, the SPI bus or none. -/
theorem refusedExactlyOnClosedBus : Obligations.RefusedExactlyOnClosedBus := by
  intro i s r
  by_cases i2c : i ∈ [Instr.i2cRead, .i2cWrite, .i2cStart, .i2cStop]
  · have spi : i ∉ [Instr.spiSelect, .spiRelease, .spiRead, .spiWrite] := by
      revert i2c
      cases i <;> simp
    rw [(exec_i2cBus_runsIfOpen i2c).refused_iff]
    simp only [i2c, spi, true_and, false_and, or_false]
  · by_cases spi : i ∈ [Instr.spiSelect, .spiRelease, .spiRead, .spiWrite]
    · rw [(exec_spiBus_runsIfOpen spi).refused_iff]
      simp only [i2c, spi, true_and, false_and, false_or]
    · obtain ⟨t, e⟩ := exec_next_of_no_bus (s := s) i2c spi
      simp only [e, i2c, spi, reduceCtorEq, false_and, or_false]

/-! ### The two buses are independent (R120) -/

/-- What the SPI side must leave alone: the I2C configuration, the cursors and the PHY operations issued. -/
def State.i2cSide (s : State) : Option I2cConfig × Nat × Nat × List Entry :=
  (s.i2c, s.txCur, s.rxCur, s.trace.filter (·.2.isPhy))

/-- What the I2C side must leave alone: the SPI configuration and the SPI operations issued. -/
def State.spiSide (s : State) : Option SpiConfig × List Entry :=
  (s.spi, s.trace.filter (·.2.isSpi))

theorem execSpiInit_i2cSide (h : exec .spiInit s = .next t) : t.i2cSide = s.i2cSide := by
  rcases execSpiInit_cases s with ⟨p, -, -, e⟩ | ⟨p, -, -, e⟩ | ⟨-, e⟩
  all_goals
    obtain rfl := Host.Outcome.next.inj (e.symm.trans h)
    simp [i2cSide, Event.isPhy]

theorem execSpiRead_i2cSide (h : exec .spiRead s = .next t) : t.i2cSide = s.i2cSide := by
  rcases execSpiRead_cases s with
    ⟨-, e⟩ | ⟨-, n, -, -, data, -, e⟩ | ⟨-, n, -, -, e⟩ | ⟨-, -, e⟩
  · cases e.symm.trans h
  all_goals
    obtain rfl := Host.Outcome.next.inj (e.symm.trans h)
    simp [i2cSide, Event.isPhy]

theorem execSpiWrite_i2cSide (h : exec .spiWrite s = .next t) : t.i2cSide = s.i2cSide := by
  rcases execSpiWrite_cases s with
    ⟨-, e⟩ | ⟨-, n, bs, -, -, -, e⟩ | ⟨-, n, bs, -, -, -, e⟩ | ⟨-, n, -, -, e⟩ | ⟨-, -, e⟩
  · cases e.symm.trans h
  all_goals
    obtain rfl := Host.Outcome.next.inj (e.symm.trans h)
    simp [i2cSide, Event.isPhy]

/-- A link test, which both buses have, is of neither side. -/
theorem linkTest_sides {op : Byte} (h : linkTest op s = .next t) :
    t.i2cSide = s.i2cSide ∧ t.spiSide = s.spiSide := by
  rcases linkTest_cases op s with ⟨-, e⟩ | ⟨a, b, -, -, e⟩ | ⟨bs, -, -, e⟩
  all_goals
    obtain rfl := Host.Outcome.next.inj (e.symm.trans h)
    simp [i2cSide, spiSide, Event.isPhy, Event.isSpi]

theorem exec_i2cSide {i : Instr} (h : exec i s = .next t)
    (dom : i ∈ [Instr.spiInit, .spiDeinit, .spiSelect, .spiRelease, .spiRead, .spiWrite, .spiTest]) :
    t.i2cSide = s.i2cSide := by
  simp only [List.mem_cons, List.not_mem_nil, or_false] at dom
  rcases dom with rfl | rfl | rfl | rfl | rfl | rfl | rfl
  · exact execSpiInit_i2cSide h
  · obtain rfl := Host.Outcome.next.inj ((exec_spiDeinit s).symm.trans h)
    simp [i2cSide, Event.isPhy]
  · obtain rfl := execSpiSelect_next h
    simp [i2cSide, Event.isPhy]
  · obtain rfl := execSpiRelease_next h
    simp [i2cSide, Event.isPhy]
  · exact execSpiRead_i2cSide h
  · exact execSpiWrite_i2cSide h
  · exact (linkTest_sides h).1

/-- A transfer on the I2C bus leaves the SPI side alone. -/
theorem BusRan.spiSide_eq {new : List Entry} {b : Nat} (h : BusRan s t new b) : t.spiSide = s.spiSide := by
  have noSpi : new.filter (·.2.isSpi) = [] := List.filter_eq_nil_iff.mpr fun e he => by simp [h.quiet.2 e he]
  simp [spiSide, h.spi, h.trace, noSpi]

theorem execI2cInit_spiSide (h : exec .i2cInit s = .next t) : t.spiSide = s.spiSide := by
  rcases execI2cInit_cases s with ⟨p, k, -, hk, e⟩ | ⟨p, -, -, e⟩ | ⟨-, e⟩
  all_goals obtain rfl := Host.Outcome.next.inj (e.symm.trans h)
  · simp [configure_of_class hk, spiSide, Event.isSpi]
  all_goals simp [spiSide, Event.isSpi]

theorem execI2cRead_spiSide (h : exec .i2cRead s = .next t) : t.spiSide = s.spiSide := by
  rcases execI2cRead_cases s with
    ⟨-, e⟩ | ⟨c, n, nack, -, -, -, s1, u, new, data, rfl, -, ran, -, -, -, -, -, e⟩ |
    ⟨-, n, nack, -, -, e⟩ | ⟨-, bs, -, -, e⟩
  · cases e.symm.trans h
  all_goals obtain rfl := Host.Outcome.next.inj (e.symm.trans h)
  · refine Eq.trans ?_ (ran.spiSide_eq.trans ?_) <;> simp [spiSide, Event.isSpi]
  all_goals simp [spiSide, Event.isSpi]

theorem execI2cWrite_spiSide (h : exec .i2cWrite s = .next t) : t.spiSide = s.spiSide := by
  rcases execI2cWrite_cases s with
    ⟨-, e⟩ | ⟨c, n, bs, -, -, -, -, s1, u, new, rfl, -, ran, -, -, -, e⟩ |
    ⟨-, n, bs, -, -, -, e⟩ | ⟨-, n, -, -, e⟩ | ⟨-, -, e⟩
  · cases e.symm.trans h
  all_goals obtain rfl := Host.Outcome.next.inj (e.symm.trans h)
  · refine Eq.trans ?_ (ran.spiSide_eq.trans ?_) <;> simp [spiSide, Event.isSpi]
  all_goals simp [spiSide, Event.isSpi]

theorem beforeStart_spiSide (c : I2cConfig) (s : State) : (s.beforeStart c).spiSide = s.spiSide := by
  by_cases wedged : s.phaseAt 0 = .idleError
  · simp only [State.beforeStart, if_pos wedged, configure_of_class (speedClass?_byte c.cls), phyPhase_eq]
    simp [spiSide, Event.isSpi]
  · simp only [State.beforeStart, if_neg wedged, phyPhase_eq]
    simp [spiSide, Event.isSpi]

theorem execI2cStart_spiSide (h : exec .i2cStart s = .next t) : t.spiSide = s.spiSide := by
  rcases execI2cStart_cases s with ⟨-, e⟩ | ⟨c, c', u, new, -, -, -, ran, -, -, -, e⟩
  · cases e.symm.trans h
  · obtain rfl := Host.Outcome.next.inj (e.symm.trans h)
    refine Eq.trans ?_ (ran.spiSide_eq.trans (beforeStart_spiSide c s))
    simp [spiSide, Event.isSpi]

theorem exec_spiSide {i : Instr} (h : exec i s = .next t)
    (dom : i ∈ [Instr.i2cInit, .i2cDeinit, .i2cRead, .i2cWrite, .i2cStart, .i2cStop, .i2cTest]) :
    t.spiSide = s.spiSide := by
  simp only [List.mem_cons, List.not_mem_nil, or_false] at dom
  rcases dom with rfl | rfl | rfl | rfl | rfl | rfl | rfl
  · exact execI2cInit_spiSide h
  · obtain rfl := Host.Outcome.next.inj ((exec_i2cDeinit s).symm.trans h)
    simp [spiSide, Event.isSpi]
  · exact execI2cRead_spiSide h
  · exact execI2cWrite_spiSide h
  · exact execI2cStart_spiSide h
  · obtain rfl := execI2cStop_next h
    simp [spiSide, Event.isSpi]
  · exact (linkTest_sides h).2

/-- If the entries that satisfy `p` are as they were, none of those added does. -/
theorem added_not_of_filter_eq {p : Entry → Bool} {old new : List Entry}
    (h : (old ++ new).filter p = old.filter p) : ∀ e ∈ new, p e = false := by
  rw [List.filter_append, List.append_right_eq_self, List.filter_eq_nil_iff] at h
  exact fun e he => by simpa using h e he

/-- Settles O56: either domain leaves the other's side as it was. -/
theorem busDomainsIndependent : Obligations.BusDomainsIndependent := by
  intro i s t h
  obtain ⟨new, trace, -⟩ := Accounts.of_exec h
  refine ⟨new, trace, fun dom => ?_, fun dom => ?_⟩
  · have side := exec_i2cSide h dom
    simp only [i2cSide, Prod.mk.injEq] at side
    obtain ⟨i2c, tx, rx, ops⟩ := side
    exact ⟨i2c, tx, rx, added_not_of_filter_eq (trace ▸ ops)⟩
  · obtain ⟨spi, ops⟩ := Prod.mk.inj (exec_spiSide h dom)
    exact ⟨spi, added_not_of_filter_eq (trace ▸ ops)⟩

/-! ### Reset (R117, R118) -/

/-- A command fetch that leads to a next state begins with the Transport read of the opcode. -/
theorem runCommand_fetches (h : runCommand s = .next t) :
    ∃ got rest, t.trace = s.trace ++ (.awaitOpcode, .trRead 1 got) :: rest := by
  obtain ⟨awaiting, rfl | ⟨b, run⟩⟩ := runCommand_cases h
  · exact ⟨[], [], by rw [← awaiting]⟩
  · obtain ⟨rest, trace, -⟩ := Accounts.of_exec run
    exact ⟨[b], rest, by simp [trace, awaiting]⟩

/-- Settles O9: after reset the trace is empty, so what the fetch adds to it comes first. -/
theorem firstOperationAfterResetIsFetch : Obligations.FirstOperationAfterResetIsFetch := by
  intro host t h
  rw [step_running rfl] at h
  exact runCommand_fetches h

theorem step_reset_later {j : Nat} (h : s.env.resetIn = some (j + 1)) :
    step s = runCommandUnderReset (j + 1) s := by simp only [step, h]

/-- What a reset still to come does to a command, by the operations `ops` the command issues without it. -/
theorem runCommandUnderReset_of_next {j : Nat} {ops : List Entry}
    (run : runCommand (s.setResetIn none) = .next t) (trace : t.trace = s.trace ++ ops) :
    runCommandUnderReset j s = if j < ops.length then .next (resetAfter (ops.take j) t.env.junk s)
      else .next (t.setResetIn (some (j - ops.length))) := by
  simp only [runCommandUnderReset, run, trace, List.drop_left]

/-- The state a reset inside a command leaves: the operations before it applied no reset themselves. -/
theorem resetAfter_eq (ops : List Entry) (junk : Nat) (s : State) :
    resetAfter ops junk s =
      { params := s.params, pc := .awaitOpcode, latches := .reset, i2c := none, spi := none, txCur := 0
        rxCur := 0, buf := []
        env := { (ops.map Prod.snd).foldl Env.took s.env with
          junk := junk, resets := s.env.resets + 1, resetIn := none }
        trace := s.trace ++ ops } := by
  simp only [resetAfter, resetBlock, foldl_took_resets]

/-- Settles O59: a reset at once, and both cases of one after `j + 1` more operations. -/
theorem externalResetOutcome : Obligations.ExternalResetOutcome := by
  intro s after
  refine ⟨fun now => ⟨.reset, ?_⟩, fun j t ops later h trace => ?_⟩
  · simp [step_reset now, resetBlock, after]
  · have run : runCommand (s.setResetIn none) = .next t := step_running (s := s.setResetIn none) rfl ▸ h
    rw [step_reset_later later, runCommandUnderReset_of_next run trace]
    refine ⟨fun more => ⟨.reset, ?_⟩, fun done => ?_⟩
    · rw [if_pos more, resetAfter_eq]
    · exact if_neg (Nat.not_lt.mpr done)

end

end Sys2Proof.Machine
end
